-- ==== Sys2Proof/Word.lean ====
section
/-! DEFINITION. The widths of XMC's values (R5: every value is an unsigned integer of a stated width). -/

namespace Sys2Proof

/-- `u8`: a byte of a frame, of the frame buffer or of a command operand (R5, R69). -/
abbrev Byte := BitVec 8

/-- `u16`: a CRC or a trailer value (R5, R100). -/
abbrev Half := BitVec 16

/-- `u32`: a command word or the data of a register access (R5, R42, R60). -/
abbrev Word := BitVec 32

end Sys2Proof
end

