-- ==== Sys2Proof/Syntax.lean ====
section
/-! DEFINITION. The commands of XMC: one constructor of `Instr` per row of spec/opcode_table.json (R64). -/

namespace Sys2Proof

/-- The 13 mnemonics of R64. -/
inductive Mnemonic where
  | NOP | CRC_INIT | CRC_BYTE | SUM_INIT | SUM_BYTE | ENCODE | DECODE | STRIP
  | CLASSIFY | MODESEL | PROBE_START | PROBE_CANCEL | SESS_INIT
  deriving DecidableEq, Repr

/-- A command with its operands as R61 to R63 size them: a byte operand is a u8, `seq` a u8 and `k` a u11. -/
inductive Instr where
  | nop
  | crcInit
  | crcByte (b : Byte)
  | sumInit
  | sumByte (b : Byte)
  | encode (seq : Byte) (k : BitVec 11)
  | decode
  | strip
  | classify (b : Byte)
  | modesel (b : Byte)
  | probeStart
  | probeCancel
  | sessInit
  deriving DecidableEq, Repr

/-- The row of R64 a command belongs to. -/
def Instr.mnemonic : Instr → Mnemonic
  | .nop => .NOP
  | .crcInit => .CRC_INIT
  | .crcByte _ => .CRC_BYTE
  | .sumInit => .SUM_INIT
  | .sumByte _ => .SUM_BYTE
  | .encode _ _ => .ENCODE
  | .decode => .DECODE
  | .strip => .STRIP
  | .classify _ => .CLASSIFY
  | .modesel _ => .MODESEL
  | .probeStart => .PROBE_START
  | .probeCancel => .PROBE_CANCEL
  | .sessInit => .SESS_INIT

/-- A command line as R66 writes it: a mnemonic and the numbers that follow it, of any size. -/
structure Spelling where
  mnemonic : Mnemonic
  operands : List Nat
  deriving DecidableEq, Repr

/-- How R66 writes a command (`ENCODE <seq>, <k>`). -/
def Instr.spelling (i : Instr) : Spelling :=
  { mnemonic := i.mnemonic
    operands :=
      match i with
      | .crcByte b => [b.toNat]
      | .sumByte b => [b.toNat]
      | .classify b => [b.toNat]
      | .modesel b => [b.toNat]
      | .encode seq k => [seq.toNat, k.toNat]
      | .nop => []
      | .crcInit => []
      | .sumInit => []
      | .decode => []
      | .strip => []
      | .probeStart => []
      | .probeCancel => []
      | .sessInit => [] }

end Sys2Proof
end

