-- ==== Sys2Proof/WellFormed.lean ====
section
/-! DEFINITION. Which command lines have a spelling (R66): the number of operands and the range of each. -/

namespace Sys2Proof

/-- R66: "b in 0..255". -/
def byteOperandOk (b : Nat) : Bool := decide (b < 256)

/-- R66: "k in 0..2047". -/
def countOperandOk (k : Nat) : Bool := decide (k < 2048)

/-- R66: "An operand outside its range has no spelling, and the assembler refuses it". A mnemonic with no operand
takes none, a byte command one, ENCODE two. -/
def Spelling.wellFormed (l : Spelling) : Bool :=
  match l.mnemonic with
  | .CRC_BYTE | .SUM_BYTE | .CLASSIFY | .MODESEL =>
    match l.operands with
    | [b] => byteOperandOk b
    | _ => false
  | .ENCODE =>
    match l.operands with
    | [seq, k] => byteOperandOk seq && countOperandOk k
    | _ => false
  | .NOP | .CRC_INIT | .SUM_INIT | .DECODE | .STRIP | .PROBE_START | .PROBE_CANCEL | .SESS_INIT =>
    l.operands.isEmpty

/-- A command is well-formed when its own spelling is. The operand types of `Instr` already hold the ranges, so every
command is: `Laws.Decode` proves it per constructor, and no form of a command is shut out by asking for it. -/
def Instr.wellFormed (i : Instr) : Bool := i.spelling.wellFormed

end Sys2Proof
end

