-- ==== Sys2Proof/Decode.lean ====
section
/-! DEFINITION. The command encoding of R60 to R65: the decoder, the encoder, the opcode map as a table, and R66's
assembler. -/

namespace Sys2Proof

/-- The two cases of an illegal word (R65). -/
inductive IllegalWord where
  /-- an unassigned opcode: every value except the 13 of R64 -/
  | unassignedOpcode (opc : Nat)
  /-- an assigned opcode with a nonzero bit in a reserved field of its format -/
  | reservedBits (opc : Nat)
  deriving DecidableEq, Repr

/-- OPC = w[31:24] (R60). -/
def opcField (w : Word) : Nat := (w.extractLsb' 24 8).toNat

/-- BYTE = w[7:0] (R62), and SEQ = w[7:0] (R63). -/
def byteField (w : Word) : Byte := w.extractLsb' 0 8

/-- K = w[18:8] (R63). -/
def countField (w : Word) : BitVec 11 := w.extractLsb' 8 11

/-- Format N (R61): w[23:0] must be 0. -/
def decodeN (w : Word) (i : Instr) : Except IllegalWord Instr :=
  if w.extractLsb' 0 24 = 0 then .ok i else .error (.reservedBits (opcField w))

/-- Format B (R62): w[23:8] must be 0. -/
def decodeB (w : Word) (mk : Byte → Instr) : Except IllegalWord Instr :=
  if w.extractLsb' 8 16 = 0 then .ok (mk (byteField w)) else .error (.reservedBits (opcField w))

/-- Format E (R63): w[23:19] must be 0. -/
def decodeE (w : Word) (mk : Byte → BitVec 11 → Instr) : Except IllegalWord Instr :=
  if w.extractLsb' 19 5 = 0 then .ok (mk (byteField w) (countField w)) else .error (.reservedBits (opcField w))

/-- The command a word stands for, or why it stands for none (R64, R65). -/
def decode (w : Word) : Except IllegalWord Instr :=
  match opcField w with
  | 0x00 => decodeN w .nop
  | 0x01 => decodeN w .crcInit
  | 0x02 => decodeB w .crcByte
  | 0x03 => decodeN w .sumInit
  | 0x04 => decodeB w .sumByte
  | 0x10 => decodeE w .encode
  | 0x11 => decodeN w .decode
  | 0x12 => decodeN w .strip
  | 0x20 => decodeB w .classify
  | 0x21 => decodeB w .modesel
  | 0x30 => decodeN w .probeStart
  | 0x31 => decodeN w .probeCancel
  | 0x3F => decodeN w .sessInit
  | opc => .error (.unassignedOpcode opc)

/-- Format N assembled (R61, R66). -/
def encodeN (opc : Byte) : Word := opc ++ (0 : BitVec 24)

/-- Format B assembled (R62, R66). -/
def encodeB (opc b : Byte) : Word := opc ++ (0 : BitVec 16) ++ b

/-- Format E assembled (R63, R66). -/
def encodeE (opc seq : Byte) (k : BitVec 11) : Word := opc ++ (0 : BitVec 5) ++ k ++ seq

/-- The word of a command (R61 to R64, R66). -/
def encode : Instr → Word
  | .nop => encodeN 0x00
  | .crcInit => encodeN 0x01
  | .crcByte b => encodeB 0x02 b
  | .sumInit => encodeN 0x03
  | .sumByte b => encodeB 0x04 b
  | .encode seq k => encodeE 0x10 seq k
  | .decode => encodeN 0x11
  | .strip => encodeN 0x12
  | .classify b => encodeB 0x20 b
  | .modesel b => encodeB 0x21 b
  | .probeStart => encodeN 0x30
  | .probeCancel => encodeN 0x31
  | .sessInit => encodeN 0x3F

/-- One row of R64's opcode map. -/
structure OpcodeRow where
  mnemonic : Mnemonic
  word : Word
  mask : Word
  deriving DecidableEq, Repr

/-- The opcode map of R64, row by row. -/
def opcodeMap : List OpcodeRow :=
  [ ⟨.NOP, 0x00000000, 0xFFFFFFFF⟩
  , ⟨.CRC_INIT, 0x01000000, 0xFFFFFFFF⟩
  , ⟨.CRC_BYTE, 0x02000000, 0xFFFFFF00⟩
  , ⟨.SUM_INIT, 0x03000000, 0xFFFFFFFF⟩
  , ⟨.SUM_BYTE, 0x04000000, 0xFFFFFF00⟩
  , ⟨.ENCODE, 0x10000000, 0xFFF80000⟩
  , ⟨.DECODE, 0x11000000, 0xFFFFFFFF⟩
  , ⟨.STRIP, 0x12000000, 0xFFFFFFFF⟩
  , ⟨.CLASSIFY, 0x20000000, 0xFFFFFF00⟩
  , ⟨.MODESEL, 0x21000000, 0xFFFFFF00⟩
  , ⟨.PROBE_START, 0x30000000, 0xFFFFFFFF⟩
  , ⟨.PROBE_CANCEL, 0x31000000, 0xFFFFFFFF⟩
  , ⟨.SESS_INIT, 0x3F000000, 0xFFFFFFFF⟩ ]

/-- R64: "A word w selects the row whose `(w & mask) == match`". -/
def OpcodeRow.selects (r : OpcodeRow) (w : Word) : Bool := w &&& r.mask == r.word

/-- The assembler of R66: the command of a spelling, or none where an operand is outside its range or the operands are
not as many as the mnemonic takes. -/
def assembleInstr (l : Spelling) : Option Instr :=
  if l.wellFormed then
    match l.mnemonic, l.operands with
    | .NOP, _ => some .nop
    | .CRC_INIT, _ => some .crcInit
    | .SUM_INIT, _ => some .sumInit
    | .DECODE, _ => some .decode
    | .STRIP, _ => some .strip
    | .PROBE_START, _ => some .probeStart
    | .PROBE_CANCEL, _ => some .probeCancel
    | .SESS_INIT, _ => some .sessInit
    | .CRC_BYTE, [b] => some (.crcByte (BitVec.ofNat 8 b))
    | .SUM_BYTE, [b] => some (.sumByte (BitVec.ofNat 8 b))
    | .CLASSIFY, [b] => some (.classify (BitVec.ofNat 8 b))
    | .MODESEL, [b] => some (.modesel (BitVec.ofNat 8 b))
    | .ENCODE, [seq, k] => some (.encode (BitVec.ofNat 8 seq) (BitVec.ofNat 11 k))
    | _, _ => none
  else none

/-- R66: "The assembled word is `{OPC, fields}`". -/
def assemble (l : Spelling) : Option Word := (assembleInstr l).map encode

/-- The word an instruction of `nbits` bits stands for, its bits above `nbits` zero; none where it has more than the 32
bits every command has (R60). -/
def tableWord (nbits w : Nat) : Option Word :=
  if w % 2 ^ nbits < 2 ^ 32 then some (BitVec.ofNat 32 (w % 2 ^ nbits)) else none

/-- The instruction the decoder reads from a word numbered as spec/opcode_table.json numbers its bits. -/
def decodeTableWord (nbits w : Nat) : Option Instr :=
  match tableWord nbits w with
  | none => none
  | some word =>
    match decode word with
    | .ok i => some i
    | .error _ => none

end Sys2Proof
end

