-- ==== Sys2Proof/Config.lean ====
section
/-! DEFINITION. What the spec leaves open as a parameter of an instance, and the structural size it fixes. -/

namespace Sys2Proof

/-- FBUF_SIZE = 3 + 1024 + 2 (R4). -/
def fbufSize : Nat := 1029

/-- The size of the bus window in bytes (R40). -/
def windowSize : Nat := 4096

/-- The parameters of one instance: the open base address of its window (R4, D3) and the three control bytes the
source names without a value (R70, G1 to G3). No step changes them; claims hold for every value of them. -/
structure Params where
  /-- P_XMC_BASE -/
  base : Nat
  /-- P_EOT -/
  eot : Byte
  /-- P_ACK -/
  ack : Byte
  /-- P_NAK -/
  nak : Byte
  deriving DecidableEq, Repr

/-- The defaults of R70 for the control bytes (PRESUMED: from general knowledge, as R70 says; log 5) and base 0
(DESIGN CHOICE: the spec leaves P_XMC_BASE open; log 4). -/
def Params.default : Params := { base := 0, eot := 0x04, ack := 0x06, nak := 0x15 }

end Sys2Proof
end

