-- ==== Sys2Proof/Machine/State.lean ====
section
/-! DEFINITION. The state of XMC (R10 to R39), why a step can stop, and the state after reset (R180). State is plain
data. Codes the spec says never occur have no constructor (93_implementation_defined.md section 2; log 13). -/

namespace Sys2Proof.Machine

/-- STATUS.MODE and CFG0.MODE_PREF (R14, R20): 0 checksum, 1 crc16. -/
inductive Mode where
  | checksum
  | crc16
  deriving DecidableEq, Repr

/-- CFG0.BSIZE (R20): 0 for 128-byte blocks, 1 for 1024-byte blocks. -/
inductive BlockSize where
  | b128
  | b1024
  deriving DecidableEq, Repr

/-- STATUS.PSTATE (R17). -/
inductive ProbeState where
  | idle
  | crc
  | nak
  | done
  | failed
  deriving DecidableEq, Repr

/-- STATUS.CLASS (R123). -/
inductive ByteClass where
  | other
  | soh
  | stx
  | eot
  | ack
  | nak
  | charC
  deriving DecidableEq, Repr

/-- STATUS.ERRCODE (R162); `none` is the reset value only. -/
inductive ErrCode where
  | none
  | illegal
  | range
  | state
  deriving DecidableEq, Repr

/-- DSTAT.RESULT (R27); `none` means no DECODE since reset or SESS_INIT. -/
inductive DecodeResult where
  | none
  | ok
  | notFrame
  | integrity
  | size
  | sync
  | trailer
  deriving DecidableEq, Repr

/-- DSTAT.ACTION (R28). -/
inductive DecodeAction where
  | none
  | ack
  | nak
  | drop
  | ignore
  | silent
  deriving DecidableEq, Repr

/-- The fields of CFG0 (R20). -/
structure Cfg0 where
  modePref : Mode
  bsize : BlockSize
  acceptStx : Bool
  trailerCheck : Bool
  syncNak : Bool
  startSeq : Byte
  deriving DecidableEq, Repr

/-- The fields of CFG1 (R21). `maxTimeouts` is stored and readable, and no rule of XMC reads it. -/
structure Cfg1 where
  crcAttempts : Byte
  maxErrors : Byte
  timeoutS : Byte
  maxTimeouts : Byte
  deriving DecidableEq, Repr

/-- The fields of DSTAT (R27). -/
structure Dstat where
  result : DecodeResult
  action : DecodeAction
  trailerOk : Bool
  seq : Byte
  cseq : Byte
  ctrl : Byte
  deriving DecidableEq, Repr

/-- DSTAT = 0. -/
def Dstat.zero : Dstat :=
  { result := .none, action := .none, trailerOk := false, seq := 0, cseq := 0, ctrl := 0 }

/-- The two halves of DTRL (R29). -/
structure Dtrl where
  received : Half
  computed : Half
  deriving DecidableEq, Repr

/-- DTRL = 0. -/
def Dtrl.zero : Dtrl := { received := 0, computed := 0 }

/-- The frame buffer: (index, byte) pairs, indices strictly rising, an index that is not listed being unwritten (R37,
R46; log 21). -/
abbrev Memory := List Host.Cell

/-- An event: what an agent does in one step (R9, R180). An access carries its bus address, its width in bytes and, for
a write, the written value. -/
inductive Event where
  /-- `BusRead` (R6) at bus address `addr`, `width` bytes. -/
  | busRead (addr width : Nat)
  /-- `BusWrite` (R6) of `value` at bus address `addr`, `width` bytes. -/
  | busWrite (addr width : Nat) (value : Word)
  /-- One pulse of the tick input (R126). -/
  | tick
  /-- One inbound byte at the receive-snoop port (R128). -/
  | rx (b : Byte)
  /-- The reset input (R180). -/
  | reset
  deriving DecidableEq, Repr

/-- One `Tx(b)` with the step at which it occurred (R38). -/
structure TxRecord where
  step : Nat
  byte : Byte
  deriving DecidableEq, Repr

/-- The data one bus read returned to the host, with the step and the address of the read (log 10). -/
structure BusReply where
  step : Nat
  addr : Nat
  data : Word
  deriving DecidableEq, Repr

/-- The state of one XMC instance (R10), then the model's own fields. CMD holds no value (R13). -/
structure State where
  /-- STATUS.MODE (R15) -/
  mode : Mode
  /-- STATUS.MLOCK (R16) -/
  mlock : Bool
  /-- STATUS.PSTATE (R17) -/
  pstate : ProbeState
  /-- STATUS.CLASS (R18) -/
  cls : ByteClass
  /-- STATUS.MSEL_HIT (R18) -/
  mselHit : Bool
  /-- STATUS.ERRCODE (R19) -/
  errcode : ErrCode
  /-- CFG0 (R20) -/
  cfg0 : Cfg0
  /-- CFG1 (R21) -/
  cfg1 : Cfg1
  /-- CFG2.INTERVAL_MS (R22) -/
  intervalMs : BitVec 16
  /-- CRC[15:0] (R23) -/
  crc : Half
  /-- SUM[7:0] (R24) -/
  sum : Byte
  /-- EXPSEQ[7:0] (R25) -/
  expseq : Byte
  /-- FLEN[10:0] (R26) -/
  flen : BitVec 11
  /-- DSTAT (R27) -/
  dstat : Dstat
  /-- DTRL (R29) -/
  dtrl : Dtrl
  /-- PLEN[10:0] (R30) -/
  plen : BitVec 11
  /-- TRIES[15:0] (R31) -/
  tries : BitVec 16
  /-- PCNT.CRCN (R32) -/
  crcn : BitVec 8
  /-- PCNT.NAKN (R32) -/
  nakn : BitVec 18
  /-- PTICK[15:0] (R33) -/
  ptick : BitVec 16
  /-- IRQ_PEND[3:0] (R34) -/
  irqPend : BitVec 4
  /-- IRQ_EN[3:0] (R35) -/
  irqEn : BitVec 4
  /-- CLAT (R36) -/
  clat : BitVec 8
  /-- NLAT (R36) -/
  nlat : BitVec 18
  /-- ILAT (R36) -/
  ilat : BitVec 16
  /-- FBUF with its written bits (R37) -/
  fbuf : Memory
  /-- the output line `irq` (R35, R167), evaluated after every step (log 12) -/
  irq : Bool
  /-- the probe port as its event history, oldest first (R38; log 9) -/
  txHistory : List TxRecord
  /-- the instance's parameters: P_XMC_BASE, P_EOT, P_ACK, P_NAK (R4, R70; logs 4 and 5) -/
  params : Params
  /-- the model's own: the agents' events still to come, in their order (R9, R51; log 1) -/
  inbox : List Event
  /-- the model's own: what bus reads returned, oldest first (log 10) -/
  replies : List BusReply
  /-- the model's own: the number of steps taken (R38; log 11) -/
  stepNo : Nat
  deriving DecidableEq, Repr

/-- Why a bus access is refused (R165). -/
inductive BusErrorCause where
  /-- width other than 4, or a misaligned access, at 0x000 to 0x043 (R42) -/
  | registerShape
  /-- a read of CMD (R43) -/
  | readOfCmd
  /-- a write to a read-only register (R43) -/
  | writeOfReadOnly
  /-- width other than 1 at 0x400 to 0x804 (R45) -/
  | fbufWidth
  /-- any access at 0x044 to 0x3FF or at 0x805 to 0xFFF (R47) -/
  | reservedOffset
  deriving DecidableEq, Repr

/-- Why a step ends in a fault. -/
inductive Fault where
  /-- Raised by a bus access that R165 refuses, at offset `off` with `width` bytes. R164: no state changes, and the fault
  of the host's access is final for the run. Safe: the hardware goes on (log 7). -/
  | busError (cause : BusErrorCause) (off width : Nat)
  /-- Raised by a host read, or by ENCODE, DECODE or STRIP, that reads FBUF[i] before anything wrote it (R46). Safe: the
  hardware returns some value (log 8). -/
  | unwrittenRead (i : Nat)
  deriving DecidableEq, Repr

/-- Why a step gives no meaning. -/
inductive Refusal where
  /-- Raised by an arm of `exec` whose command has no meaning yet; no arm is left so. Safe. -/
  | notModelled (mnemonic : String)
  deriving DecidableEq, Repr

/-- What a command or an event ends in. -/
abbrev Result := Host.Outcome State Fault Refusal

/-- The machine right after reset (R180, R39): every register at its stated value, every FBUF byte unwritten, the probe
port empty, irq = 0. The parameters are at their defaults and no event is waiting (logs 3, 4, 5). -/
def State.reset : State where
  mode := .crc16
  mlock := false
  pstate := .idle
  cls := .other
  mselHit := false
  errcode := .none
  cfg0 := { modePref := .crc16, bsize := .b128, acceptStx := false, trailerCheck := false, syncNak := false,
            startSeq := 1 }
  cfg1 := { crcAttempts := 3, maxErrors := 10, timeoutS := 10, maxTimeouts := 5 }
  intervalMs := 3000
  crc := 0
  sum := 0
  expseq := 1
  flen := 0
  dstat := Dstat.zero
  dtrl := Dtrl.zero
  plen := 0
  tries := 0
  crcn := 0
  nakn := 0
  ptick := 0
  irqPend := 0
  irqEn := 0
  clat := 2
  nlat := 300
  ilat := 3000
  fbuf := []
  irq := false
  txHistory := []
  params := Params.default
  inbox := []
  replies := []
  stepNo := 0

end Sys2Proof.Machine
end

