-- ==== Sys2Proof/Machine/Flags.lean ====
section
/-! DEFINITION. The numeric codes of the status fields (R14, R20, R27, R28), the interrupt bits with every computation
over them (R34, R35, R166, R167), and the one counter that saturates (R86). -/

namespace Sys2Proof.Machine

/-- R14: 0 checksum, 1 crc16. -/
def modeCode : Mode → BitVec 1
  | .checksum => 0
  | .crc16 => 1

/-- The mode of a mode bit (R20). -/
def modeOfBit (b : Bool) : Mode := if b then .crc16 else .checksum

/-- R20: 0 = 128-byte blocks, 1 = 1024-byte blocks. -/
def blockSizeCode : BlockSize → BitVec 1
  | .b128 => 0
  | .b1024 => 1

/-- The block size of a BSIZE bit (R20). -/
def blockSizeOfBit (b : Bool) : BlockSize := if b then .b1024 else .b128

/-- R14: 0 IDLE, 1 CRC, 2 NAK, 3 DONE, 4 FAILED. -/
def probeStateCode : ProbeState → BitVec 3
  | .idle => 0
  | .crc => 1
  | .nak => 2
  | .done => 3
  | .failed => 4

/-- R123: the class codes 0 to 6. -/
def byteClassCode : ByteClass → BitVec 4
  | .other => 0
  | .soh => 1
  | .stx => 2
  | .eot => 3
  | .ack => 4
  | .nak => 5
  | .charC => 6

/-- R162: 0 NONE, 1 ILLEGAL, 2 RANGE, 3 STATE. -/
def errCodeCode : ErrCode → BitVec 3
  | .none => 0
  | .illegal => 1
  | .range => 2
  | .state => 3

/-- R27: RESULT codes 0 to 6. -/
def decodeResultCode : DecodeResult → BitVec 4
  | .none => 0
  | .ok => 1
  | .notFrame => 2
  | .integrity => 3
  | .size => 4
  | .sync => 5
  | .trailer => 6

/-- R28: ACTION codes 0 to 5. -/
def decodeActionCode : DecodeAction → BitVec 3
  | .none => 0
  | .ack => 1
  | .nak => 2
  | .drop => 3
  | .ignore => 4
  | .silent => 5

/-- The four interrupt sources (R166). -/
inductive IrqBit where
  | negDone
  | negFail
  | cmdErr
  | probeTx
  deriving DecidableEq, Repr

/-- R34: the bit of IRQ_PEND and IRQ_EN a source has. -/
def irqIndex : IrqBit → Nat
  | .negDone => 0
  | .negFail => 1
  | .cmdErr => 2
  | .probeTx => 3

/-- The 4-bit word with one source's bit set. -/
def irqMask (b : IrqBit) : BitVec 4 := BitVec.twoPow 4 (irqIndex b)

/-- Whether a source's pending bit is set. -/
def isPending (b : IrqBit) (s : State) : Bool := s.irqPend.getLsbD (irqIndex b)

/-- `IRQ_PEND.b <- 1`; a bit already set stays set (R166). -/
def setPending (b : IrqBit) (s : State) : State := { s with irqPend := s.irqPend ||| irqMask b }

/-- The write-1-to-clear of IRQ_PEND (R34): "Writing 1 to a bit clears it, and writing 0 leaves it". -/
def clearPending (v : Word) (s : State) : State := { s with irqPend := s.irqPend &&& ~~~(v.extractLsb' 0 4) }

/-- R35, R167: `irq = ((IRQ_PEND[3:0] & IRQ_EN[3:0]) != 0)`. -/
def irqLevel (s : State) : Bool := s.irqPend &&& s.irqEn != 0

/-- `min(TRIES + 1, 0xFFFF)` (R82, R86). -/
def triesIncremented (t : BitVec 16) : BitVec 16 := if t = 0xFFFF then 0xFFFF else t + 1

end Sys2Proof.Machine
end

