-- ==== Sys2Proof/Machine/Operands.lean ====
section
/-! DEFINITION. What commands read besides their operand fields: the wired-in byte values (R70), the live B and T (R7),
byte classification (R123), and which control bytes DECODE and the snoop accept (R82, R128). -/

namespace Sys2Proof.Machine

/-- SOH = 0x01 (R70). -/
def soh : Byte := 0x01

/-- STX = 0x02 (R70). -/
def stx : Byte := 0x02

/-- 'C' = 0x43 (R70). -/
def charC : Byte := 0x43

/-- The filler byte 0x1A (R70, R74). -/
def filler : Byte := 0x1A

/-- R70's constraint on the parameters ("the seven values are distinct") and D3's on the base ("4 KiB aligned"). -/
def paramsWf (p : Params) : Bool :=
  decide ([soh, stx, p.eot, p.ack, p.nak, charC, filler].Pairwise (· ≠ ·)) && decide (p.base % windowSize = 0)

/-- The number of payload bytes a block size stands for (R20). -/
def blockBytes : BlockSize → Nat
  | .b128 => 128
  | .b1024 => 1024

/-- B, read live (R7). -/
def payloadLen (s : State) : Nat := blockBytes s.cfg0.bsize

/-- T, read live (R7): 2 in crc16 mode, 1 in checksum mode. -/
def trailerLen (s : State) : Nat :=
  match s.mode with
  | .crc16 => 2
  | .checksum => 1

/-- 3 + B + T, the length of a frame (R71). -/
def frameLen (s : State) : Nat := 3 + payloadLen s + trailerLen s

/-- The control byte ENCODE writes (R71, R80): STX when B = 1024, SOH when B = 128. -/
def controlByte (s : State) : Byte := if payloadLen s = 1024 then stx else soh

/-- `classify(b)` (R123). -/
def classifyByte (p : Params) (b : Byte) : ByteClass :=
  if b = soh then .soh
  else if b = stx then .stx
  else if b = p.eot then .eot
  else if b = p.ack then .ack
  else if b = p.nak then .nak
  else if b = charC then .charC
  else .other

/-- R82: DECODE accepts SOH always and STX only when ACCEPT_STX = 1. -/
def controlAccepted (c : Cfg0) (b : Byte) : Bool := b == soh || (b == stx && c.acceptStx)

/-- PSTATE in {CRC, NAK} (R126, R128, R129). -/
def probing (s : State) : Bool := s.pstate = .crc || s.pstate = .nak

end Sys2Proof.Machine
end

