-- ==== Sys2Proof/Machine/Ops.lean ====
section
/-! DEFINITION. The named operations the commands and events share: the frame buffer's reads and writes (R46), the
refusal of a command (R161: what XMC has in place of taking an exception; it has no trap entry and no return, R169), and
the probe port's `Tx` (R121). -/

namespace Sys2Proof.Machine

/-- The byte at index i, or none where it is unwritten (R46). -/
def Memory.read : Memory → Nat → Option Byte
  | [], _ => none
  | (a, b) :: rest, i => if a = i then some b else Memory.read rest i

/-- `FBUF[i] <- v; written[i] <- 1` (R46), keeping the indices rising. -/
def Memory.write : Memory → Nat → Byte → Memory
  | [], i, v => [(i, v)]
  | (a, b) :: rest, i, v =>
    if i < a then (i, v) :: (a, b) :: rest
    else if i = a then (i, v) :: rest
    else (a, b) :: Memory.write rest i v

/-- The canonical form: indices strictly rising, and each an index of FBUF (R37). -/
def Memory.wf (m : Memory) : Bool :=
  decide (m.Pairwise fun x y => x.1 < y.1) && m.all fun c => decide (c.1 < fbufSize)

/-- R46: a read of an unwritten byte is the model fault UnwrittenRead(i). -/
def fbufRead (m : Memory) (i : Nat) : Except Fault Byte :=
  match m.read i with
  | some b => .ok b
  | none => .error (.unwrittenRead i)

/-- `FBUF[start..start+n]` (R6), read in rising order; the first unwritten byte faults. -/
def fbufReadBytes (m : Memory) : Nat → Nat → Except Fault (List Byte)
  | _, 0 => .ok []
  | start, n + 1 =>
    match fbufRead m start with
    | .error f => .error f
    | .ok b =>
      match fbufReadBytes m (start + 1) n with
      | .error f => .error f
      | .ok bs => .ok (b :: bs)

/-- `FBUF[start+j] <- bs[j]` for every j, in rising order. -/
def fbufWriteBytes (m : Memory) : Nat → List Byte → Memory
  | _, [] => m
  | start, b :: bs => fbufWriteBytes (m.write start b) (start + 1) bs

/-- `raise CmdError(code)` (R161): ERRCODE and IRQ_PEND.CMDERR, and nothing else. -/
def raiseCmdError (code : ErrCode) (s : State) : State := { setPending .cmdErr s with errcode := code }

/-- `Tx(b)` (R121, R38): the byte joins the probe port's history with the number of the step, and PROBE_TX is set. -/
def transmit (b : Byte) (s : State) : State :=
  { setPending .probeTx s with txHistory := s.txHistory ++ [{ step := s.stepNo, byte := b }] }

end Sys2Proof.Machine
end

