-- ==== Sys2Proof/Machine/Bus.lean ====
section
/-! DEFINITION. The bus window (R40 to R49): which register or buffer byte an access reaches, which accesses are bus
errors (R165), the word a register reads as, and what a register write stores. -/

namespace Sys2Proof.Machine

/-- The registers of R41. -/
inductive Reg where
  | CMD | STATUS | CFG0 | CFG1 | CFG2 | CRC | SUM | EXPSEQ | FLEN | DSTAT | DTRL | PLEN | TRIES | PCNT | PTICK
  | IRQ_PEND | IRQ_EN
  deriving DecidableEq, Repr

/-- The registers in the order of their offsets 0x000, 0x004, ... 0x040 (R41). -/
def regFile : List Reg :=
  [ .CMD, .STATUS, .CFG0, .CFG1, .CFG2, .CRC, .SUM, .EXPSEQ, .FLEN, .DSTAT, .DTRL, .PLEN, .TRIES, .PCNT, .PTICK
  , .IRQ_PEND, .IRQ_EN ]

/-- The offset of CMD (R13). -/
def cmdOffset : Nat := 0x000

/-- The first offset of FBUF (R41). -/
def fbufOffset : Nat := 0x400

/-- What an access of the window reaches. -/
inductive BusTarget where
  | reg (r : Reg)
  | fbuf (i : Nat)
  deriving DecidableEq, Repr

/-- The register or FBUF byte of an access at an offset with a width in bytes (R41, R42, R45, R47). -/
def busTarget (off width : Nat) : Except Fault BusTarget :=
  if off < 0x044 then
    if width = 4 ∧ off % 4 = 0 then
      match regFile[off / 4]? with
      | some r => .ok (.reg r)
      | none => .error (.busError .reservedOffset off width)
    else .error (.busError .registerShape off width)
  else if fbufOffset ≤ off ∧ off < fbufOffset + fbufSize then
    if width = 1 then .ok (.fbuf (off - fbufOffset)) else .error (.busError .fbufWidth off width)
  else .error (.busError .reservedOffset off width)

/-- One bit. -/
def bit (b : Bool) : BitVec 1 := BitVec.ofBool b

/-- STATUS (R14). -/
def statusWord (s : State) : Word :=
  (0 : BitVec 13) ++ errCodeCode s.errcode ++ (0 : BitVec 3) ++ bit s.mselHit ++ byteClassCode s.cls ++ (0 : BitVec 3)
    ++ probeStateCode s.pstate ++ bit s.mlock ++ modeCode s.mode

/-- CFG0 (R20). -/
def cfg0Word (c : Cfg0) : Word :=
  (0 : BitVec 16) ++ c.startSeq ++ (0 : BitVec 3) ++ bit c.syncNak ++ bit c.trailerCheck ++ bit c.acceptStx
    ++ blockSizeCode c.bsize ++ modeCode c.modePref

/-- CFG1 (R21). -/
def cfg1Word (c : Cfg1) : Word := c.maxTimeouts ++ c.timeoutS ++ c.maxErrors ++ c.crcAttempts

/-- DSTAT (R27). -/
def dstatWord (d : Dstat) : Word :=
  d.ctrl ++ d.cseq ++ d.seq ++ bit d.trailerOk ++ decodeActionCode d.action ++ decodeResultCode d.result

/-- DTRL (R29). -/
def dtrlWord (t : Dtrl) : Word := t.received ++ t.computed

/-- PCNT (R32). -/
def pcntWord (s : State) : Word := (0 : BitVec 6) ++ s.nakn ++ s.crcn

/-- What a register reads as, its reserved fields as 0 (R44); none where it is not readable (R43: CMD). -/
def regRead (r : Reg) (s : State) : Option Word :=
  match r with
  | .CMD => none
  | .STATUS => some (statusWord s)
  | .CFG0 => some (cfg0Word s.cfg0)
  | .CFG1 => some (cfg1Word s.cfg1)
  | .CFG2 => some (s.intervalMs.setWidth 32)
  | .CRC => some (s.crc.setWidth 32)
  | .SUM => some (s.sum.setWidth 32)
  | .EXPSEQ => some (s.expseq.setWidth 32)
  | .FLEN => some (s.flen.setWidth 32)
  | .DSTAT => some (dstatWord s.dstat)
  | .DTRL => some (dtrlWord s.dtrl)
  | .PLEN => some (s.plen.setWidth 32)
  | .TRIES => some (s.tries.setWidth 32)
  | .PCNT => some (pcntWord s)
  | .PTICK => some (s.ptick.setWidth 32)
  | .IRQ_PEND => some (s.irqPend.setWidth 32)
  | .IRQ_EN => some (s.irqEn.setWidth 32)

/-- The fields of CFG0 in a written word (R20, R44). -/
def cfg0OfWord (v : Word) : Cfg0 :=
  { modePref := modeOfBit (v.getLsbD 0)
    bsize := blockSizeOfBit (v.getLsbD 1)
    acceptStx := v.getLsbD 2
    trailerCheck := v.getLsbD 3
    syncNak := v.getLsbD 4
    startSeq := v.extractLsb' 8 8 }

/-- The fields of CFG1 in a written word (R21). -/
def cfg1OfWord (v : Word) : Cfg1 :=
  { crcAttempts := v.extractLsb' 0 8
    maxErrors := v.extractLsb' 8 8
    timeoutS := v.extractLsb' 16 8
    maxTimeouts := v.extractLsb' 24 8 }

/-- INTERVAL_MS as a written word stores it (R22): "a write of 0 stores 1". -/
def intervalOfWord (v : Word) : BitVec 16 := if v.extractLsb' 0 16 = 0 then 1 else v.extractLsb' 0 16

/-- What a write of a register other than CMD stores (R44, R49); none where it is not writable (R43). -/
def regWrite (r : Reg) (v : Word) (s : State) : Option State :=
  match r with
  | .CFG0 => some { s with cfg0 := cfg0OfWord v }
  | .CFG1 => some { s with cfg1 := cfg1OfWord v }
  | .CFG2 => some { s with intervalMs := intervalOfWord v }
  | .EXPSEQ => some { s with expseq := v.extractLsb' 0 8 }
  | .FLEN => some { s with flen := v.extractLsb' 0 11 }
  | .IRQ_PEND => some (clearPending v s)
  | .IRQ_EN => some { s with irqEn := v.extractLsb' 0 4 }
  | .CMD | .STATUS | .CRC | .SUM | .DSTAT | .DTRL | .PLEN | .TRIES | .PCNT | .PTICK => none

/-- The data of a read at an offset of the window (R43, R45, R46). -/
def readData (off width : Nat) (s : State) : Except Fault Word :=
  match busTarget off width with
  | .error f => .error f
  | .ok (.reg r) =>
    match regRead r s with
    | some w => .ok w
    | none => .error (.busError .readOfCmd off width)
  | .ok (.fbuf i) =>
    match fbufRead s.fbuf i with
    | .error f => .error f
    | .ok b => .ok (b.setWidth 32)

/-- Whether the instance is addressed: the access begins in its window (R40; log 6). -/
def selected (addr : Nat) (s : State) : Bool := decide (s.params.base ≤ addr ∧ addr < s.params.base + windowSize)

/-- `BusRead` (R6): the data goes back to the host, and nothing else changes (R49). An access outside the window is
another slave's (log 6). -/
def busReadEvent (addr width : Nat) (s : State) : Result :=
  if selected addr s then
    match readData (addr - s.params.base) width s with
    | .error f => .fault f
    | .ok w => .next { s with replies := s.replies ++ [{ step := s.stepNo, addr := addr, data := w }] }
  else .next s

end Sys2Proof.Machine
end

