-- ==== Sys2Proof/Machine/Control.lean ====
section
/-! DEFINITION. Control: NOP (R151), SESS_INIT (R152) and the effect of the reset input (R180). -/

namespace Sys2Proof.Machine

/-- NOP (R151): no effect. -/
def execNop (s : State) : Result := .next s

/-- SESS_INIT (R152): a new session. What R152 lists as kept is kept. -/
def execSessInit (s : State) : Result :=
  .next { s with
    mode := s.cfg0.modePref
    mlock := false
    pstate := .idle
    cls := .other
    mselHit := false
    crcn := 0
    nakn := 0
    ptick := 0
    expseq := s.cfg0.startSeq
    tries := 0
    dstat := Dstat.zero
    dtrl := Dtrl.zero
    plen := 0 }

/-- The reset input (R180): every register at its reset value and every FBUF byte unwritten. The instance's parameters,
the agents' coming events and the record of what already left XMC are not XMC's registers and stay ("Reset does not
retract a probe byte already handed to the transport"; logs 9 and 19). -/
def resetEvent (s : State) : State :=
  { State.reset with
    params := s.params
    inbox := s.inbox
    txHistory := s.txHistory
    replies := s.replies
    stepNo := s.stepNo }

end Sys2Proof.Machine
end

