-- ==== Sys2Proof/Machine/Trailer.lean ====
section
/-! DEFINITION. The pure functions of the trailer engine (R100 to R104). -/

namespace Sys2Proof.Machine

/-- The low 16 bits of the polynomial x^16 + x^12 + x^5 + 1 (R100). -/
def crcPoly : Half := 0x1021

/-- One turn of R101's loop: `trunc_16(x << 1)`, with the polynomial added when x[15] was 1. -/
def crcShift (x : Half) : Half := if x.getLsbD 15 then (x <<< 1) ^^^ crcPoly else x <<< 1

/-- n turns of R101's loop. -/
def crcShifts : Nat → Half → Half
  | 0, x => x
  | n + 1, x => crcShifts n (crcShift x)

/-- `crc_step(c, b)` (R101): the byte enters the high end, then eight turns. -/
def crcStep (c : Half) (b : Byte) : Half := crcShifts 8 (c ^^^ (b ++ (0 : BitVec 8)))

/-- `crc16(P)` (R100): initial value 0, no reflection, no final exclusive or. -/
def crc16 (p : List Byte) : Half := p.foldl crcStep 0

/-- `sum8(P)` (R103): the exact integer sum, then truncation. -/
def sum8 (p : List Byte) : Byte := BitVec.ofNat 8 (p.map BitVec.toNat).sum

/-- v[15:8] of a u16. -/
def highByte (v : Half) : Byte := v.extractLsb' 8 8

/-- v[7:0] of a u16. -/
def lowByte (v : Half) : Byte := v.extractLsb' 0 8

/-- `trailer(P, T)` (R104): the CRC most significant byte first for T = 2, the sum for T = 1. -/
def trailer (p : List Byte) (t : Nat) : List Byte :=
  if t = 2 then [highByte (crc16 p), lowByte (crc16 p)] else [sum8 p]

end Sys2Proof.Machine
end

