-- ==== Sys2Proof/Machine/FrameCodec.lean ====
section
/-! DEFINITION. The frame codec: ENCODE (R80), DECODE (R82 to R87) and STRIP (R89). -/

namespace Sys2Proof.Machine

/-- The frame buffer ENCODE leaves for a number k ≤ B of loaded bytes (R80): filler, header, then the trailer of the
whole payload, which is read back from the buffer. -/
def encodedFbuf (seq : Byte) (k : Nat) (s : State) : Except Fault Memory :=
  let padded := fbufWriteBytes s.fbuf (3 + k) (List.replicate (payloadLen s - k) filler)
  let headed := fbufWriteBytes padded 0 [controlByte s, seq, 0xFF - seq]
  match fbufReadBytes headed 3 (payloadLen s) with
  | .error f => .error f
  | .ok p => .ok (fbufWriteBytes headed (3 + payloadLen s) (trailer p (trailerLen s)))

/-- ENCODE (R80): RANGE when k > B, before any write (R163); otherwise the frame in FBUF and `FLEN <- 3 + B + T`. -/
def execEncode (seq : Byte) (k : BitVec 11) (s : State) : Result :=
  if payloadLen s < k.toNat then .next (raiseCmdError .range s)
  else
    match encodedFbuf seq k.toNat s with
    | .error f => .fault f
    | .ok m => .next { s with fbuf := m, flen := BitVec.ofNat 11 (frameLen s) }

/-- What DECODE writes (R82): DSTAT, DTRL and TRIES. -/
structure Verdict where
  dstat : Dstat
  dtrl : Dtrl
  tries : BitVec 16
  deriving DecidableEq, Repr

/-- `nak_or_silent()` (R82, R84): NAK while TRIES ≤ MAX_ERRORS, SILENT after that. -/
def nakOrSilent (tries : BitVec 16) (s : State) : DecodeAction :=
  if tries.toNat ≤ s.cfg1.maxErrors.toNat then .nak else .silent

/-- `reject(r)` (R82), with the fields of DSTAT and DTRL set so far. -/
def rejectFrame (r : DecodeResult) (d : Dstat) (t : Dtrl) (tries : BitVec 16) (s : State) : Verdict :=
  { dstat := { d with result := r, action := nakOrSilent tries s }, dtrl := t, tries := tries }

/-- `comp` of R82: the CRC, or the sum zero-extended. -/
def computedTrailer (p : List Byte) (t : Nat) : Half :=
  if t = 2 then crc16 p else (sum8 p).setWidth 16

/-- `recv` of R82: `{FBUF[3+B], FBUF[4+B]}`, or FBUF[3+B] zero-extended. -/
def receivedTrailer (s : State) : Except Fault Half :=
  match fbufRead s.fbuf (3 + payloadLen s) with
  | .error f => .error f
  | .ok hi =>
    if trailerLen s = 2 then
      match fbufRead s.fbuf (4 + payloadLen s) with
      | .error f => .error f
      | .ok lo => .ok (hi ++ lo)
    else .ok (hi.setWidth 16)

/-- DECODE's last stage (R82): the header, the length and the sequence number were right. -/
def judgeTrailer (d : Dstat) (tries : BitVec 16) (s : State) : Except Fault Verdict :=
  match fbufReadBytes s.fbuf 3 (payloadLen s) with
  | .error f => .error f
  | .ok p =>
    match receivedTrailer s with
    | .error f => .error f
    | .ok recv =>
      let comp := computedTrailer p (trailerLen s)
      let t : Dtrl := { received := recv, computed := comp }
      let d' : Dstat := { d with trailerOk := comp == recv }
      if comp ≠ recv ∧ s.cfg0.trailerCheck = true then .ok (rejectFrame .trailer d' t tries s)
      else .ok { dstat := { d' with result := .ok, action := .ack }, dtrl := t, tries := 0 }

/-- DECODE's answer to a sequence number other than EXPSEQ (R82, R85). -/
def syncVerdict (d : Dstat) (tries : BitVec 16) (s : State) : Verdict :=
  { dstat := { d with result := .sync, action := if s.cfg0.syncNak then nakOrSilent tries s else .drop }
    dtrl := Dtrl.zero
    tries := tries }

/-- DECODE after the control byte was accepted and TRIES incremented (R82): the header, length and sequence checks in
R83's order. -/
def judgeHeader (ctrl : Byte) (tries : BitVec 16) (s : State) : Except Fault Verdict :=
  let d : Dstat := { Dstat.zero with ctrl := ctrl }
  if s.flen.toNat < 3 then .ok (rejectFrame .integrity d Dtrl.zero tries s)
  else
    match fbufRead s.fbuf 1 with
    | .error f => .error f
    | .ok sq =>
      match fbufRead s.fbuf 2 with
      | .error f => .error f
      | .ok c =>
        let d' : Dstat := { d with seq := sq, cseq := c }
        if sq.toNat + c.toNat ≠ 0xFF then .ok (rejectFrame .integrity d' Dtrl.zero tries s)
        else if s.flen.toNat ≠ frameLen s then .ok (rejectFrame .size d' Dtrl.zero tries s)
        else if sq ≠ s.expseq then .ok (syncVerdict d' tries s)
        else judgeTrailer d' tries s

/-- DECODE's NOT_FRAME verdict (R82), which leaves TRIES. -/
def notFrame (ctrl : Byte) (s : State) : Verdict :=
  { dstat := { Dstat.zero with result := .notFrame, action := .ignore, ctrl := ctrl }
    dtrl := Dtrl.zero
    tries := s.tries }

/-- The verdict of DECODE (R82). -/
def judge (s : State) : Except Fault Verdict :=
  if s.flen = 0 then .ok (notFrame 0 s)
  else
    match fbufRead s.fbuf 0 with
    | .error f => .error f
    | .ok ctrl =>
      if controlAccepted s.cfg0 ctrl then judgeHeader ctrl (triesIncremented s.tries) s
      else .ok (notFrame ctrl s)

/-- DECODE (R82): writes DSTAT, DTRL and TRIES only. -/
def execDecode (s : State) : Result :=
  match judge s with
  | .error f => .fault f
  | .ok v => .next { s with dstat := v.dstat, dtrl := v.dtrl, tries := v.tries }

/-- STRIP's scan (R89) from a length down: filler at the end is dropped. -/
def stripScan (m : Memory) : Nat → Except Fault Nat
  | 0 => .ok 0
  | l + 1 =>
    match fbufRead m (3 + l) with
    | .error f => .error f
    | .ok b => if b = filler then stripScan m l else .ok (l + 1)

/-- STRIP (R89): writes PLEN only. -/
def execStrip (s : State) : Result :=
  match stripScan s.fbuf (payloadLen s) with
  | .error f => .fault f
  | .ok l => .next { s with plen := BitVec.ofNat 11 l }

end Sys2Proof.Machine
end

