-- ==== Sys2Proof/Machine/Negotiation.lean ====
section
/-! DEFINITION. Mode negotiation: CLASSIFY (R122), MODESEL (R130), PROBE_START (R124), PROBE_CANCEL (R129), and the
events of the tick source and the transport receiver (R126 to R128). -/

namespace Sys2Proof.Machine

/-- CLASSIFY (R122): `STATUS.CLASS <- classify(b)`. -/
def execClassify (b : Byte) (s : State) : Result := .next { s with cls := classifyByte s.params b }

/-- A MODESEL hit (R130): the mode is selected and locked, and NEG_DONE set. -/
def lockMode (m : Mode) (s : State) : State :=
  { setPending .negDone s with mode := m, mlock := true, mselHit := true }

/-- MODESEL (R130): STATE outside IDLE, before any write; otherwise CLASS, and 'C' or NAK selects the mode of a session
whose mode is not locked. -/
def execModesel (b : Byte) (s : State) : Result :=
  if s.pstate ≠ .idle then .next (raiseCmdError .state s)
  else
    let s' := { s with cls := classifyByte s.params b }
    if s.mlock = false ∧ b = charC then .next (lockMode .crc16 s')
    else if s.mlock = false ∧ b = s.params.nak then .next (lockMode .checksum s')
    else .next { s' with mselHit := false }

/-- CLAT as PROBE_START latches it (R36). -/
def latchedClat (c : Cfg1) : BitVec 8 := if c.crcAttempts = 0 then 0 else c.crcAttempts - 1

/-- NLAT as PROBE_START latches it (R36): the exact product in 18 bits. -/
def latchedNlat (c : Cfg1) : BitVec 18 := BitVec.ofNat 18 (c.maxErrors.toNat * c.timeoutS.toNat * 3)

/-- PROBE_START's effect once it is not refused (R124). -/
def startProbe (s : State) : State :=
  let latched := { s with clat := latchedClat s.cfg1, nlat := latchedNlat s.cfg1, ilat := s.intervalMs,
                          crcn := 0, nakn := 0, ptick := 0 }
  if s.cfg0.modePref = .crc16 ∧ 1 ≤ (latchedClat s.cfg1).toNat then
    { latched with pstate := .crc, mode := .crc16 }
  else { latched with pstate := .nak, mode := .checksum }

/-- PROBE_START (R124): STATE when probing is not IDLE or the mode is locked. -/
def execProbeStart (s : State) : Result :=
  if s.pstate ≠ .idle ∨ s.mlock = true then .next (raiseCmdError .state s)
  else .next (startProbe s)

/-- PROBE_CANCEL (R129): stops a running probe; in IDLE, DONE and FAILED it has no effect. -/
def execProbeCancel (s : State) : Result :=
  if probing s then .next { s with pstate := .idle, ptick := 0 } else .next s

/-- The NAK branch of the interval event (R127), for a state whose PSTATE is NAK. -/
def nakInterval (s : State) : State :=
  if s.nakn.toNat < s.nlat.toNat then { transmit s.params.nak s with nakn := s.nakn + 1 }
  else { setPending .negFail s with pstate := .failed }

/-- The interval event (R127): a 'C' probe, or the fallback to checksum with the first NAK in the same event, or a NAK
probe, or FAILED. -/
def intervalEvent (s : State) : State :=
  if s.pstate = .crc then
    if s.crcn.toNat < s.clat.toNat then { transmit charC s with crcn := s.crcn + 1 }
    else nakInterval { s with pstate := .nak, mode := .checksum }
  else nakInterval s

/-- One tick (R126). Outside CRC and NAK it has no effect. -/
def tickEvent (s : State) : State :=
  if probing s then
    if s.ptick.toNat + 1 = s.ilat.toNat then intervalEvent { s with ptick := 0 }
    else { s with ptick := s.ptick + 1 }
  else s

/-- R128: the inbound bytes that end probing, whatever ACCEPT_STX is. -/
def endsProbing (b : Byte) : Bool := b == soh || b == stx

/-- The receive snoop (R128). -/
def rxEvent (b : Byte) (s : State) : State :=
  if probing s && endsProbing b then
    { setPending .negDone s with pstate := .done, mlock := true, ptick := 0 }
  else s

end Sys2Proof.Machine
end

