-- ==== Sys2Proof/Machine/TrailerEngine.lean ====
section
/-! DEFINITION. The accumulator commands CRC_INIT, CRC_BYTE, SUM_INIT and SUM_BYTE (R105 to R109). -/

namespace Sys2Proof.Machine

/-- CRC_INIT (R105): `CRC[15:0] <- 0x0000`. -/
def execCrcInit (s : State) : Result := .next { s with crc := 0 }

/-- CRC_BYTE (R106): `CRC[15:0] <- crc_step(CRC[15:0], b)`. -/
def execCrcByte (b : Byte) (s : State) : Result := .next { s with crc := crcStep s.crc b }

/-- SUM_INIT (R107): `SUM[7:0] <- 0x00`. -/
def execSumInit (s : State) : Result := .next { s with sum := 0 }

/-- SUM_BYTE (R108): `SUM[7:0] <- trunc_8(SUM[7:0] + b)`. -/
def execSumByte (b : Byte) (s : State) : Result := .next { s with sum := s.sum + b }

end Sys2Proof.Machine
end

