-- ==== Sys2Proof/Machine/Dispatch.lean ====
section
/-! DEFINITION. Command dispatch (R150): each command performs its own rule. -/

namespace Sys2Proof.Machine

def exec (i : Instr) (s : State) : Host.Outcome State Fault Refusal :=
  match i with
  | .nop => Sys2Proof.Machine.execNop s
  | .crcInit => Sys2Proof.Machine.execCrcInit s
  | .crcByte b => Sys2Proof.Machine.execCrcByte b s
  | .sumInit => Sys2Proof.Machine.execSumInit s
  | .sumByte b => Sys2Proof.Machine.execSumByte b s
  | .encode seq k => Sys2Proof.Machine.execEncode seq k s
  | .decode => Sys2Proof.Machine.execDecode s
  | .strip => Sys2Proof.Machine.execStrip s
  | .classify b => Sys2Proof.Machine.execClassify b s
  | .modesel b => Sys2Proof.Machine.execModesel b s
  | .probeStart => Sys2Proof.Machine.execProbeStart s
  | .probeCancel => Sys2Proof.Machine.execProbeCancel s
  | .sessInit => Sys2Proof.Machine.execSessInit s

end Sys2Proof.Machine
end

