-- ==== Sys2Proof/Machine/Events.lean ====
section
/-! DEFINITION. The events XMC processes, one a step (R9, R51): bus accesses, with a command executed at its CMD write
(R150), ticks, inbound bytes and reset; and what is evaluated after every step (R167). -/

namespace Sys2Proof.Machine

/-- Command dispatch (R150): the word's row performs its rule; a word of no row raises CmdError(ILLEGAL) (R65). -/
def runCommand (w : Word) (s : State) : Result :=
  match decode w with
  | .ok i => exec i s
  | .error _ => .next (raiseCmdError .illegal s)

/-- A write at an offset of the window (R43, R45, R46, R49). -/
def writeOffset (off width : Nat) (v : Word) (s : State) : Result :=
  match busTarget off width with
  | .error f => .fault f
  | .ok (.fbuf i) => .next { s with fbuf := s.fbuf.write i (v.extractLsb' 0 8) }
  | .ok (.reg .CMD) => runCommand v s
  | .ok (.reg r) =>
    match regWrite r v s with
    | some s' => .next s'
    | none => .fault (.busError .writeOfReadOnly off width)

/-- `BusWrite` (R6). An access outside the window is another slave's (log 6). -/
def busWriteEvent (addr width : Nat) (v : Word) (s : State) : Result :=
  if selected addr s then writeOffset (addr - s.params.base) width v s else .next s

/-- One event, processed whole (R50, R51). -/
def deliver (e : Event) (s : State) : Result :=
  match e with
  | .busRead addr width => busReadEvent addr width s
  | .busWrite addr width v => busWriteEvent addr width v s
  | .tick => .next (tickEvent s)
  | .rx b => .next (rxEvent b s)
  | .reset => .next (resetEvent s)

/-- The end of a step: irq is evaluated (R167) and the step counted (R38; logs 11 and 12). -/
def settle (s : State) : State := { s with irq := irqLevel s, stepNo := s.stepNo + 1 }

/-- One event as a whole step. -/
def eventStep (e : Event) (s : State) : Result :=
  match deliver e s with
  | .next t => .next (settle t)
  | .fault f => .fault f
  | .refused r => .refused r

/-- The next event of the inbox as a step. With none, XMC waits and nothing changes (R180; log 2). -/
def nextEvent (s : State) : Result :=
  match s.inbox with
  | [] => .next s
  | e :: rest => eventStep e { s with inbox := rest }

/-- A command word as the event that brings it: `WR32 0x000, w` (R66, R150). -/
def cmdEvent (base : Nat) (w : Word) : Event := .busWrite (base + cmdOffset) 4 w

/-- A state about to execute a table word (log 3); the state itself where there is no such word (R60). -/
def placeWord (nbits w : Nat) (s : State) : State :=
  match tableWord nbits w with
  | some word => { s with inbox := cmdEvent s.params.base word :: s.inbox }
  | none => s

end Sys2Proof.Machine
end

