-- ==== Sys2Proof/Machine/Program.lean ====
section
/-! DEFINITION. The program notation of R66 to R68: each line as the events it stands for, for an instance at `base`. -/

namespace Sys2Proof.Machine

/-- `WR32 <off>, <v>` (R67). -/
def wr32 (base off : Nat) (v : Word) : Event := .busWrite (base + off) 4 v

/-- `RD32 <off>` (R67). -/
def rd32 (base off : Nat) : Event := .busRead (base + off) 4

/-- `WR8 <off>, <v>` (R67). -/
def wr8 (base off : Nat) (v : Word) : Event := .busWrite (base + off) 1 v

/-- `RD8 <off>` (R67). -/
def rd8 (base off : Nat) : Event := .busRead (base + off) 1

/-- `TICK <n>` (R67). -/
def ticks (n : Nat) : List Event := List.replicate n .tick

/-- A command line (R66). -/
def cmd (base : Nat) (i : Instr) : Event := cmdEvent base (encode i)

/-- `CRC_SEQ b0, ..., bn-1` (R68). -/
def crcSeq (base : Nat) (bs : List Byte) : List Event := cmd base .crcInit :: bs.map fun b => cmd base (.crcByte b)

/-- `SUM_SEQ b0, ..., bn-1` (R68). -/
def sumSeq (base : Nat) (bs : List Byte) : List Event := cmd base .sumInit :: bs.map fun b => cmd base (.sumByte b)

/-- `WR8` of each byte from an FBUF index on. -/
def loadFrom (base : Nat) : Nat → List Byte → List Event
  | _, [] => []
  | i, b :: bs => wr8 base (fbufOffset + i) (b.setWidth 32) :: loadFrom base (i + 1) bs

/-- `LOADP b0, ..., bn-1` (R68): the payload area. -/
def loadP (base : Nat) (bs : List Byte) : List Event := loadFrom base 3 bs

/-- `LOADF b0, ..., bn-1` (R68): a whole frame and its length. -/
def loadF (base : Nat) (bs : List Byte) : List Event :=
  loadFrom base 0 bs ++ [wr32 base 0x020 (BitVec.ofNat 32 bs.length)]

end Sys2Proof.Machine
end

