-- ==== Sys2Proof/Machine/Step.lean ====
section
/-! DEFINITION. One step of XMC (R51), and the placing of a command word for the very next step (log 3). -/

namespace Sys2Proof.Machine

/-- One step: exactly one event, or waiting where none has come (R51, R180). -/
def step (s : State) : Host.Outcome State Fault Refusal := nextEvent s

/-- `s` with the host's write of that word to CMD as the next event (R150). -/
def State.withFetchWord (s : State) (nbits w : Nat) : State := placeWord nbits w s

end Sys2Proof.Machine
end

