-- ==== Sys2Proof/Safety.lean ====
section
/-! DEFINITION. The terms claims about XMC use: the invariant of a run, the contents of the frame buffer, a sequence of
commands, and a run that meets no fault. -/

namespace Sys2Proof.Machine

/-- What holds of XMC at reset and after every step. -/
structure Invariant (s : State) : Prop where
  /-- the frame buffer is in its canonical form (R37) -/
  fbufCanonical : s.fbuf.wf = true
  /-- the parameters meet R70's and D3's constraints -/
  paramsLegal : paramsWf s.params = true
  /-- R22: INTERVAL_MS is never 0 -/
  intervalPositive : 1 ≤ s.intervalMs.toNat
  /-- R33, R126: PTICK is in 0 to ILAT - 1 -/
  ptickBelowIlat : s.ptick.toNat < s.ilat.toNat
  /-- R32: CLAT ≤ 254 -/
  clatBound : s.clat.toNat ≤ 254
  /-- R32, R36: NLAT ≤ 195075 -/
  nlatBound : s.nlat.toNat ≤ 195075
  /-- R32: CRCN never exceeds CLAT -/
  crcnBound : s.crcn.toNat ≤ s.clat.toNat
  /-- R32: NAKN never exceeds NLAT -/
  naknBound : s.nakn.toNat ≤ s.nlat.toNat
  /-- R30: PLEN is in 0 to B -/
  plenBound : s.plen.toNat ≤ 1024
  /-- R120: MLOCK = 0 whenever PSTATE is CRC or NAK -/
  unlockedWhileProbing : probing s = true → s.mlock = false
  /-- in the CRC phase the mode is crc16, no NAK probe was sent and the phase has probes (R124, R127) -/
  crcPhase : s.pstate = .crc → s.mode = .crc16 ∧ s.nakn = 0 ∧ 1 ≤ s.clat.toNat
  /-- in the NAK phase the mode is checksum (R124, R127) -/
  nakPhase : s.pstate = .nak → s.mode = .checksum
  /-- R133: DONE has the mode locked -/
  doneLocked : s.pstate = .done → s.mlock = true
  /-- FAILED comes unlocked, in checksum mode, with every NAK probe sent (R127) -/
  failedUnlocked : s.pstate = .failed → s.mlock = false ∧ s.mode = .checksum ∧ s.nakn = s.nlat
  /-- R27: before a DECODE, DSTAT and DTRL are 0 -/
  noVerdictYet : s.dstat.result = .none → s.dstat = Dstat.zero ∧ s.dtrl = Dtrl.zero
  /-- R87: a DECODE sets RESULT and ACTION together -/
  actionWithResult : s.dstat.action = .none → s.dstat.result = .none
  /-- R82: ACK is recommended for OK alone -/
  ackForOk : s.dstat.action = .ack ↔ s.dstat.result = .ok
  /-- R35, R167: the line follows its formula after every step -/
  irqFollows : s.irq = irqLevel s
  /-- R51: the probe port receives bytes in the order of the steps, at most one a step -/
  txOrdered : s.txHistory.Pairwise fun x y => x.step < y.step
  /-- every Tx happened at an earlier step -/
  txPast : ∀ r ∈ s.txHistory, r.step < s.stepNo
  /-- R75, R121: the probe bytes are 'C' and NAK -/
  txProbes : ∀ r ∈ s.txHistory, r.byte = charC ∨ r.byte = s.params.nak

/-- FBUF[start..start+n] holds these n bytes, all of them written. -/
def holdsBytes (m : Memory) (start : Nat) (bs : List Byte) : Prop :=
  ∀ j (h : j < bs.length), m.read (start + j) = some bs[j]

/-- R161's whole effect, written out: ERRCODE, and IRQ_PEND bit 2. -/
def cmdErrorState (c : ErrCode) (s : State) : State := { s with errcode := c, irqPend := s.irqPend ||| 0b0100 }

/-- R162, for a word that decodes: the code a command is refused with, none where it is not refused. -/
def commandRefusal (i : Instr) (s : State) : Option ErrCode :=
  match i with
  | .encode _ k => if payloadLen s < k.toNat then some .range else none
  | .modesel _ => if s.pstate ≠ .idle then some .state else none
  | .probeStart => if s.pstate ≠ .idle ∨ s.mlock = true then some .state else none
  | .nop | .crcInit | .crcByte _ | .sumInit | .sumByte _ | .decode | .strip | .classify _ | .probeCancel | .sessInit =>
    none

/-- R162, for any command word: ILLEGAL comes first. -/
def wordRefusal (w : Word) (s : State) : Option ErrCode :=
  match decode w with
  | .error _ => some .illegal
  | .ok i => commandRefusal i s

/-- Commands one after another, up to the first fault. -/
def execAll : List Instr → State → Result
  | [], s => .next s
  | i :: is, s =>
    match exec i s with
    | .next t => execAll is t
    | .fault f => .fault f
    | .refused r => .refused r

/-- A run of n steps that meets no fault and no refusal. -/
def SafeRun (n : Nat) (s : State) : Prop := ∃ t, Sys2Proof.core.run n s = .next t

/-- The command a host access brings, where the access is a legal write of CMD whose word decodes (R150). -/
def commandOf (e : Event) (s : State) : Option Instr :=
  match e with
  | .busWrite addr width v =>
    if addr = s.params.base + cmdOffset ∧ width = 4 then
      match decode v with
      | .ok i => some i
      | .error _ => none
    else none
  | .busRead _ _ | .tick | .rx _ | .reset => none

/-- The next tick is an interval event (R126). -/
def intervalDue (s : State) : Prop := probing s = true ∧ s.ptick.toNat + 1 = s.ilat.toNat

/-- An interval event would send a probe (R127). -/
def probeDue (s : State) : Prop := (s.pstate = .crc ∧ s.crcn.toNat < s.clat.toNat) ∨ s.nakn.toNat < s.nlat.toNat

/-- R166's column "set by". -/
def irqCause (b : IrqBit) (e : Event) (s : State) : Prop :=
  match b with
  | .negDone =>
    (probing s = true ∧ (e = .rx 0x01 ∨ e = .rx 0x02)) ∨
      ∃ c, commandOf e s = some (.modesel c) ∧ s.pstate = .idle ∧ s.mlock = false ∧ (c = 0x43 ∨ c = s.params.nak)
  | .negFail => e = .tick ∧ intervalDue s ∧ ¬ probeDue s
  | .cmdErr => ∃ w, e = .busWrite s.params.base 4 w ∧ wordRefusal w s ≠ none
  | .probeTx => e = .tick ∧ intervalDue s ∧ probeDue s

/-- A control byte DECODE accepts (R82). -/
def acceptedControl (c : Byte) (s : State) : Prop := c = 0x01 ∨ (c = 0x02 ∧ s.cfg0.acceptStx = true)

/-- TRIES after a frame with an accepted control byte is counted (R86). -/
def nextTries (s : State) : BitVec 16 := BitVec.ofNat 16 (min (s.tries.toNat + 1) 0xFFFF)

/-- The answer to a rejected frame (R84), TRIES having been counted for it. -/
def nakAction (s : State) : DecodeAction :=
  if min (s.tries.toNat + 1) 0xFFFF ≤ s.cfg1.maxErrors.toNat then .nak else .silent

/-- FBUF holds an accepted 3-byte header within FLEN. -/
structure HeaderHeld (s : State) (ctrl seq cseq : Byte) : Prop where
  longEnough : 3 ≤ s.flen.toNat
  ctrlByte : s.fbuf.read 0 = some ctrl
  seqByte : s.fbuf.read 1 = some seq
  cseqByte : s.fbuf.read 2 = some cseq
  accepted : acceptedControl ctrl s

end Sys2Proof.Machine
end

