-- ==== Sys2Proof/Certificates/Slice0/Obligations.lean ====
section
/-! DEFINITION. What the provers are asked to prove of XMC. Each docstring names the rule of spec/ it formalises. -/

open Sys2Proof Sys2Proof.Machine

/-! ### Encodings -/

/-- Words written out from R61 to R64: each row's opcode in bits 31:24, operands in place; and words R65 calls illegal. -/
def Obligations.DecodeOfSampleWords : Prop :=
  decode 0x00000000 = .ok .nop ∧ decode 0x01000000 = .ok .crcInit ∧ decode 0x02000031 = .ok (.crcByte 0x31) ∧
  decode 0x03000000 = .ok .sumInit ∧ decode 0x04000020 = .ok (.sumByte 0x20) ∧
  decode 0x10002C03 = .ok (.encode 3 44) ∧ decode 0x10040001 = .ok (.encode 1 1024) ∧
  decode 0x11000000 = .ok .decode ∧ decode 0x12000000 = .ok .strip ∧ decode 0x20000004 = .ok (.classify 4) ∧
  decode 0x21000015 = .ok (.modesel 0x15) ∧ decode 0x30000000 = .ok .probeStart ∧
  decode 0x31000000 = .ok .probeCancel ∧ decode 0x3F000000 = .ok .sessInit ∧
  decode 0x05000000 = .error (.unassignedOpcode 0x05) ∧ decode 0xFF000000 = .error (.unassignedOpcode 0xFF) ∧
  decode 0x02000131 = .error (.reservedBits 0x02) ∧ decode 0x10080000 = .error (.reservedBits 0x10) ∧
  decode 0x00000001 = .error (.reservedBits 0x00)

/-- R64: a word decodes exactly when some row of the opcode map selects it, to a command of that row; no two rows
select one word, since every mask covers bits 31:24 and the rows differ there. -/
def Obligations.OpcodeMapSelectsTheCommand : Prop :=
  (∀ w, ∀ r ∈ opcodeMap, r.selects w = true → ∃ i, decode w = .ok i ∧ i.mnemonic = r.mnemonic) ∧
  (∀ w i, decode w = .ok i → ∃ r ∈ opcodeMap, r.selects w = true ∧ r.mnemonic = i.mnemonic) ∧
  (∀ w, ∀ r ∈ opcodeMap, ∀ r' ∈ opcodeMap, r.selects w = true → r'.selects w = true → r = r') ∧
  (∀ r ∈ opcodeMap, r.mask.extractLsb' 24 8 = 0xFF) ∧
  (opcodeMap.map fun r => r.word.extractLsb' 24 8).Nodup

/-- The decoder reads back every command the encoder writes, with every operand at every value. -/
def Obligations.DecodeOfEncodeIsTheCommand : Prop :=
  ∀ i : Instr, i.wellFormed = true → decode (encode i) = .ok i

/-- R60 to R63 read from the word: a word that decodes is the encoding of its command alone, and its operands are
w[7:0] and w[18:8]. -/
def Obligations.DecodedWordIsItsEncoding : Prop :=
  (∀ w i, decode w = .ok i → encode i = w) ∧
  (∀ (w : Word) (b : Byte), (decode w = .ok (.crcByte b) ∨ decode w = .ok (.sumByte b) ∨
      decode w = .ok (.classify b) ∨ decode w = .ok (.modesel b)) → b.toNat = w.toNat % 256) ∧
  (∀ (w : Word) (seq : Byte) (k : BitVec 11), decode w = .ok (.encode seq k) →
    seq.toNat = w.toNat % 256 ∧ k.toNat = w.toNat / 256 % 2048)

/-- R65: a word that matches no row is illegal, for an unassigned opcode or for a nonzero reserved bit under an assigned
one, and is refused with ILLEGAL and no other effect. -/
def Obligations.IllegalWordIsRefused : Prop :=
  (∀ w s, (∀ r ∈ opcodeMap, r.selects w = false) → runCommand w s = .next (cmdErrorState .illegal s)) ∧
  (∀ w opc, decode w = .error (.unassignedOpcode opc) ↔
    opc = w.toNat / 2 ^ 24 ∧ opc ∉ [0x00, 0x01, 0x02, 0x03, 0x04, 0x10, 0x11, 0x12, 0x20, 0x21, 0x30, 0x31, 0x3F]) ∧
  (∀ w opc, decode w = .error (.reservedBits opc) ↔
    opc = w.toNat / 2 ^ 24 ∧
    ((opc ∈ [0x00, 0x01, 0x03, 0x11, 0x12, 0x30, 0x31, 0x3F] ∧ w.toNat % 2 ^ 24 ≠ 0) ∨
      (opc ∈ [0x02, 0x04, 0x20, 0x21] ∧ w.toNat / 2 ^ 8 % 2 ^ 16 ≠ 0) ∨
      (opc = 0x10 ∧ w.toNat / 2 ^ 19 % 2 ^ 5 ≠ 0)))

/-- R66: a command line assembles exactly when it has a spelling, to the word whose command has that spelling, and
stands for `WR32 0x000, <word>`. -/
def Obligations.AssemblerFollowsTheSyntax : Prop :=
  (∀ l : Spelling, (∃ w, assemble l = some w) ↔ l.wellFormed = true) ∧
  (∀ (l : Spelling) (w : Word), assemble l = some w → ∃ i, decode w = .ok i ∧ i.spelling = l) ∧
  (∀ i : Instr, assemble i.spelling = some (encode i)) ∧
  assemble ⟨.ENCODE, [3, 44]⟩ = some 0x10002C03 ∧ assemble ⟨.CRC_BYTE, [0x31]⟩ = some 0x02000031 ∧
  (∀ base i, cmd base i = .busWrite (base + 0x000) 4 (encode i))

/-! ### Steps -/

/-- R150: a legal write of CMD executes the command in the same step; a word of no row raises CmdError(ILLEGAL). Around
the command a step evaluates irq (R167). That the access is the head of the inbox is the model's choice, log 1, and that
the step counts itself is log 11's. -/
def Obligations.StepRunsTheDecodedCommand : Prop :=
  (∀ s w i rest, s.inbox = .busWrite s.params.base 4 w :: rest → decode w = .ok i →
    step s =
      match exec i { s with inbox := rest } with
      | .next t => .next { t with irq := (t.irqPend &&& t.irqEn != 0), stepNo := t.stepNo + 1 }
      | .fault f => .fault f
      | .refused r => .refused r) ∧
  (∀ s w x rest, s.inbox = .busWrite s.params.base 4 w :: rest → decode w = .error x →
    step s = .next { cmdErrorState .illegal { s with inbox := rest } with
      irq := ((s.irqPend ||| 0b0100) &&& s.irqEn != 0), stepNo := s.stepNo + 1 })

/-- Placing a 32-bit command word makes the very next step run its command (the model's way to start a program, log 3),
with irq evaluated (R167) and the step counted (log 11) after it. -/
def Obligations.PlacedWordRunsNext : Prop :=
  ∀ (s : State) (w : Nat) (i : Instr), w < 2 ^ 32 → decodeTableWord 32 w = some i →
    step (s.withFetchWord 32 w) =
      match exec i s with
      | .next t => .next { t with irq := (t.irqPend &&& t.irqEn != 0), stepNo := t.stepNo + 1 }
      | .fault f => .fault f
      | .refused r => .refused r

/-- R9 and R51: a step is exactly the first waiting event, processed; a tick and an inbound byte are R126's and R128's
effects with irq evaluated after them (R167). A step that goes on keeps the parameters, and only adds to what the host was
told and what was sent. The waiting list is the model's choice (log 1), as are the record of read data (log 10) and the
step count (log 11). -/
def Obligations.StepProcessesOneEvent : Prop :=
  (∀ s e rest, s.inbox = e :: rest →
    step s = eventStep e { s with inbox := rest } ∧
    ∀ t, step s = .next t →
      t.inbox = rest ∧ t.stepNo = s.stepNo + 1 ∧ t.params = s.params ∧
      (∃ l, t.replies = s.replies ++ l ∧ l.length ≤ 1) ∧ ∃ l, t.txHistory = s.txHistory ++ l ∧ l.length ≤ 1) ∧
  (∀ s, eventStep .tick s = .next { tickEvent s with
    irq := ((tickEvent s).irqPend &&& (tickEvent s).irqEn != 0), stepNo := s.stepNo + 1 }) ∧
  (∀ b s, eventStep (.rx b) s = .next { rxEvent b s with
    irq := ((rxEvent b s).irqPend &&& (rxEvent b s).irqEn != 0), stepNo := s.stepNo + 1 })

/-- No step is refused, and a step faults only at a host access: ticks, inbound bytes and resets never fault, in any
number and order. -/
def Obligations.OnlyHostAccessesFault : Prop :=
  (∀ s r, step s ≠ .refused r) ∧
  (∀ s f, step s = .fault f → ∃ rest, (∃ addr width, s.inbox = .busRead addr width :: rest) ∨
    ∃ addr width v, s.inbox = .busWrite addr width v :: rest) ∧
  (∀ (n : Nat) (s : State), (∀ e ∈ s.inbox, e = .tick ∨ e = .reset ∨ ∃ b, e = .rx b) → SafeRun n s)

/-! ### Reset and the invariant -/

/-- R39 and R180's words, of the machine right after reset. -/
def Obligations.RegistersAfterReset : Prop :=
  regRead .STATUS State.reset = some 0x00000001 ∧ regRead .CFG0 State.reset = some 0x00000101 ∧
  regRead .CFG1 State.reset = some 0x050A0A03 ∧ regRead .CFG2 State.reset = some 0x00000BB8 ∧
  regRead .EXPSEQ State.reset = some 0x00000001 ∧
  (∀ r ∈ [Reg.CRC, .SUM, .FLEN, .DSTAT, .DTRL, .PLEN, .TRIES, .PCNT, .PTICK, .IRQ_PEND, .IRQ_EN],
    regRead r State.reset = some 0) ∧
  State.reset.clat = 2 ∧ State.reset.nlat = 300 ∧ State.reset.ilat = 3000 ∧
  (∀ i, State.reset.fbuf.read i = none) ∧ State.reset.txHistory = [] ∧ State.reset.irq = false

/-- R180 as a step, from every state: every register, latch and FBUF byte as after reset, irq 0, nothing sent and nothing
withdrawn (that the record of sent bytes stays is the model's reading, log 9). -/
def Obligations.ResetEventRestoresEverything : Prop :=
  ∀ s, eventStep .reset s = .next { State.reset with
    params := s.params, inbox := s.inbox, txHistory := s.txHistory, replies := s.replies, stepNo := s.stepNo + 1 }

/-- The invariant holds right after reset. -/
def Obligations.InvariantHoldsAtReset : Prop := Invariant State.reset

/-- Every step, from every state that meets the invariant, keeps it: the frame buffer's canonical form, R30, R32 and
R33's ranges, R120's "MLOCK = 0 whenever PSTATE is CRC or NAK", R133, R87's pairing of RESULT and ACTION, R167's line and
the order of the probe port. -/
def Obligations.EveryStepKeepsTheInvariant : Prop := ∀ s t, Invariant s → step s = .next t → Invariant t

/-! ### Registers and the bus -/

/-- The packed words of R14, R20, R21, R27, R29 and R32, each field at its bits and every reserved bit 0; and the numbers
the host reads in them: MODE and MODE_PREF, BSIZE (R20), PSTATE (R14), CLASS (R123), ERRCODE (R162), RESULT (R27) and
ACTION (R28). -/
def Obligations.PackedRegisterLayouts : Prop :=
  (modeCode .checksum = 0 ∧ modeCode .crc16 = 1) ∧ (blockSizeCode .b128 = 0 ∧ blockSizeCode .b1024 = 1) ∧
  (probeStateCode .idle = 0 ∧ probeStateCode .crc = 1 ∧ probeStateCode .nak = 2 ∧ probeStateCode .done = 3 ∧
    probeStateCode .failed = 4) ∧
  (byteClassCode .other = 0 ∧ byteClassCode .soh = 1 ∧ byteClassCode .stx = 2 ∧ byteClassCode .eot = 3 ∧
    byteClassCode .ack = 4 ∧ byteClassCode .nak = 5 ∧ byteClassCode .charC = 6) ∧
  (errCodeCode .none = 0 ∧ errCodeCode .illegal = 1 ∧ errCodeCode .range = 2 ∧ errCodeCode .state = 3) ∧
  (decodeResultCode .none = 0 ∧ decodeResultCode .ok = 1 ∧ decodeResultCode .notFrame = 2 ∧
    decodeResultCode .integrity = 3 ∧ decodeResultCode .size = 4 ∧ decodeResultCode .sync = 5 ∧
    decodeResultCode .trailer = 6) ∧
  (decodeActionCode .none = 0 ∧ decodeActionCode .ack = 1 ∧ decodeActionCode .nak = 2 ∧ decodeActionCode .drop = 3 ∧
    decodeActionCode .ignore = 4 ∧ decodeActionCode .silent = 5) ∧
  ∀ s : State,
  (statusWord s).toNat = (errCodeCode s.errcode).toNat * 2 ^ 16 + s.mselHit.toNat * 2 ^ 12 +
    (byteClassCode s.cls).toNat * 2 ^ 8 + (probeStateCode s.pstate).toNat * 2 ^ 2 + s.mlock.toNat * 2 +
    (modeCode s.mode).toNat ∧
  (cfg0Word s.cfg0).toNat = s.cfg0.startSeq.toNat * 2 ^ 8 + s.cfg0.syncNak.toNat * 2 ^ 4 +
    s.cfg0.trailerCheck.toNat * 2 ^ 3 + s.cfg0.acceptStx.toNat * 2 ^ 2 + (blockSizeCode s.cfg0.bsize).toNat * 2 +
    (modeCode s.cfg0.modePref).toNat ∧
  (cfg1Word s.cfg1).toNat = s.cfg1.maxTimeouts.toNat * 2 ^ 24 + s.cfg1.timeoutS.toNat * 2 ^ 16 +
    s.cfg1.maxErrors.toNat * 2 ^ 8 + s.cfg1.crcAttempts.toNat ∧
  (dstatWord s.dstat).toNat = s.dstat.ctrl.toNat * 2 ^ 24 + s.dstat.cseq.toNat * 2 ^ 16 + s.dstat.seq.toNat * 2 ^ 8 +
    s.dstat.trailerOk.toNat * 2 ^ 7 + (decodeActionCode s.dstat.action).toNat * 2 ^ 4 +
    (decodeResultCode s.dstat.result).toNat ∧
  (dtrlWord s.dtrl).toNat = s.dtrl.received.toNat * 2 ^ 16 + s.dtrl.computed.toNat ∧
  (pcntWord s).toNat = s.nakn.toNat * 2 ^ 8 + s.crcn.toNat

/-- R41 with R13 to R35: what each readable register reads as at its offset, its reserved bits 0; the packed words are
those of PackedRegisterLayouts. -/
def Obligations.RegistersReadAtTheirOffsets : Prop :=
  ∀ s : State,
  readData 0x004 4 s = .ok (statusWord s) ∧ readData 0x008 4 s = .ok (cfg0Word s.cfg0) ∧
  readData 0x00C 4 s = .ok (cfg1Word s.cfg1) ∧ readData 0x010 4 s = .ok (s.intervalMs.setWidth 32) ∧
  readData 0x014 4 s = .ok (s.crc.setWidth 32) ∧ readData 0x018 4 s = .ok (s.sum.setWidth 32) ∧
  readData 0x01C 4 s = .ok (s.expseq.setWidth 32) ∧ readData 0x020 4 s = .ok (s.flen.setWidth 32) ∧
  readData 0x024 4 s = .ok (dstatWord s.dstat) ∧ readData 0x028 4 s = .ok (dtrlWord s.dtrl) ∧
  readData 0x02C 4 s = .ok (s.plen.setWidth 32) ∧ readData 0x030 4 s = .ok (s.tries.setWidth 32) ∧
  readData 0x034 4 s = .ok (pcntWord s) ∧ readData 0x038 4 s = .ok (s.ptick.setWidth 32) ∧
  readData 0x03C 4 s = .ok (s.irqPend.setWidth 32) ∧ readData 0x040 4 s = .ok (s.irqEn.setWidth 32)

/-- R40 and R49: an access of the window is the access of its offset from P_XMC_BASE, with irq (R167) and the step count
(log 11) after it; a read's data is recorded for the host (log 10). An access outside the window reaches nothing (log 6). -/
def Obligations.AccessesReachTheWindow : Prop :=
  (∀ (s : State) (off width : Nat) (d : Word), off < 4096 → readData off width s = .ok d →
    eventStep (.busRead (s.params.base + off) width) s = .next { s with
      replies := s.replies ++ [{ step := s.stepNo, addr := s.params.base + off, data := d }]
      irq := (s.irqPend &&& s.irqEn != 0), stepNo := s.stepNo + 1 }) ∧
  (∀ (s : State) (off width : Nat) (f : Fault), off < 4096 → readData off width s = .error f →
    eventStep (.busRead (s.params.base + off) width) s = .fault f) ∧
  (∀ (s : State) (off width : Nat) (v : Word), off < 4096 →
    eventStep (.busWrite (s.params.base + off) width v) s =
      match writeOffset off width v s with
      | .next t => .next { t with irq := (t.irqPend &&& t.irqEn != 0), stepNo := t.stepNo + 1 }
      | .fault f => .fault f
      | .refused r => .refused r) ∧
  (∀ (s : State) (addr width : Nat) (v : Word), addr < s.params.base ∨ s.params.base + 4096 ≤ addr →
    eventStep (.busRead addr width) s =
        .next { s with irq := (s.irqPend &&& s.irqEn != 0), stepNo := s.stepNo + 1 } ∧
      eventStep (.busWrite addr width v) s =
        .next { s with irq := (s.irqPend &&& s.irqEn != 0), stepNo := s.stepNo + 1 })

/-- R44 with R20, R21, R22, R25, R26 and R35: a word write of a read-write register stores its defined fields and nothing
else, reserved bits read 0, and INTERVAL_MS stores 1 for 0. -/
def Obligations.RegisterWritesReadBack : Prop :=
  ∀ (v : Word) (s : State),
  (∃ c, writeOffset 0x008 4 v s = .next { s with cfg0 := c } ∧
    readData 0x008 4 { s with cfg0 := c } = .ok (v &&& 0x0000FF1F)) ∧
  (∃ c, writeOffset 0x00C 4 v s = .next { s with cfg1 := c } ∧ readData 0x00C 4 { s with cfg1 := c } = .ok v) ∧
  (∃ x, writeOffset 0x010 4 v s = .next { s with intervalMs := x } ∧
    readData 0x010 4 { s with intervalMs := x } =
      .ok (if v &&& 0x0000FFFF = 0 then 1 else v &&& 0x0000FFFF)) ∧
  (∃ x, writeOffset 0x01C 4 v s = .next { s with expseq := x } ∧
    readData 0x01C 4 { s with expseq := x } = .ok (v &&& 0x000000FF)) ∧
  (∃ x, writeOffset 0x020 4 v s = .next { s with flen := x } ∧
    readData 0x020 4 { s with flen := x } = .ok (v &&& 0x000007FF)) ∧
  (∃ x, writeOffset 0x040 4 v s = .next { s with irqEn := x } ∧
    readData 0x040 4 { s with irqEn := x } = .ok (v &&& 0x0000000F))

/-- R34: "Writing 1 to a bit clears it, and writing 0 leaves it", for each of the four bits, and nothing else changes. -/
def Obligations.IrqPendIsWriteOneToClear : Prop :=
  ∀ (v : Word) (s : State), ∃ x, writeOffset 0x03C 4 v s = .next { s with irqPend := x } ∧
    ∀ i < 4, x.getLsbD i = (s.irqPend.getLsbD i && !v.getLsbD i)

/-- R165: exactly these accesses of the window are bus errors, for a read and for a write. -/
def Obligations.BusErrorsExactlyWhere : Prop :=
  ∀ (off width : Nat) (v : Word) (s : State), off < 4096 →
  ((∃ c, readData off width s = .error (.busError c off width)) ↔
    (off ≤ 0x043 ∧ (width ≠ 4 ∨ off % 4 ≠ 0)) ∨ off = 0x000 ∨ (0x400 ≤ off ∧ off ≤ 0x804 ∧ width ≠ 1) ∨
    (0x044 ≤ off ∧ off ≤ 0x3FF) ∨ 0x805 ≤ off) ∧
  ((∃ c, writeOffset off width v s = .fault (.busError c off width)) ↔
    (off ≤ 0x043 ∧ (width ≠ 4 ∨ off % 4 ≠ 0)) ∨
    off ∈ [0x004, 0x014, 0x018, 0x024, 0x028, 0x02C, 0x030, 0x034, 0x038] ∨
    (0x400 ≤ off ∧ off ≤ 0x804 ∧ width ≠ 1) ∨ (0x044 ≤ off ∧ off ≤ 0x3FF) ∨ 0x805 ≤ off)

/-- R49, first clause: a read that answers changes no register, no FBUF byte and nothing of the probe engine; only the
host's record of answers grows (log 10), irq is evaluated (R167) and the step counted (log 11). -/
def Obligations.ReadsHaveNoSideEffect : Prop :=
  ∀ addr width s t, eventStep (.busRead addr width) s = .next t →
    ∃ l, t = { s with replies := s.replies ++ l, irq := (s.irqPend &&& s.irqEn != 0), stepNo := s.stepNo + 1 }

/-- R45 and R46, for every index of FBUF: a byte write stores the low byte and marks it written, every other byte reads as
before; a byte read gives the byte zero-extended, or the model fault UnwrittenRead where nothing was written. -/
def Obligations.FbufBytesReadBack : Prop :=
  ∀ (i : Nat) (v : Word) (s : State), i < 1029 →
  (∃ m, writeOffset (0x400 + i) 1 v s = .next { s with fbuf := m } ∧ m.read i = some (v.extractLsb' 0 8) ∧
    ∀ j, j ≠ i → m.read j = s.fbuf.read j) ∧
  (∀ b, s.fbuf.read i = some b → readData (0x400 + i) 1 s = .ok (b.setWidth 32)) ∧
  (s.fbuf.read i = none → readData (0x400 + i) 1 s = .error (.unwrittenRead i))

/-! ### Trailer engine -/

/-- R105 and R106: CRC_INIT and CRC_BYTE write CRC only, stream to crc16, and refuse a nonzero reserved bit. -/
def Obligations.CrcCommandsStreamTheCrc : Prop :=
  (∀ s, exec .crcInit s = .next { s with crc := 0 }) ∧
  (∀ b s, exec (.crcByte b) s = .next { s with crc := crcStep s.crc b }) ∧
  (∀ (p : List Byte) (s : State), execAll (.crcInit :: p.map .crcByte) s = .next { s with crc := crc16 p }) ∧
  (∀ (w : Word) s, w.toNat / 2 ^ 24 = 0x01 → w.toNat % 2 ^ 24 ≠ 0 → runCommand w s = .next (cmdErrorState .illegal s)) ∧
  (∀ (w : Word) s, w.toNat / 2 ^ 24 = 0x02 → w.toNat / 2 ^ 8 % 2 ^ 16 ≠ 0 →
    runCommand w s = .next (cmdErrorState .illegal s))

/-- R107 and R108: SUM_INIT and SUM_BYTE write SUM only, the wrap is silent, they stream to sum8, and refuse a nonzero
reserved bit. -/
def Obligations.SumCommandsStreamTheSum : Prop :=
  (∀ s, exec .sumInit s = .next { s with sum := 0 }) ∧
  (∀ b s, exec (.sumByte b) s = .next { s with sum := BitVec.ofNat 8 ((s.sum.toNat + b.toNat) % 256) }) ∧
  (∀ (p : List Byte) (s : State), execAll (.sumInit :: p.map .sumByte) s = .next { s with sum := sum8 p }) ∧
  (∀ (w : Word) s, w.toNat / 2 ^ 24 = 0x03 → w.toNat % 2 ^ 24 ≠ 0 → runCommand w s = .next (cmdErrorState .illegal s)) ∧
  (∀ (w : Word) s, w.toNat / 2 ^ 24 = 0x04 → w.toNat / 2 ^ 8 % 2 ^ 16 ≠ 0 →
    runCommand w s = .next (cmdErrorState .illegal s))

/-- R102's five properties of crc16. -/
def Obligations.CrcProperties : Prop :=
  crc16 [] = 0x0000 ∧
  (∀ (n : Nat) (p : List Byte), crc16 (List.replicate n 0x00) = 0x0000 ∧
    crc16 (List.replicate n 0x00 ++ p) = crc16 p) ∧
  (∀ p : List Byte, crc16 (p ++ [(crc16 p).extractLsb' 8 8, (crc16 p).extractLsb' 0 8]) = 0x0000) ∧
  (∀ p q : List Byte, crc16 (p ++ q) = q.foldl crcStep (crc16 p)) ∧
  crc16 [0x31, 0x32, 0x33, 0x34, 0x35, 0x36, 0x37, 0x38, 0x39] = 0x31C3

open Polynomial in
/-- R101's remark: the CRC is the remainder of the message's bits, most significant first, times x^16 by
x^16 + x^12 + x^5 + 1 over the two-element field. The spec marks the remark as general knowledge (G5), as it does the
bit-serial algorithm itself (G4, log 14). -/
def Obligations.CrcIsThePolynomialRemainder : Prop :=
  ∀ p : List Byte,
    (∑ i ∈ Finset.range 16, if (crc16 p).getLsbD i then (X : (ZMod 2)[X]) ^ i else 0) =
      (p.foldl (fun (acc : (ZMod 2)[X]) (b : Byte) =>
        acc * X ^ 8 + ∑ i ∈ Finset.range 8, if b.getLsbD i then X ^ i else 0) 0 * X ^ 16) %ₘ
        (X ^ 16 + X ^ 12 + X ^ 5 + 1)

/-- R103: the exact sum mod 256, equivalently an 8-bit accumulator from 0 that wraps. -/
def Obligations.SumIsTheByteSumModulo256 : Prop :=
  sum8 [] = 0 ∧
  ∀ p : List Byte, (sum8 p).toNat = (p.map BitVec.toNat).sum % 256 ∧ sum8 p = p.foldl (· + ·) 0

/-- R109: the codec commands neither read nor write CRC and SUM; the accumulator commands change nothing else and read
nothing else. -/
def Obligations.AccumulatorsAndCodecAreIndependent : Prop :=
  (∀ (i : Instr) (s : State) (c : Half) (d : Byte), i = .decode ∨ i = .strip ∨ (∃ seq k, i = .encode seq k) →
    exec i { s with crc := c, sum := d } =
      match exec i s with
      | .next t => .next { t with crc := c, sum := d }
      | .fault f => .fault f
      | .refused r => .refused r) ∧
  (∀ (i : Instr) (s t : State), i = .decode ∨ i = .strip ∨ (∃ seq k, i = .encode seq k) → exec i s = .next t →
    t.crc = s.crc ∧ t.sum = s.sum) ∧
  (∀ (i : Instr), i = .crcInit ∨ i = .sumInit ∨ (∃ b, i = .crcByte b) ∨ (∃ b, i = .sumByte b) →
    ∃ f : Half × Byte → Half × Byte, ∀ s, exec i s =
      .next { s with crc := (f (s.crc, s.sum)).1, sum := (f (s.crc, s.sum)).2 })

/-! ### Frame codec -/

/-- R80: what ENCODE builds, byte by byte, what it leaves, and where it is refused or faults. -/
def Obligations.EncodeBuildsTheFrame : Prop :=
  (∀ (s : State) (seq : Byte) (k : BitVec 11) (p : List Byte), k.toNat ≤ payloadLen s → p.length = k.toNat →
    holdsBytes s.fbuf 3 p →
    let payload := p ++ List.replicate (payloadLen s - k.toNat) 0x1A
    ∃ m, exec (.encode seq k) s =
        .next { s with fbuf := m, flen := BitVec.ofNat 11 (3 + payloadLen s + trailerLen s) } ∧
      holdsBytes m 0
        ([if s.cfg0.bsize = .b1024 then 0x02 else 0x01, seq, 0xFF - seq] ++ payload ++
          (if s.mode = .crc16 then [(crc16 payload).extractLsb' 8 8, (crc16 payload).extractLsb' 0 8]
            else [sum8 payload])) ∧
      ∀ a, 3 + payloadLen s + trailerLen s ≤ a → m.read a = s.fbuf.read a) ∧
  (∀ (s : State) (seq : Byte) (k : BitVec 11), payloadLen s < k.toNat →
    exec (.encode seq k) s = .next (cmdErrorState .range s)) ∧
  (∀ (s : State) (seq : Byte) (k : BitVec 11) (j : Nat), k.toNat ≤ payloadLen s → j < k.toNat →
    (∀ i < j, s.fbuf.read (3 + i) ≠ none) → s.fbuf.read (3 + j) = none →
    exec (.encode seq k) s = .fault (.unwrittenRead (3 + j))) ∧
  (∀ (w : Word) s, w.toNat / 2 ^ 24 = 0x10 → w.toNat / 2 ^ 19 % 2 ^ 5 ≠ 0 →
    runCommand w s = .next (cmdErrorState .illegal s))

/-- R81: equal inputs give bit-identical frames, and a repeated ENCODE gives the frame again. -/
def Obligations.EncodeIsRepeatable : Prop :=
  (∀ (s s' t t' : State) (seq : Byte) (k : BitVec 11), k.toNat ≤ payloadLen s → s.cfg0.bsize = s'.cfg0.bsize →
    s.mode = s'.mode → (∀ j < k.toNat, s.fbuf.read (3 + j) = s'.fbuf.read (3 + j)) →
    exec (.encode seq k) s = .next t → exec (.encode seq k) s' = .next t' →
    t.flen = t'.flen ∧ ∀ a < t.flen.toNat, t.fbuf.read a = t'.fbuf.read a) ∧
  (∀ (s t : State) (seq : Byte) (k : BitVec 11), k.toNat ≤ payloadLen s → exec (.encode seq k) s = .next t →
    ∃ u, exec (.encode seq k) t = .next u ∧ u.flen = t.flen ∧ ∀ a < t.flen.toNat, u.fbuf.read a = t.fbuf.read a)

/-- R82's NOT_FRAME: an empty frame, or a control byte that is not accepted; TRIES is left. -/
def Obligations.DecodeAnswersNotFrame : Prop :=
  (∀ s, s.flen = 0 → exec .decode s = .next { s with
    dstat := { result := .notFrame, action := .ignore, trailerOk := false, seq := 0, cseq := 0, ctrl := 0 }
    dtrl := { received := 0, computed := 0 } }) ∧
  (∀ s c, s.flen ≠ 0 → s.fbuf.read 0 = some c → ¬ acceptedControl c s → exec .decode s = .next { s with
    dstat := { result := .notFrame, action := .ignore, trailerOk := false, seq := 0, cseq := 0, ctrl := c }
    dtrl := { received := 0, computed := 0 } })

/-- R82's INTEGRITY and SIZE: a header cut short, a complement that does not sum to 0xFF, a length other than
3 + B + T, in R83's order. -/
def Obligations.DecodeRejectsHeaderAndLength : Prop :=
  (∀ s c, s.flen ≠ 0 → s.flen.toNat < 3 → s.fbuf.read 0 = some c → acceptedControl c s →
    exec .decode s = .next { s with
      dstat := { result := .integrity, action := nakAction s, trailerOk := false, seq := 0, cseq := 0, ctrl := c }
      dtrl := { received := 0, computed := 0 }
      tries := nextTries s }) ∧
  (∀ s c q r, HeaderHeld s c q r → q.toNat + r.toNat ≠ 0xFF →
    exec .decode s = .next { s with
      dstat := { result := .integrity, action := nakAction s, trailerOk := false, seq := q, cseq := r, ctrl := c }
      dtrl := { received := 0, computed := 0 }
      tries := nextTries s }) ∧
  (∀ s c q r, HeaderHeld s c q r → q.toNat + r.toNat = 0xFF → s.flen.toNat ≠ 3 + payloadLen s + trailerLen s →
    exec .decode s = .next { s with
      dstat := { result := .size, action := nakAction s, trailerOk := false, seq := q, cseq := r, ctrl := c }
      dtrl := { received := 0, computed := 0 }
      tries := nextTries s })

/-- R85: a sequence number other than EXPSEQ gives SYNC, with DROP by default and the rejected frame's answer under
SYNC_NAK; TRIES is counted either way, and nothing else moves. -/
def Obligations.DecodeAnswersSequenceMismatch : Prop :=
  ∀ s c q r, HeaderHeld s c q r → q.toNat + r.toNat = 0xFF → s.flen.toNat = 3 + payloadLen s + trailerLen s →
    q ≠ s.expseq →
    exec .decode s = .next { s with
      dstat := { result := .sync, action := if s.cfg0.syncNak = true then nakAction s else .drop, trailerOk := false,
                 seq := q, cseq := r, ctrl := c }
      dtrl := { received := 0, computed := 0 }
      tries := nextTries s }

/-- R82's last stage: the trailer computed over the payload and the received one; OK with ACK and TRIES 0, or TRAILER
only when they differ and TRAILER_CHECK = 1. -/
def Obligations.DecodeJudgesTheTrailer : Prop :=
  ∀ s c q r p hi lo, HeaderHeld s c q r → q.toNat + r.toNat = 0xFF → s.flen.toNat = 3 + payloadLen s + trailerLen s →
    q = s.expseq → p.length = payloadLen s → holdsBytes s.fbuf 3 p → s.fbuf.read (3 + payloadLen s) = some hi →
    (s.mode = .crc16 → s.fbuf.read (4 + payloadLen s) = some lo) →
    let comp : Half := if s.mode = .crc16 then crc16 p else (sum8 p).setWidth 16
    let recv : Half := if s.mode = .crc16 then hi ++ lo else hi.setWidth 16
    exec .decode s = .next { s with
      dstat := { result := if comp ≠ recv ∧ s.cfg0.trailerCheck = true then .trailer else .ok
                 action := if comp ≠ recv ∧ s.cfg0.trailerCheck = true then nakAction s else .ack
                 trailerOk := decide (comp = recv), seq := q, cseq := r, ctrl := c }
      dtrl := { received := recv, computed := comp }
      tries := if comp ≠ recv ∧ s.cfg0.trailerCheck = true then nextTries s else 0 }

/-- R46 for DECODE: it completes when the FLEN bytes are written, and faults only on an unwritten byte of the frame. -/
def Obligations.DecodeFaultsOnlyOnUnwrittenBytes : Prop :=
  (∀ s : State, (∀ i < s.flen.toNat, s.fbuf.read i ≠ none) → ∃ t, exec .decode s = .next t) ∧
  (∀ s f, exec .decode s = .fault f → ∃ i, f = .unwrittenRead i ∧ i < s.flen.toNat ∧ s.fbuf.read i = none) ∧
  (∀ s r, exec .decode s ≠ .refused r)

/-- R86 and R84: TRIES counts every verdict but NOT_FRAME, saturating, and OK clears it; a rejected frame, SYNC under
SYNC_NAK included, is answered NAK while the count made for it is within MAX_ERRORS, and SILENT once it is beyond. -/
def Obligations.TriesCountsFramesAndBoundsNaks : Prop :=
  ∀ s t, exec .decode s = .next t →
    (t.tries.toNat =
      match t.dstat.result with
      | .notFrame => s.tries.toNat
      | .ok => 0
      | .none | .integrity | .size | .sync | .trailer => min (s.tries.toNat + 1) 0xFFFF) ∧
    (t.dstat.result ∈ [DecodeResult.integrity, .size, .trailer] ∨
        (t.dstat.result = .sync ∧ s.cfg0.syncNak = true) →
      (t.tries.toNat ≤ s.cfg1.maxErrors.toNat → t.dstat.action = .nak) ∧
      (s.cfg1.maxErrors.toNat < t.tries.toNat → t.dstat.action = .silent))

/-- R87: the fields of DSTAT and DTRL a DECODE sets, and 0 in the others. -/
def Obligations.DecodeSetsOnlyReachedFields : Prop :=
  ∀ s t, exec .decode s = .next t →
    t.dstat.result ≠ .none ∧ t.dstat.action ≠ .none ∧
    (s.flen = 0 → t.dstat.ctrl = 0) ∧ (s.flen ≠ 0 → s.fbuf.read 0 = some t.dstat.ctrl) ∧
    (3 ≤ s.flen.toNat ∧ acceptedControl t.dstat.ctrl s →
      s.fbuf.read 1 = some t.dstat.seq ∧ s.fbuf.read 2 = some t.dstat.cseq) ∧
    (¬ (3 ≤ s.flen.toNat ∧ acceptedControl t.dstat.ctrl s) → t.dstat.seq = 0 ∧ t.dstat.cseq = 0) ∧
    (t.dstat.result ∈ [DecodeResult.ok, .trailer] →
      t.dstat.trailerOk = decide (t.dtrl.computed = t.dtrl.received)) ∧
    (t.dstat.result ∉ [DecodeResult.ok, .trailer] →
      t.dtrl = { received := 0, computed := 0 } ∧ t.dstat.trailerOk = false)

/-- "Written" of R80, R82 and R89: what a codec command leaves unchanged, every FBUF byte included but those ENCODE
stores: FBUF[0..3] and FBUF[3+k..3+B+T]. -/
def Obligations.CodecCommandsKeepTheRest : Prop :=
  (∀ s t, exec .decode s = .next t → t = { s with dstat := t.dstat, dtrl := t.dtrl, tries := t.tries }) ∧
  (∀ s t, exec .strip s = .next t → t = { s with plen := t.plen }) ∧
  (∀ (s t : State) (seq : Byte) (k : BitVec 11), k.toNat ≤ payloadLen s → exec (.encode seq k) s = .next t →
    t = { s with fbuf := t.fbuf, flen := t.flen } ∧
    ∀ a, ¬ a < 3 → ¬ (3 + k.toNat ≤ a ∧ a < 3 + payloadLen s + trailerLen s) → t.fbuf.read a = s.fbuf.read a)

/-- R88: the round-trip law, for every sequence number, payload and mode, and for both block sizes under R88's
condition on the control byte. -/
def Obligations.EncodeThenDecodeRoundTrips : Prop :=
  ∀ (s : State) (seq : Byte) (p : List Byte), p.length = payloadLen s → holdsBytes s.fbuf 3 p →
    (s.cfg0.bsize = .b128 ∨ s.cfg0.acceptStx = true) →
    ∃ t u, exec (.encode seq (BitVec.ofNat 11 (payloadLen s))) s = .next t ∧
      exec .decode { t with expseq := seq } = .next u ∧
      u.dstat.result = .ok ∧ u.dstat.action = .ack ∧ u.dstat.trailerOk = true ∧ u.dstat.seq = seq ∧
      holdsBytes u.fbuf 3 p ∧ u.tries = 0

/-- R89: PLEN is the length of the payload without its trailing filler, found from the end; the first unwritten byte the
scan reaches faults; a nonzero reserved bit is refused. -/
def Obligations.StripDropsTrailingFiller : Prop :=
  (∀ (s : State) (l : Nat), l ≤ payloadLen s → (∀ j, l ≤ j → j < payloadLen s → s.fbuf.read (3 + j) = some 0x1A) →
    (l = 0 ∨ ∃ l' b, l = l' + 1 ∧ s.fbuf.read (3 + l') = some b ∧ b ≠ 0x1A) →
    exec .strip s = .next { s with plen := BitVec.ofNat 11 l }) ∧
  (∀ (s : State) (l : Nat), l < payloadLen s → (∀ j, l < j → j < payloadLen s → s.fbuf.read (3 + j) = some 0x1A) →
    s.fbuf.read (3 + l) = none → exec .strip s = .fault (.unwrittenRead (3 + l))) ∧
  (∀ (w : Word) s, w.toNat / 2 ^ 24 = 0x12 → w.toNat % 2 ^ 24 ≠ 0 → runCommand w s = .next (cmdErrorState .illegal s))

/-! ### Negotiation -/

/-- R122 and R123, for every value of the three parameters that R70 allows, and for the default values. -/
def Obligations.ClassifyStoresTheClass : Prop :=
  (∀ (s : State) (b : Byte), paramsWf s.params = true →
    ∃ c, exec (.classify b) s = .next { s with cls := c } ∧
      ((byteClassCode c).toNat = 1 ↔ b = 0x01) ∧ ((byteClassCode c).toNat = 2 ↔ b = 0x02) ∧
      ((byteClassCode c).toNat = 3 ↔ b = s.params.eot) ∧ ((byteClassCode c).toNat = 4 ↔ b = s.params.ack) ∧
      ((byteClassCode c).toNat = 5 ↔ b = s.params.nak) ∧ ((byteClassCode c).toNat = 6 ↔ b = 0x43) ∧
      (byteClassCode c).toNat ≤ 6) ∧
  (∀ s : State, s.params.eot = 0x04 → s.params.ack = 0x06 → s.params.nak = 0x15 →
    exec (.classify 0x04) s = .next { s with cls := .eot } ∧ exec (.classify 0x06) s = .next { s with cls := .ack } ∧
    exec (.classify 0x15) s = .next { s with cls := .nak } ∧ exec (.classify 0x1A) s = .next { s with cls := .other }) ∧
  (∀ (w : Word) s, w.toNat / 2 ^ 24 = 0x20 → w.toNat / 2 ^ 8 % 2 ^ 16 ≠ 0 →
    runCommand w s = .next (cmdErrorState .illegal s))

/-- R130: MODESEL refused outside IDLE; 'C' or NAK selects and locks the mode of an unlocked session; otherwise only
CLASS and MSEL_HIT change. -/
def Obligations.ModeselSelectsOnce : Prop :=
  (∀ s b, s.pstate ≠ .idle → exec (.modesel b) s = .next (cmdErrorState .state s)) ∧
  (∀ s, s.pstate = .idle → s.mlock = false → exec (.modesel 0x43) s = .next { s with
    cls := classifyByte s.params 0x43, mode := .crc16, mlock := true, mselHit := true,
    irqPend := s.irqPend ||| 0b0001 }) ∧
  (∀ s, paramsWf s.params = true → s.pstate = .idle → s.mlock = false →
    exec (.modesel s.params.nak) s = .next { s with
      cls := classifyByte s.params s.params.nak, mode := .checksum, mlock := true, mselHit := true,
      irqPend := s.irqPend ||| 0b0001 }) ∧
  (∀ s b, s.pstate = .idle → (s.mlock = true ∨ (b ≠ 0x43 ∧ b ≠ s.params.nak)) →
    exec (.modesel b) s = .next { s with cls := classifyByte s.params b, mselHit := false }) ∧
  (∀ (w : Word) s, w.toNat / 2 ^ 24 = 0x21 → w.toNat / 2 ^ 8 % 2 ^ 16 ≠ 0 →
    runCommand w s = .next (cmdErrorState .illegal s))

/-- R124: when PROBE_START is refused, and everything it writes when it is not, the NAK budget exact in 18 bits. -/
def Obligations.ProbeStartLatchesAndStarts : Prop :=
  (∀ s, s.pstate ≠ .idle ∨ s.mlock = true → exec .probeStart s = .next (cmdErrorState .state s)) ∧
  (∀ s, s.pstate = .idle → s.mlock = false → ∃ c n,
    exec .probeStart s = .next { s with
      clat := c, nlat := n, ilat := s.intervalMs, crcn := 0, nakn := 0, ptick := 0
      pstate := if s.cfg0.modePref = .crc16 ∧ 2 ≤ s.cfg1.crcAttempts.toNat then .crc else .nak
      mode := if s.cfg0.modePref = .crc16 ∧ 2 ≤ s.cfg1.crcAttempts.toNat then .crc16 else .checksum } ∧
    c.toNat = s.cfg1.crcAttempts.toNat - 1 ∧
    n.toNat = s.cfg1.maxErrors.toNat * s.cfg1.timeoutS.toNat * 3) ∧
  (∀ (w : Word) s, w.toNat / 2 ^ 24 = 0x30 → w.toNat % 2 ^ 24 ≠ 0 → runCommand w s = .next (cmdErrorState .illegal s))

/-- R129: PROBE_CANCEL stops a running probe, keeps MODE, MLOCK and PCNT, and is otherwise a no-op; twice is as once. -/
def Obligations.ProbeCancelIsIdempotent : Prop :=
  (∀ s, s.pstate = .crc ∨ s.pstate = .nak → exec .probeCancel s = .next { s with pstate := .idle, ptick := 0 }) ∧
  (∀ s, s.pstate ≠ .crc → s.pstate ≠ .nak → exec .probeCancel s = .next s) ∧
  (∀ s t, exec .probeCancel s = .next t → exec .probeCancel t = .next t) ∧
  (∀ (w : Word) s, w.toNat / 2 ^ 24 = 0x31 → w.toNat % 2 ^ 24 ≠ 0 → runCommand w s = .next (cmdErrorState .illegal s))

/-- R126 and R127: one tick outside CRC and NAK, between interval events, and at one. In a state no run reaches, with
PTICK not below ILAT, PTICK + 1 wraps at its width: the model's choice, log 15. A Tx record carries the step's number
(log 11). -/
def Obligations.TickAndIntervalEvent : Prop :=
  (∀ s, s.pstate ≠ .crc → s.pstate ≠ .nak → tickEvent s = s) ∧
  (∀ s, probing s = true → s.ptick.toNat + 1 ≠ s.ilat.toNat → tickEvent s = { s with ptick := s.ptick + 1 }) ∧
  (∀ s, s.pstate = .crc → s.ptick.toNat + 1 = s.ilat.toNat → s.crcn.toNat < s.clat.toNat →
    tickEvent s = { s with
      ptick := 0, crcn := s.crcn + 1, irqPend := s.irqPend ||| 0b1000
      txHistory := s.txHistory ++ [{ step := s.stepNo, byte := 0x43 }] }) ∧
  (∀ s, intervalDue s → ¬ (s.pstate = .crc ∧ s.crcn.toNat < s.clat.toNat) → s.nakn.toNat < s.nlat.toNat →
    tickEvent s = { s with
      ptick := 0, pstate := .nak, mode := if s.pstate = .crc then .checksum else s.mode, nakn := s.nakn + 1
      irqPend := s.irqPend ||| 0b1000
      txHistory := s.txHistory ++ [{ step := s.stepNo, byte := s.params.nak }] }) ∧
  (∀ s, intervalDue s → ¬ (s.pstate = .crc ∧ s.crcn.toNat < s.clat.toNat) → ¬ s.nakn.toNat < s.nlat.toNat →
    tickEvent s = { s with
      ptick := 0, pstate := .failed, mode := if s.pstate = .crc then .checksum else s.mode
      irqPend := s.irqPend ||| 0b0010 })

/-- R128: an inbound SOH or STX during CRC or NAK ends probing and locks the mode as it is, whatever ACCEPT_STX is; any
other byte, or any byte in another state, has no effect. -/
def Obligations.SnoopEndsProbing : Prop :=
  (∀ s b, probing s = true → b = 0x01 ∨ b = 0x02 →
    rxEvent b s = { s with pstate := .done, mlock := true, ptick := 0, irqPend := s.irqPend ||| 0b0001 }) ∧
  (∀ s b, probing s = false ∨ (b ≠ 0x01 ∧ b ≠ 0x02) → rxEvent b s = s)

/-- R125: the running probe never reads CFG1 or CFG2; writes of them are stored and leave the latches; no command but
PROBE_START writes a latch (R36), and no event but PROBE_START and reset (R180) changes one. -/
def Obligations.RunningProbeReadsItsLatches : Prop :=
  (∀ (s : State) (c : Cfg1) (x : BitVec 16) (b : Byte),
    tickEvent { s with cfg1 := c, intervalMs := x } = { tickEvent s with cfg1 := c, intervalMs := x } ∧
    rxEvent b { s with cfg1 := c, intervalMs := x } = { rxEvent b s with cfg1 := c, intervalMs := x }) ∧
  (∀ (s : State) (v : Word), (∃ c, writeOffset 0x00C 4 v s = .next { s with cfg1 := c }) ∧
    ∃ x, writeOffset 0x010 4 v s = .next { s with intervalMs := x }) ∧
  (∀ (s t : State) (i : Instr), exec i s = .next t → i ≠ .probeStart →
    t.clat = s.clat ∧ t.nlat = s.nlat ∧ t.ilat = s.ilat) ∧
  (∀ e s t, eventStep e s = .next t → t.clat ≠ s.clat ∨ t.nlat ≠ s.nlat ∨ t.ilat ≠ s.ilat →
    commandOf e s = some .probeStart ∨ e = .reset)

/-- R120: every change of PSTATE is one of the table's rows, with the row's event, condition and effect. -/
def Obligations.ProbeStateTransitions : Prop :=
  ∀ e s t, eventStep e s = .next t → t.pstate ≠ s.pstate →
    (s.pstate = .idle ∧ commandOf e s = some .probeStart ∧
      ((s.cfg0.modePref = .crc16 ∧ 2 ≤ s.cfg1.crcAttempts.toNat ∧ t.pstate = .crc ∧ t.mode = .crc16) ∨
        (¬ (s.cfg0.modePref = .crc16 ∧ 2 ≤ s.cfg1.crcAttempts.toNat) ∧ t.pstate = .nak ∧ t.mode = .checksum))) ∨
    (s.pstate = .crc ∧ e = .tick ∧ s.ptick.toNat + 1 = s.ilat.toNat ∧ s.clat.toNat ≤ s.crcn.toNat ∧
      t.mode = .checksum ∧
      ((s.nakn.toNat < s.nlat.toNat ∧ t.pstate = .nak ∧
          t.txHistory = s.txHistory ++ [{ step := s.stepNo, byte := s.params.nak }]) ∨
        (s.nlat.toNat ≤ s.nakn.toNat ∧ t.pstate = .failed ∧ t.txHistory = s.txHistory))) ∨
    (s.pstate = .nak ∧ e = .tick ∧ s.ptick.toNat + 1 = s.ilat.toNat ∧ s.nlat.toNat ≤ s.nakn.toNat ∧
      t.pstate = .failed ∧ t.txHistory = s.txHistory) ∨
    (probing s = true ∧ (e = .rx 0x01 ∨ e = .rx 0x02) ∧ t.pstate = .done ∧ t.mlock = true) ∨
    (probing s = true ∧ commandOf e s = some .probeCancel ∧ t.pstate = .idle) ∨
    (commandOf e s = some .sessInit ∧ t.pstate = .idle) ∨
    (e = .reset ∧ t.pstate = .idle)

/-- R121: only interval events transmit, one byte 'C' or NAK at the step's number, and PROBE_TX is set with it. -/
def Obligations.OnlyIntervalEventsTransmit : Prop :=
  ∀ e s t, eventStep e s = .next t → t.txHistory ≠ s.txHistory →
    e = .tick ∧ intervalDue s ∧
    (∃ b, (b = 0x43 ∨ b = s.params.nak) ∧ t.txHistory = s.txHistory ++ [{ step := s.stepNo, byte := b }]) ∧
    isPending .probeTx t = true

/-- R131: the whole negotiation timeline, at every number of ticks after a PROBE_START, for every C, N and I: the probes
sent and their ticks, the counts, the mode, the phase and the failure. The waiting list and the step numbers are the
model's choice (logs 1 and 11). -/
def Obligations.NegotiationTimeline : Prop :=
  ∀ (s : State) (n : Nat) (rest : List Event), Invariant s → probing s = true → s.crcn = 0 → s.nakn = 0 → s.ptick = 0 →
    s.inbox = List.replicate n .tick ++ rest →
    let C := if s.pstate = .crc then s.clat.toNat else 0
    let N := s.nlat.toNat
    let I := s.ilat.toNat
    let q := n / I
    ∃ t : State, Sys2Proof.core.run n s = .next t ∧ t.inbox = rest ∧ t.stepNo = s.stepNo + n ∧
      t.pstate = (if s.pstate = .crc ∧ q ≤ C then .crc else if q ≤ C + N then .nak else .failed) ∧
      t.mode = (if s.pstate = .crc ∧ q ≤ C then .crc16 else .checksum) ∧
      t.crcn.toNat = min q C ∧ t.nakn.toNat = min (q - C) N ∧
      t.ptick.toNat = (if q ≤ C + N then n % I else 0) ∧
      t.txHistory = s.txHistory ++ (List.range (min q (C + N))).map (fun j =>
        { step := s.stepNo + (j + 1) * I - 1, byte := if j < C then 0x43 else s.params.nak }) ∧
      (isPending .negFail t = true ↔ isPending .negFail s = true ∨ C + N < q)

/-- R132: from a state that is not probing, no run without a PROBE_START transmits, whatever the events and their order. -/
def Obligations.NoProbeAfterCancellation : Prop :=
  ∀ (n : Nat) (s t : State), probing s = false → (∀ e ∈ s.inbox.take n, commandOf e s ≠ some .probeStart) →
    Sys2Proof.core.run n s = .next t → t.txHistory = s.txHistory ∧ probing t = false

/-- R16: along every run without SESS_INIT and reset a locked mode stays locked and as it is, and meanwhile PROBE_START is
refused; an unlocked mode is locked by exactly a MODESEL that selects and a snoop that ends probing. -/
def Obligations.LockedModeStaysForTheSession : Prop :=
  (∀ (n : Nat) (s t : State), Invariant s → s.mlock = true →
    (∀ e ∈ s.inbox.take n, commandOf e s ≠ some .sessInit ∧ e ≠ .reset) →
    Sys2Proof.core.run n s = .next t → t.mlock = true ∧ t.mode = s.mode) ∧
  (∀ s, s.mlock = true → exec .probeStart s = .next (cmdErrorState .state s)) ∧
  (∀ e s t, eventStep e s = .next t → s.mlock = false → (t.mlock = true ↔ irqCause .negDone e s))

/-- R133: DONE and FAILED last until SESS_INIT or reset; until then nothing is counted and nothing sent. -/
def Obligations.DoneAndFailedAreFinal : Prop :=
  ∀ (n : Nat) (s t : State), s.pstate = .done ∨ s.pstate = .failed →
    (∀ e ∈ s.inbox.take n, commandOf e s ≠ some .sessInit ∧ e ≠ .reset) →
    Sys2Proof.core.run n s = .next t →
    t.pstate = s.pstate ∧ t.mode = s.mode ∧ t.mlock = s.mlock ∧ t.ptick = s.ptick ∧ t.crcn = s.crcn ∧ t.nakn = s.nakn ∧
    t.txHistory = s.txHistory

/-! ### Control, errors and interrupts -/

/-- R151: NOP has no effect, and its one word is zero. -/
def Obligations.NopChangesNothing : Prop :=
  (∀ s, exec .nop s = .next s) ∧ (∀ s, runCommand 0 s = .next s) ∧
  ∀ (w : Word) s, w.toNat / 2 ^ 24 = 0x00 → w.toNat % 2 ^ 24 ≠ 0 → runCommand w s = .next (cmdErrorState .illegal s)

/-- R152: SESS_INIT's writes, everything else kept, in every state; after it PROBE_START and MODESEL are not refused. -/
def Obligations.SessInitStartsASession : Prop :=
  (∀ s, exec .sessInit s = .next { s with
    mode := s.cfg0.modePref, mlock := false, pstate := .idle, cls := .other, mselHit := false, crcn := 0, nakn := 0,
    ptick := 0, expseq := s.cfg0.startSeq, tries := 0,
    dstat := { result := .none, action := .none, trailerOk := false, seq := 0, cseq := 0, ctrl := 0 },
    dtrl := { received := 0, computed := 0 }, plen := 0 }) ∧
  (∀ s t, exec .sessInit s = .next t → commandRefusal .probeStart t = none ∧ ∀ b, commandRefusal (.modesel b) t = none) ∧
  (∀ (w : Word) s, w.toNat / 2 ^ 24 = 0x3F → w.toNat % 2 ^ 24 ≠ 0 → runCommand w s = .next (cmdErrorState .illegal s))

/-- R162 and R163: which words are refused, with which code, ILLEGAL first; a refused command changes ERRCODE and CMDERR
and nothing else, and any other command that goes on leaves both (R19). -/
def Obligations.RefusalsArePreciseAndExact : Prop :=
  (∀ w s c, wordRefusal w s = some c → runCommand w s = .next (cmdErrorState c s)) ∧
  (∀ w s t, wordRefusal w s = none → runCommand w s = .next t →
    t.errcode = s.errcode ∧ isPending .cmdErr t = isPending .cmdErr s) ∧
  (∀ w s, wordRefusal w s ≠ some .none ∧
    (wordRefusal w s = some .illegal ↔ ∃ x, decode w = .error x) ∧
    (wordRefusal w s = some .range → ∃ seq k, decode w = .ok (.encode seq k)) ∧
    (wordRefusal w s = some .state → decode w = .ok .probeStart ∨ ∃ b, decode w = .ok (.modesel b)))

/-- R166: each pending bit is set by exactly its causes, and a bit already set is not unset by them. -/
def Obligations.PendingBitsSetByTheirCauses : Prop :=
  ∀ b e s t, eventStep e s = .next t →
    (irqCause b e s → isPending b t = true) ∧
    (isPending b t = true → isPending b s = true ∨ irqCause b e s)

/-- R167: after every step irq is the level of the enabled pending bits; a pending bit is cleared only by the host
writing 1 to it or by reset, and SESS_INIT and IRQ_EN leave IRQ_PEND. -/
def Obligations.IrqLineIsALevel : Prop :=
  (∀ e s t, eventStep e s = .next t → t.irq = decide (t.irqPend &&& t.irqEn ≠ 0)) ∧
  (∀ b e s t, eventStep e s = .next t → isPending b s = true → isPending b t = false →
    e = .reset ∨ ∃ v, e = .busWrite (s.params.base + 0x03C) 4 v ∧ v.getLsbD (irqIndex b) = true) ∧
  (∀ s t, exec .sessInit s = .next t → t.irqPend = s.irqPend) ∧
  (∀ v s t, writeOffset 0x040 4 v s = .next t → t.irqPend = s.irqPend)
end

