-- ==== Sys2Proof/Laws/Memory.lean ====
section
/-! SUPPORT. The frame buffer's laws: a read after a write, the other indices, ranges, and the canonical form, kept by
every operation. -/

namespace Sys2Proof.Machine

@[simp] theorem Memory.read_nil (i : Nat) : Memory.read [] i = none := rfl

@[simp] theorem Memory.read_write_same (m : Memory) (i : Nat) (v : Byte) : (m.write i v).read i = some v := by
  induction m with
  | nil => simp [Memory.write, Memory.read]
  | cons c rest ih =>
    obtain ⟨a, b⟩ := c
    unfold Memory.write
    split
    · simp [Memory.read]
    · split
      · simp [Memory.read]
      · have : a ≠ i := by omega
        simpa [Memory.read, this] using ih

@[simp] theorem Memory.read_write_other (m : Memory) {i j : Nat} (v : Byte) (h : j ≠ i) :
    (m.write i v).read j = m.read j := by
  induction m with
  | nil => simp [Memory.write, Memory.read, h.symm]
  | cons c rest ih =>
    obtain ⟨a, b⟩ := c
    unfold Memory.write
    split
    · simp [Memory.read, h.symm]
    · split
      · next hi => subst hi; simp [Memory.read, h.symm]
      · simp [Memory.read, ih]

/-- A written index is the one written or was there before. -/
theorem Memory.mem_write {m : Memory} {i : Nat} {v : Byte} {c : Host.Cell} (h : c ∈ m.write i v) :
    c = (i, v) ∨ c ∈ m := by
  induction m with
  | nil => simpa [Memory.write] using h
  | cons d rest ih =>
    obtain ⟨a, b⟩ := d
    unfold Memory.write at h
    split at h
    · simpa using h
    · split at h
      · rcases List.mem_cons.mp h with h | h <;> simp [h]
      · rcases List.mem_cons.mp h with h | h
        · simp [h]
        · rcases ih h with h | h <;> simp [h]

theorem Memory.wf_iff (m : Memory) :
    m.wf = true ↔ m.Pairwise (fun x y => x.1 < y.1) ∧ ∀ c ∈ m, c.1 < fbufSize := by
  simp [Memory.wf]

@[simp] theorem Memory.wf_nil : Memory.wf [] = true := rfl

/-- A write inside FBUF keeps the canonical form. -/
theorem Memory.write_wf {m : Memory} {i : Nat} (v : Byte) (h : m.wf = true) (hi : i < fbufSize) :
    (m.write i v).wf = true := by
  rw [Memory.wf_iff] at h ⊢
  obtain ⟨hp, hb⟩ := h
  refine ⟨?_, fun c hc => ?_⟩
  · clear hb
    induction m with
    | nil => simp [Memory.write]
    | cons d rest ih =>
      obtain ⟨a, b⟩ := d
      rw [List.pairwise_cons] at hp
      unfold Memory.write
      split
      · next hlt =>
        rw [List.pairwise_cons, List.pairwise_cons]
        refine ⟨fun c hc => ?_, hp⟩
        rcases List.mem_cons.mp hc with rfl | hc
        · exact hlt
        · exact Nat.lt_trans hlt (hp.1 c hc)
      · split
        · next heq => subst heq; exact List.pairwise_cons.mpr hp
        · rw [List.pairwise_cons]
          refine ⟨fun c hc => ?_, ih hp.2⟩
          rcases Memory.mem_write hc with rfl | hc
          · show a < i
            omega
          · exact hp.1 c hc
  · rcases Memory.mem_write hc with rfl | hc
    · exact hi
    · exact hb c hc

/-! Ranges -/

@[simp] theorem fbufWriteBytes_nil (m : Memory) (start : Nat) : fbufWriteBytes m start [] = m := rfl

theorem fbufWriteBytes_read_outside (m : Memory) (start a : Nat) (bs : List Byte)
    (h : a < start ∨ start + bs.length ≤ a) : (fbufWriteBytes m start bs).read a = m.read a := by
  induction bs generalizing m start with
  | nil => rfl
  | cons b bs ih =>
    simp only [List.length_cons] at h
    rw [fbufWriteBytes, ih _ _ (by omega), Memory.read_write_other _ _ (by omega)]

theorem fbufWriteBytes_read_inside (m : Memory) (start j : Nat) (bs : List Byte) (h : j < bs.length) :
    (fbufWriteBytes m start bs).read (start + j) = some bs[j] := by
  induction bs generalizing m start j with
  | nil => simp at h
  | cons b bs ih =>
    cases j with
    | zero =>
      rw [fbufWriteBytes, fbufWriteBytes_read_outside _ _ _ _ (by omega)]
      simp
    | succ j =>
      have := ih (m.write start b) (start + 1) j (by simpa using h)
      rw [fbufWriteBytes, show start + (j + 1) = start + 1 + j by omega, this]
      simp

theorem fbufWriteBytes_wf {m : Memory} {start : Nat} {bs : List Byte} (h : m.wf = true)
    (hb : start + bs.length ≤ fbufSize) : (fbufWriteBytes m start bs).wf = true := by
  induction bs generalizing m start with
  | nil => exact h
  | cons b bs ih =>
    simp only [List.length_cons] at hb
    exact ih (Memory.write_wf b h (by omega)) (by omega)

theorem fbufRead_ok {m : Memory} {i : Nat} {b : Byte} : fbufRead m i = .ok b ↔ m.read i = some b := by
  unfold fbufRead
  split <;> simp_all

theorem fbufRead_error {m : Memory} {i : Nat} {f : Fault} :
    fbufRead m i = .error f ↔ m.read i = none ∧ f = .unwrittenRead i := by
  unfold fbufRead
  cases m.read i <;> simp [eq_comm]

/-- What a range read that answers has read. -/
theorem fbufReadBytes_ok {m : Memory} {start n : Nat} {bs : List Byte} :
    fbufReadBytes m start n = .ok bs ↔
      bs.length = n ∧ ∀ j (h : j < bs.length), m.read (start + j) = some bs[j] := by
  induction n generalizing start bs with
  | zero => cases bs <;> simp [fbufReadBytes]
  | succ n ih =>
    unfold fbufReadBytes
    cases hr : fbufRead m start with
    | error f =>
      obtain ⟨hn, -⟩ := fbufRead_error.mp hr
      simp only [reduceCtorEq, false_iff, not_and]
      intro hlen hall
      have := hall 0 (by omega)
      simp [hn] at this
    | ok b =>
      have hb := fbufRead_ok.mp hr
      cases hbs : fbufReadBytes m (start + 1) n with
      | error f =>
        simp only [reduceCtorEq, false_iff, not_and]
        intro hlen hall
        cases bs with
        | nil => simp at hlen
        | cons c cs =>
          have : fbufReadBytes m (start + 1) n = .ok cs := by
            refine ih.mpr ⟨by simpa using hlen, fun j hj => ?_⟩
            have := hall (j + 1) (by simpa using hj)
            rw [show start + 1 + j = start + (j + 1) by omega]
            simpa using this
          simp [hbs] at this
      | ok cs =>
        obtain ⟨hlen, hall⟩ := ih.mp hbs
        constructor
        · intro h
          obtain rfl : b :: cs = bs := by simpa using h
          refine ⟨by simp [hlen], fun j hj => ?_⟩
          cases j with
          | zero => simpa using hb
          | succ j =>
            have := hall j (by simpa using hj)
            rw [show start + (j + 1) = start + 1 + j by omega]
            simpa using this
        · rintro ⟨hlen', hall'⟩
          cases bs with
          | nil => simp at hlen'
          | cons d ds =>
            have h0 := hall' 0 (by simp)
            simp only [Nat.add_zero, hb, List.getElem_cons_zero, Option.some.injEq] at h0
            have : fbufReadBytes m (start + 1) n = .ok ds := by
              refine ih.mpr ⟨by simpa using hlen', fun j hj => ?_⟩
              have := hall' (j + 1) (by simpa using hj)
              rw [show start + 1 + j = start + (j + 1) by omega]
              simpa using this
            rw [hbs] at this
            simp_all

/-- Where a range read faults: at its first unwritten byte. -/
theorem fbufReadBytes_error {m : Memory} {start n : Nat} {f : Fault} :
    fbufReadBytes m start n = .error f ↔
      ∃ j, j < n ∧ m.read (start + j) = none ∧ (∀ i < j, m.read (start + i) ≠ none) ∧ f = .unwrittenRead (start + j) := by
  induction n generalizing start with
  | zero => simp [fbufReadBytes]
  | succ n ih =>
    unfold fbufReadBytes
    cases hr : fbufRead m start with
    | error g =>
      obtain ⟨hn, rfl⟩ := fbufRead_error.mp hr
      constructor
      · intro h
        exact ⟨0, by omega, by simpa using hn, by simp, by simpa [eq_comm] using h⟩
      · rintro ⟨j, -, -, hmin, rfl⟩
        cases j with
        | zero => simp
        | succ j => exact absurd hn (by simpa using hmin 0 (by omega))
    | ok b =>
      have hb := fbufRead_ok.mp hr
      have key : (∃ j, j < n ∧ m.read (start + 1 + j) = none ∧ (∀ i < j, m.read (start + 1 + i) ≠ none) ∧
          f = .unwrittenRead (start + 1 + j)) ↔
          ∃ j, j < n + 1 ∧ m.read (start + j) = none ∧ (∀ i < j, m.read (start + i) ≠ none) ∧
            f = .unwrittenRead (start + j) := by
        constructor
        · rintro ⟨j, hj, hn, hmin, hf⟩
          refine ⟨j + 1, by omega, by rwa [show start + (j + 1) = start + 1 + j by omega], fun i hi => ?_, ?_⟩
          · cases i with
            | zero => simp [hb]
            | succ i => rw [show start + (i + 1) = start + 1 + i by omega]; exact hmin i (by omega)
          · rwa [show start + (j + 1) = start + 1 + j by omega]
        · rintro ⟨j, hj, hn, hmin, hf⟩
          cases j with
          | zero => simp [hb] at hn
          | succ j =>
            refine ⟨j, by omega, by rwa [show start + 1 + j = start + (j + 1) by omega], fun i hi => ?_, ?_⟩
            · rw [show start + 1 + i = start + (i + 1) by omega]; exact hmin (i + 1) (by omega)
            · rwa [show start + 1 + j = start + (j + 1) by omega]
      rw [← key, ← ih]
      cases fbufReadBytes m (start + 1) n <;> simp

end Sys2Proof.Machine
end

