-- ==== Sys2Proof/Laws/Codec.lean ====
section
/-! SUPPORT. What the frame codec's operations can answer, said once each. -/

namespace Sys2Proof.Machine

theorem trailer_length (p : List Byte) (s : State) : (trailer p (trailerLen s)).length = trailerLen s := by
  cases h : s.mode <;> simp [trailer, trailerLen, h]

theorem trailerLen_pos (s : State) : 1 ≤ trailerLen s ∧ trailerLen s ≤ 2 := by
  cases h : s.mode <;> simp [trailerLen, h]

theorem payloadLen_cases (s : State) : payloadLen s = 128 ∨ payloadLen s = 1024 := by
  cases h : s.cfg0.bsize <;> simp [payloadLen, blockBytes, h]

theorem frameLen_le (s : State) : frameLen s ≤ fbufSize := by
  have := trailerLen_pos s
  rcases payloadLen_cases s with h | h <;> simp [frameLen, h, fbufSize] <;> omega

theorem controlByte_eq (s : State) : controlByte s = if s.cfg0.bsize = .b1024 then 0x02 else 0x01 := by
  cases h : s.cfg0.bsize <;> simp [controlByte, payloadLen, blockBytes, h, stx, soh]

/-- The buffer ENCODE reads the payload back from: filler after the loaded bytes, then the header. -/
theorem headed_read (s : State) (seq : Byte) (k j : Nat) (hk : k ≤ payloadLen s) (hj : j < payloadLen s) :
    (fbufWriteBytes (fbufWriteBytes s.fbuf (3 + k) (List.replicate (payloadLen s - k) filler)) 0
      [controlByte s, seq, 0xFF - seq]).read (3 + j) = if j < k then s.fbuf.read (3 + j) else some filler := by
  rw [fbufWriteBytes_read_outside _ _ _ _ (.inr (by simp))]
  split
  · rw [fbufWriteBytes_read_outside _ _ _ _ (by omega)]
  · have := fbufWriteBytes_read_inside s.fbuf (3 + k) (j - k) (List.replicate (payloadLen s - k) filler)
      (by simp; omega)
    rw [show 3 + j = 3 + k + (j - k) by omega, this]
    simp

/-- Everything ENCODE's buffer can be when it answers one (R80): the frame byte by byte, and the rest as before. -/
theorem encodedFbuf_ok {s : State} {seq : Byte} {k : Nat} {m : Memory} (hk : k ≤ payloadLen s)
    (h : encodedFbuf seq k s = .ok m) :
    ∃ p, p.length = payloadLen s ∧
      (∀ j (hj : j < p.length), (if j < k then s.fbuf.read (3 + j) else some filler) = some p[j]) ∧
      (∀ j (hj : j < p.length), m.read (3 + j) = some p[j]) ∧
      m.read 0 = some (controlByte s) ∧ m.read 1 = some seq ∧ m.read 2 = some (0xFF - seq) ∧
      (∀ j (hj : j < (trailer p (trailerLen s)).length),
        m.read (3 + payloadLen s + j) = some (trailer p (trailerLen s))[j]) ∧
      (∀ a, 3 + payloadLen s + trailerLen s ≤ a → m.read a = s.fbuf.read a) ∧
      (s.fbuf.wf = true → m.wf = true) := by
  unfold encodedFbuf at h
  extract_lets padded headed at h
  have hhead : ∀ j, j < payloadLen s → headed.read (3 + j) = if j < k then s.fbuf.read (3 + j) else some filler :=
    fun j hj => headed_read s seq k j hk hj
  split at h
  · cases h
  · next p hp =>
    obtain ⟨hlen, hall⟩ := fbufReadBytes_ok.mp hp
    obtain rfl : _ = m := by simpa using h
    have hB : 0 < payloadLen s := by rcases payloadLen_cases s with h | h <;> omega
    have hdr (i : Nat) (hi : i < 3) :
        (fbufWriteBytes headed (3 + payloadLen s) (trailer p (trailerLen s))).read i =
          some ([controlByte s, seq, 0xFF - seq][i]'(by simpa using hi)) := by
      rw [fbufWriteBytes_read_outside _ _ _ _ (by omega)]
      have := fbufWriteBytes_read_inside padded 0 i [controlByte s, seq, 0xFF - seq] (by simpa using hi)
      rwa [Nat.zero_add] at this
    refine ⟨p, hlen, fun j hj => ?_, fun j hj => ?_, hdr 0 (by omega), hdr 1 (by omega), hdr 2 (by omega),
      fun j hj => fbufWriteBytes_read_inside _ _ _ _ hj, fun a ha => ?_, fun hwf => ?_⟩
    · rw [← hhead j (by omega)]
      exact hall j hj
    · rw [fbufWriteBytes_read_outside _ _ _ _ (by omega)]
      exact hall j hj
    · have := trailer_length p s
      rw [fbufWriteBytes_read_outside _ _ _ _ (by omega), fbufWriteBytes_read_outside _ _ _ _ (by simp; omega),
        fbufWriteBytes_read_outside _ _ _ _ (by simp; omega)]
    · have hfl := frameLen_le s
      have := trailer_length p s
      simp only [frameLen, fbufSize] at hfl
      exact fbufWriteBytes_wf (fbufWriteBytes_wf (fbufWriteBytes_wf hwf (by simp [fbufSize]; omega))
        (by simp [fbufSize])) (by simp only [fbufSize]; omega)

/-- ENCODE's buffer faults exactly at the first unwritten loaded byte (R46). -/
theorem encodedFbuf_error {s : State} {seq : Byte} {k : Nat} {f : Fault} (hk : k ≤ payloadLen s) :
    encodedFbuf seq k s = .error f ↔
      ∃ j, j < k ∧ s.fbuf.read (3 + j) = none ∧ (∀ i < j, s.fbuf.read (3 + i) ≠ none) ∧ f = .unwrittenRead (3 + j) := by
  unfold encodedFbuf
  extract_lets padded headed
  have hhead : ∀ j, j < payloadLen s → headed.read (3 + j) = if j < k then s.fbuf.read (3 + j) else some filler :=
    fun j hj => headed_read s seq k j hk hj
  have key : fbufReadBytes headed 3 (payloadLen s) = .error f ↔
      ∃ j, j < k ∧ s.fbuf.read (3 + j) = none ∧ (∀ i < j, s.fbuf.read (3 + i) ≠ none) ∧ f = .unwrittenRead (3 + j) := by
    rw [fbufReadBytes_error]
    constructor
    · rintro ⟨j, hj, hn, hmin, rfl⟩
      rw [hhead j hj] at hn
      have hjk : j < k := by
        by_contra hge
        simp [hge] at hn
      refine ⟨j, hjk, by simpa [hjk] using hn, fun i hi => ?_, rfl⟩
      have := hmin i hi
      rw [hhead i (by omega)] at this
      simpa [show i < k by omega] using this
    · rintro ⟨j, hj, hn, hmin, rfl⟩
      refine ⟨j, by omega, by rw [hhead j (by omega)]; simpa [hj] using hn, fun i hi => ?_, rfl⟩
      rw [hhead i (by omega)]
      simpa [show i < k by omega] using hmin i hi
  rw [← key]
  cases fbufReadBytes headed 3 (payloadLen s) <;> simp

/-- Everything ENCODE can answer as a next state. -/
theorem execEncode_next {seq : Byte} {k : BitVec 11} {s t : State} (h : execEncode seq k s = .next t) :
    (payloadLen s < k.toNat ∧ t = raiseCmdError .range s) ∨
    (k.toNat ≤ payloadLen s ∧ ∃ m, encodedFbuf seq k.toNat s = .ok m ∧
      t = { s with fbuf := m, flen := BitVec.ofNat 11 (frameLen s) }) := by
  unfold execEncode at h
  split at h
  · exact .inl ⟨‹_›, by simpa using h.symm⟩
  · split at h
    · cases h
    · next m hm => exact .inr ⟨by omega, m, hm, by simpa using h.symm⟩

/-- ENCODE completes when its loaded bytes are written. -/
theorem execEncode_completes {s : State} (seq : Byte) {k : BitVec 11} (hk : k.toNat ≤ payloadLen s)
    (h : ∀ j < k.toNat, s.fbuf.read (3 + j) ≠ none) : ∃ t, execEncode seq k s = .next t := by
  unfold execEncode
  rw [if_neg (Nat.not_lt.mpr hk)]
  cases he : encodedFbuf seq k.toNat s with
  | ok m => exact ⟨_, rfl⟩
  | error f =>
    obtain ⟨j, hj, hn, -⟩ := (encodedFbuf_error hk).mp he
    exact absurd hn (h j hj)

theorem execDecode_next {s t : State} (h : execDecode s = .next t) :
    ∃ v, judge s = .ok v ∧ t = { s with dstat := v.dstat, dtrl := v.dtrl, tries := v.tries } := by
  unfold execDecode at h
  split at h
  · cases h
  · next v hv => exact ⟨v, hv, by simpa using h.symm⟩

theorem execStrip_next {s t : State} (h : execStrip s = .next t) :
    ∃ l, stripScan s.fbuf (payloadLen s) = .ok l ∧ t = { s with plen := BitVec.ofNat 11 l } := by
  unfold execStrip at h
  split at h
  · cases h
  · next l hl => exact ⟨l, hl, by simpa using h.symm⟩

/-- STRIP's scan never answers more than it started from. -/
theorem stripScan_le {m : Memory} {n l : Nat} (h : stripScan m n = .ok l) : l ≤ n := by
  induction n with
  | zero => simp_all [stripScan]
  | succ n ih =>
    unfold stripScan at h
    split at h
    · cases h
    · split at h
      · exact Nat.le_succ_of_le (ih h)
      · have : n + 1 = l := by simpa using h
        omega

/-- Filler at the end is skipped. -/
theorem stripScan_skip (m : Memory) (l n : Nat) (hl : l ≤ n)
    (h : ∀ j, l ≤ j → j < n → m.read (3 + j) = some filler) : stripScan m n = stripScan m l := by
  induction n with
  | zero => obtain rfl : l = 0 := by omega
            rfl
  | succ n ih =>
    rcases Nat.lt_or_ge l (n + 1) with hlt | hge
    · have hn := fbufRead_ok.mpr (h n (by omega) (by omega))
      rw [stripScan, hn]
      simpa using ih (by omega) fun j hj hj' => h j hj (by omega)
    · obtain rfl : l = n + 1 := by omega
      rfl

/-- R82's rule for the control byte, as a proposition. -/
theorem controlAccepted_iff (c : Cfg0) (b : Byte) :
    controlAccepted c b = true ↔ b = 0x01 ∨ (b = 0x02 ∧ c.acceptStx = true) := by
  simp [controlAccepted, soh, stx]

/-- The saturating count as arithmetic (R86). -/
theorem triesIncremented_toNat (t : BitVec 16) : (triesIncremented t).toNat = min (t.toNat + 1) 0xFFFF := by
  have := t.isLt
  unfold triesIncremented
  split
  · next h => simp [h]
  · next h =>
    have : t.toNat ≠ 0xFFFF := fun hn => h (BitVec.eq_of_toNat_eq hn)
    simp [BitVec.toNat_add]
    omega

/-- Every verdict DECODE can answer (R82, R83): how far its checks came, and what it writes. -/
theorem judge_cases {s : State} {v : Verdict} (h : judge s = .ok v) :
    (s.flen = 0 ∧ v = notFrame 0 s) ∨
    ∃ c, s.flen ≠ 0 ∧ s.fbuf.read 0 = some c ∧
      ((controlAccepted s.cfg0 c = false ∧ v = notFrame c s) ∨
        (controlAccepted s.cfg0 c = true ∧ judgeHeader c (triesIncremented s.tries) s = .ok v)) := by
  unfold judge at h
  split at h
  · exact .inl ⟨‹_›, by simpa using h.symm⟩
  · split at h
    · cases h
    · next c hc =>
      refine .inr ⟨c, ‹_›, fbufRead_ok.mp hc, ?_⟩
      split at h
      · exact .inr ⟨‹_›, h⟩
      · exact .inl ⟨eq_false_of_ne_true ‹_›, by simpa using h.symm⟩

theorem judgeHeader_cases {s : State} {v : Verdict} {c : Byte} {tries : BitVec 16}
    (h : judgeHeader c tries s = .ok v) :
    (s.flen.toNat < 3 ∧ v = rejectFrame .integrity { Dstat.zero with ctrl := c } Dtrl.zero tries s) ∨
    ∃ q r, ¬ s.flen.toNat < 3 ∧ s.fbuf.read 1 = some q ∧ s.fbuf.read 2 = some r ∧
      ((q.toNat + r.toNat ≠ 0xFF ∧
          v = rejectFrame .integrity { Dstat.zero with ctrl := c, seq := q, cseq := r } Dtrl.zero tries s) ∨
        (q.toNat + r.toNat = 0xFF ∧ s.flen.toNat ≠ frameLen s ∧
          v = rejectFrame .size { Dstat.zero with ctrl := c, seq := q, cseq := r } Dtrl.zero tries s) ∨
        (q.toNat + r.toNat = 0xFF ∧ s.flen.toNat = frameLen s ∧ q ≠ s.expseq ∧
          v = syncVerdict { Dstat.zero with ctrl := c, seq := q, cseq := r } tries s) ∨
        (q.toNat + r.toNat = 0xFF ∧ s.flen.toNat = frameLen s ∧ q = s.expseq ∧
          judgeTrailer { Dstat.zero with ctrl := c, seq := q, cseq := r } tries s = .ok v)) := by
  unfold judgeHeader at h
  extract_lets d at h
  split at h
  · exact .inl ⟨‹_›, by simpa using h.symm⟩
  · split at h
    · cases h
    · next q hq =>
      split at h
      · cases h
      · next r hr =>
        refine .inr ⟨q, r, ‹_›, fbufRead_ok.mp hq, fbufRead_ok.mp hr, ?_⟩
        extract_lets d' at h
        split at h
        · exact .inl ⟨‹_›, by simpa using h.symm⟩
        · next hsum =>
          have hsum : q.toNat + r.toNat = 0xFF := not_not.mp hsum
          split at h
          · exact .inr (.inl ⟨hsum, ‹_›, by simpa using h.symm⟩)
          · next hlen =>
            have hlen : s.flen.toNat = frameLen s := not_not.mp hlen
            split at h
            · exact .inr (.inr (.inl ⟨hsum, hlen, ‹_›, by simpa using h.symm⟩))
            · next hseq => exact .inr (.inr (.inr ⟨hsum, hlen, not_not.mp hseq, h⟩))

theorem judgeTrailer_cases {s : State} {v : Verdict} {d : Dstat} {tries : BitVec 16}
    (h : judgeTrailer d tries s = .ok v) :
    ∃ p recv, fbufReadBytes s.fbuf 3 (payloadLen s) = .ok p ∧ receivedTrailer s = .ok recv ∧
      ((computedTrailer p (trailerLen s) ≠ recv ∧ s.cfg0.trailerCheck = true ∧
          v = rejectFrame .trailer { d with trailerOk := false }
            { received := recv, computed := computedTrailer p (trailerLen s) } tries s) ∨
        (¬ (computedTrailer p (trailerLen s) ≠ recv ∧ s.cfg0.trailerCheck = true) ∧
          v = { dstat := { d with trailerOk := computedTrailer p (trailerLen s) == recv, result := .ok, action := .ack }
                dtrl := { received := recv, computed := computedTrailer p (trailerLen s) }
                tries := 0 })) := by
  unfold judgeTrailer at h
  split at h
  · cases h
  · next p hp =>
    split at h
    · cases h
    · next recv hrecv =>
      refine ⟨p, recv, hp, hrecv, ?_⟩
      extract_lets comp t d' at h
      split at h
      · next hc =>
        refine .inl ⟨hc.1, hc.2, ?_⟩
        have hd : d' = { d with trailerOk := false } := by
          simp only [d', beq_eq_false_iff_ne.mpr hc.1]
        rw [← hd]
        simpa using h.symm
      · exact .inr ⟨‹_›, by simpa using h.symm⟩

end Sys2Proof.Machine
end

