-- ==== Sys2Proof/Laws/Decode.lean ====
section
/-! SUPPORT. The fields of a command word as arithmetic on its number, what each format's decoder answers, and the masks
of the opcode map. -/

namespace Sys2Proof

theorem opcField_eq (w : Word) : opcField w = w.toNat / 2 ^ 24 := by
  have := w.isLt
  simp only [opcField, BitVec.extractLsb'_toNat, Nat.shiftRight_eq_div_pow]
  omega

theorem byteField_toNat (w : Word) : (byteField w).toNat = w.toNat % 256 := by
  simp [byteField, BitVec.extractLsb'_toNat]

theorem countField_toNat (w : Word) : (countField w).toNat = w.toNat / 256 % 2048 := by
  simp [countField, BitVec.extractLsb'_toNat, Nat.shiftRight_eq_div_pow]

/-- A reserved field is 0 exactly when its number is. -/
theorem extract_eq_zero_iff (w : Word) (lo n : Nat) :
    w.extractLsb' lo n = 0 ↔ w.toNat / 2 ^ lo % 2 ^ n = 0 := by
  rw [← BitVec.toNat_inj, BitVec.extractLsb'_toNat, Nat.shiftRight_eq_div_pow]
  simp

theorem decodeN_ok {w : Word} {i j : Instr} : decodeN w i = .ok j ↔ w.toNat % 2 ^ 24 = 0 ∧ j = i := by
  have := extract_eq_zero_iff w 0 24
  unfold decodeN
  split <;> simp_all [eq_comm]

theorem decodeB_ok {w : Word} {mk : Byte → Instr} {j : Instr} :
    decodeB w mk = .ok j ↔ w.toNat / 2 ^ 8 % 2 ^ 16 = 0 ∧ j = mk (byteField w) := by
  have := extract_eq_zero_iff w 8 16
  unfold decodeB
  split <;> simp_all [eq_comm]

theorem decodeE_ok {w : Word} {mk : Byte → BitVec 11 → Instr} {j : Instr} :
    decodeE w mk = .ok j ↔ w.toNat / 2 ^ 19 % 2 ^ 5 = 0 ∧ j = mk (byteField w) (countField w) := by
  have := extract_eq_zero_iff w 19 5
  unfold decodeE
  split <;> simp_all [eq_comm]

theorem decodeN_error {w : Word} {i : Instr} {e : IllegalWord} :
    decodeN w i = .error e ↔ w.toNat % 2 ^ 24 ≠ 0 ∧ e = .reservedBits (opcField w) := by
  have := extract_eq_zero_iff w 0 24
  unfold decodeN
  split <;> simp_all [eq_comm]

theorem decodeB_error {w : Word} {mk : Byte → Instr} {e : IllegalWord} :
    decodeB w mk = .error e ↔ w.toNat / 2 ^ 8 % 2 ^ 16 ≠ 0 ∧ e = .reservedBits (opcField w) := by
  have := extract_eq_zero_iff w 8 16
  unfold decodeB
  split <;> simp_all [eq_comm]

theorem decodeE_error {w : Word} {mk : Byte → BitVec 11 → Instr} {e : IllegalWord} :
    decodeE w mk = .error e ↔ w.toNat / 2 ^ 19 % 2 ^ 5 ≠ 0 ∧ e = .reservedBits (opcField w) := by
  have := extract_eq_zero_iff w 19 5
  unfold decodeE
  split <;> simp_all [eq_comm]

theorem encodeN_toNat (opc : Byte) : (encodeN opc).toNat = opc.toNat * 2 ^ 24 := by
  have := opc.isLt
  simp only [encodeN, BitVec.toNat_append, Nat.shiftLeft_eq]
  simp

theorem encodeB_toNat (opc b : Byte) : (encodeB opc b).toNat = opc.toNat * 2 ^ 24 + b.toNat := by
  have := b.isLt
  simp only [encodeB, BitVec.toNat_append]
  rw [← Nat.shiftLeft_add_eq_or_of_lt this, Nat.shiftLeft_eq, Nat.shiftLeft_eq]
  simp
  omega

theorem encodeE_toNat (opc seq : Byte) (k : BitVec 11) :
    (encodeE opc seq k).toNat = opc.toNat * 2 ^ 24 + k.toNat * 2 ^ 8 + seq.toNat := by
  have hs := seq.isLt
  have hk := k.isLt
  simp only [encodeE, BitVec.toNat_append]
  rw [← Nat.shiftLeft_add_eq_or_of_lt hs, ← Nat.shiftLeft_add_eq_or_of_lt hk, Nat.shiftLeft_eq, Nat.shiftLeft_eq,
    Nat.shiftLeft_eq]
  simp
  omega

/-- What a word that decodes is: its opcode, its operands and its reserved field (R61 to R64). -/
theorem decode_ok_cases {w : Word} {i : Instr} (h : decode w = .ok i) :
    (∃ opc, (opc, i) ∈ [(0x00, Instr.nop), (0x01, .crcInit), (0x03, .sumInit), (0x11, .decode), (0x12, .strip),
        (0x30, .probeStart), (0x31, .probeCancel), (0x3F, .sessInit)] ∧ w.toNat / 2 ^ 24 = opc ∧ w.toNat % 2 ^ 24 = 0) ∨
    (∃ opc b, (opc, i) ∈ [(0x02, Instr.crcByte b), (0x04, .sumByte b), (0x20, .classify b), (0x21, .modesel b)] ∧
        w.toNat / 2 ^ 24 = opc ∧ w.toNat / 2 ^ 8 % 2 ^ 16 = 0 ∧ b = byteField w) ∨
    (i = .encode (byteField w) (countField w) ∧ w.toNat / 2 ^ 24 = 0x10 ∧ w.toNat / 2 ^ 19 % 2 ^ 5 = 0) := by
  unfold decode at h
  rw [opcField_eq] at h
  split at h
  case h_14 => cases h
  case h_6 he =>
    obtain ⟨hz, rfl⟩ := decodeE_ok.mp h
    exact .inr (.inr ⟨rfl, he, hz⟩)
  case h_3 he | h_5 he | h_9 he | h_10 he =>
    obtain ⟨hz, rfl⟩ := decodeB_ok.mp h
    exact .inr (.inl ⟨_, byteField w, by simp, he, hz, rfl⟩)
  all_goals
    next he =>
    obtain ⟨hz, rfl⟩ := decodeN_ok.mp h
    exact .inl ⟨_, by simp, he, hz⟩

/-- Why a word stands for no command (R65). -/
theorem decode_error_cases {w : Word} {x : IllegalWord} (h : decode w = .error x) :
    (x = .unassignedOpcode (w.toNat / 2 ^ 24) ∧ w.toNat / 2 ^ 24 ∉
        [0x00, 0x01, 0x02, 0x03, 0x04, 0x10, 0x11, 0x12, 0x20, 0x21, 0x30, 0x31, 0x3F]) ∨
    (x = .reservedBits (w.toNat / 2 ^ 24) ∧
      ((w.toNat / 2 ^ 24 ∈ [0x00, 0x01, 0x03, 0x11, 0x12, 0x30, 0x31, 0x3F] ∧ w.toNat % 2 ^ 24 ≠ 0) ∨
        (w.toNat / 2 ^ 24 ∈ [0x02, 0x04, 0x20, 0x21] ∧ w.toNat / 2 ^ 8 % 2 ^ 16 ≠ 0) ∨
        (w.toNat / 2 ^ 24 = 0x10 ∧ w.toNat / 2 ^ 19 % 2 ^ 5 ≠ 0))) := by
  unfold decode at h
  have hopc := opcField_eq w
  rw [hopc] at h
  split at h
  case h_14 =>
    refine .inl ⟨by simpa using h.symm, ?_⟩
    simp_all
  case h_6 he =>
    obtain ⟨hz, rfl⟩ := decodeE_error.mp h
    exact .inr ⟨by rw [hopc], .inr (.inr ⟨he, hz⟩)⟩
  case h_3 he | h_5 he | h_9 he | h_10 he =>
    obtain ⟨hz, rfl⟩ := decodeB_error.mp h
    exact .inr ⟨by rw [hopc], .inr (.inl ⟨by rw [he]; simp, hz⟩)⟩
  all_goals
    next he =>
    obtain ⟨hz, rfl⟩ := decodeN_error.mp h
    exact .inr ⟨by rw [hopc], .inl ⟨by rw [he]; simp, hz⟩⟩

/-! The masks of R64 as arithmetic -/

theorem maskAll (w : Word) : w &&& 0xFFFFFFFF#32 = w := BitVec.and_allOnes

theorem maskB_toNat (w : Word) : (w &&& 0xFFFFFF00#32).toNat = w.toNat / 2 ^ 8 * 2 ^ 8 := by
  have h : w &&& 0xFFFFFF00#32 = (w >>> 8) <<< 8 := by
    ext i hi
    interval_cases i <;> simp
  rw [h, BitVec.toNat_shiftLeft, BitVec.toNat_ushiftRight, Nat.shiftLeft_eq, Nat.shiftRight_eq_div_pow]
  have := w.isLt
  omega

theorem maskE_toNat (w : Word) : (w &&& 0xFFF80000#32).toNat = w.toNat / 2 ^ 19 * 2 ^ 19 := by
  have h : w &&& 0xFFF80000#32 = (w >>> 19) <<< 19 := by
    ext i hi
    interval_cases i <;> simp
  rw [h, BitVec.toNat_shiftLeft, BitVec.toNat_ushiftRight, Nat.shiftLeft_eq, Nat.shiftRight_eq_div_pow]
  have := w.isLt
  omega

/-- A format N row selects its own word alone. -/
theorem selectsN (m : Mnemonic) (v w : Word) : OpcodeRow.selects ⟨m, v, 0xFFFFFFFF⟩ w = true ↔ w = v := by
  simp only [OpcodeRow.selects, beq_iff_eq]
  rw [show (0xFFFFFFFF : Word) = 0xFFFFFFFF#32 from rfl, maskAll]

theorem selectsB (m : Mnemonic) (v w : Word) :
    OpcodeRow.selects ⟨m, v, 0xFFFFFF00⟩ w = true ↔ w.toNat / 2 ^ 8 * 2 ^ 8 = v.toNat := by
  rw [OpcodeRow.selects, beq_iff_eq, ← BitVec.toNat_inj]
  exact Eq.congr_left (maskB_toNat w)

theorem selectsE (m : Mnemonic) (v w : Word) :
    OpcodeRow.selects ⟨m, v, 0xFFF80000⟩ w = true ↔ w.toNat / 2 ^ 19 * 2 ^ 19 = v.toNat := by
  rw [OpcodeRow.selects, beq_iff_eq, ← BitVec.toNat_inj]
  exact Eq.congr_left (maskE_toNat w)

/-- Every command has a spelling. -/
theorem wellFormed_eq_true (i : Instr) : i.wellFormed = true := by
  have hb (b : Byte) : byteOperandOk b.toNat = true := by simpa [byteOperandOk] using b.isLt
  have hk (k : BitVec 11) : countOperandOk k.toNat = true := by simpa [countOperandOk] using k.isLt
  cases i <;> simp [Instr.wellFormed, Spelling.wellFormed, Instr.spelling, Instr.mnemonic, hb, hk]

end Sys2Proof
end

