-- ==== Sys2Proof/Laws/State.lean ====
section
/-! SUPPORT. One lemma per field per named update of the state, each true by unfolding, so that no later proof unfolds a
record update. -/

namespace Sys2Proof.Machine

/-! `setPending` -/

@[simp] theorem setPending_mode (b : IrqBit) (s : State) : (setPending b s).mode = s.mode := rfl
@[simp] theorem setPending_mlock (b : IrqBit) (s : State) : (setPending b s).mlock = s.mlock := rfl
@[simp] theorem setPending_pstate (b : IrqBit) (s : State) : (setPending b s).pstate = s.pstate := rfl
@[simp] theorem setPending_cls (b : IrqBit) (s : State) : (setPending b s).cls = s.cls := rfl
@[simp] theorem setPending_mselHit (b : IrqBit) (s : State) : (setPending b s).mselHit = s.mselHit := rfl
@[simp] theorem setPending_errcode (b : IrqBit) (s : State) : (setPending b s).errcode = s.errcode := rfl
@[simp] theorem setPending_cfg0 (b : IrqBit) (s : State) : (setPending b s).cfg0 = s.cfg0 := rfl
@[simp] theorem setPending_cfg1 (b : IrqBit) (s : State) : (setPending b s).cfg1 = s.cfg1 := rfl
@[simp] theorem setPending_intervalMs (b : IrqBit) (s : State) : (setPending b s).intervalMs = s.intervalMs := rfl
@[simp] theorem setPending_crc (b : IrqBit) (s : State) : (setPending b s).crc = s.crc := rfl
@[simp] theorem setPending_sum (b : IrqBit) (s : State) : (setPending b s).sum = s.sum := rfl
@[simp] theorem setPending_expseq (b : IrqBit) (s : State) : (setPending b s).expseq = s.expseq := rfl
@[simp] theorem setPending_flen (b : IrqBit) (s : State) : (setPending b s).flen = s.flen := rfl
@[simp] theorem setPending_dstat (b : IrqBit) (s : State) : (setPending b s).dstat = s.dstat := rfl
@[simp] theorem setPending_dtrl (b : IrqBit) (s : State) : (setPending b s).dtrl = s.dtrl := rfl
@[simp] theorem setPending_plen (b : IrqBit) (s : State) : (setPending b s).plen = s.plen := rfl
@[simp] theorem setPending_tries (b : IrqBit) (s : State) : (setPending b s).tries = s.tries := rfl
@[simp] theorem setPending_crcn (b : IrqBit) (s : State) : (setPending b s).crcn = s.crcn := rfl
@[simp] theorem setPending_nakn (b : IrqBit) (s : State) : (setPending b s).nakn = s.nakn := rfl
@[simp] theorem setPending_ptick (b : IrqBit) (s : State) : (setPending b s).ptick = s.ptick := rfl
@[simp] theorem setPending_irqPend (b : IrqBit) (s : State) : (setPending b s).irqPend = s.irqPend ||| irqMask b := rfl
@[simp] theorem setPending_irqEn (b : IrqBit) (s : State) : (setPending b s).irqEn = s.irqEn := rfl
@[simp] theorem setPending_clat (b : IrqBit) (s : State) : (setPending b s).clat = s.clat := rfl
@[simp] theorem setPending_nlat (b : IrqBit) (s : State) : (setPending b s).nlat = s.nlat := rfl
@[simp] theorem setPending_ilat (b : IrqBit) (s : State) : (setPending b s).ilat = s.ilat := rfl
@[simp] theorem setPending_fbuf (b : IrqBit) (s : State) : (setPending b s).fbuf = s.fbuf := rfl
@[simp] theorem setPending_irq (b : IrqBit) (s : State) : (setPending b s).irq = s.irq := rfl
@[simp] theorem setPending_txHistory (b : IrqBit) (s : State) : (setPending b s).txHistory = s.txHistory := rfl
@[simp] theorem setPending_params (b : IrqBit) (s : State) : (setPending b s).params = s.params := rfl
@[simp] theorem setPending_inbox (b : IrqBit) (s : State) : (setPending b s).inbox = s.inbox := rfl
@[simp] theorem setPending_replies (b : IrqBit) (s : State) : (setPending b s).replies = s.replies := rfl
@[simp] theorem setPending_stepNo (b : IrqBit) (s : State) : (setPending b s).stepNo = s.stepNo := rfl

/-! `clearPending` -/

@[simp] theorem clearPending_mode (v : Word) (s : State) : (clearPending v s).mode = s.mode := rfl
@[simp] theorem clearPending_mlock (v : Word) (s : State) : (clearPending v s).mlock = s.mlock := rfl
@[simp] theorem clearPending_pstate (v : Word) (s : State) : (clearPending v s).pstate = s.pstate := rfl
@[simp] theorem clearPending_cls (v : Word) (s : State) : (clearPending v s).cls = s.cls := rfl
@[simp] theorem clearPending_mselHit (v : Word) (s : State) : (clearPending v s).mselHit = s.mselHit := rfl
@[simp] theorem clearPending_errcode (v : Word) (s : State) : (clearPending v s).errcode = s.errcode := rfl
@[simp] theorem clearPending_cfg0 (v : Word) (s : State) : (clearPending v s).cfg0 = s.cfg0 := rfl
@[simp] theorem clearPending_cfg1 (v : Word) (s : State) : (clearPending v s).cfg1 = s.cfg1 := rfl
@[simp] theorem clearPending_intervalMs (v : Word) (s : State) : (clearPending v s).intervalMs = s.intervalMs := rfl
@[simp] theorem clearPending_crc (v : Word) (s : State) : (clearPending v s).crc = s.crc := rfl
@[simp] theorem clearPending_sum (v : Word) (s : State) : (clearPending v s).sum = s.sum := rfl
@[simp] theorem clearPending_expseq (v : Word) (s : State) : (clearPending v s).expseq = s.expseq := rfl
@[simp] theorem clearPending_flen (v : Word) (s : State) : (clearPending v s).flen = s.flen := rfl
@[simp] theorem clearPending_dstat (v : Word) (s : State) : (clearPending v s).dstat = s.dstat := rfl
@[simp] theorem clearPending_dtrl (v : Word) (s : State) : (clearPending v s).dtrl = s.dtrl := rfl
@[simp] theorem clearPending_plen (v : Word) (s : State) : (clearPending v s).plen = s.plen := rfl
@[simp] theorem clearPending_tries (v : Word) (s : State) : (clearPending v s).tries = s.tries := rfl
@[simp] theorem clearPending_crcn (v : Word) (s : State) : (clearPending v s).crcn = s.crcn := rfl
@[simp] theorem clearPending_nakn (v : Word) (s : State) : (clearPending v s).nakn = s.nakn := rfl
@[simp] theorem clearPending_ptick (v : Word) (s : State) : (clearPending v s).ptick = s.ptick := rfl
@[simp] theorem clearPending_irqPend (v : Word) (s : State) : (clearPending v s).irqPend = s.irqPend &&& ~~~(v.extractLsb' 0 4) := rfl
@[simp] theorem clearPending_irqEn (v : Word) (s : State) : (clearPending v s).irqEn = s.irqEn := rfl
@[simp] theorem clearPending_clat (v : Word) (s : State) : (clearPending v s).clat = s.clat := rfl
@[simp] theorem clearPending_nlat (v : Word) (s : State) : (clearPending v s).nlat = s.nlat := rfl
@[simp] theorem clearPending_ilat (v : Word) (s : State) : (clearPending v s).ilat = s.ilat := rfl
@[simp] theorem clearPending_fbuf (v : Word) (s : State) : (clearPending v s).fbuf = s.fbuf := rfl
@[simp] theorem clearPending_irq (v : Word) (s : State) : (clearPending v s).irq = s.irq := rfl
@[simp] theorem clearPending_txHistory (v : Word) (s : State) : (clearPending v s).txHistory = s.txHistory := rfl
@[simp] theorem clearPending_params (v : Word) (s : State) : (clearPending v s).params = s.params := rfl
@[simp] theorem clearPending_inbox (v : Word) (s : State) : (clearPending v s).inbox = s.inbox := rfl
@[simp] theorem clearPending_replies (v : Word) (s : State) : (clearPending v s).replies = s.replies := rfl
@[simp] theorem clearPending_stepNo (v : Word) (s : State) : (clearPending v s).stepNo = s.stepNo := rfl

/-! `raiseCmdError` -/

@[simp] theorem raiseCmdError_mode (c : ErrCode) (s : State) : (raiseCmdError c s).mode = s.mode := rfl
@[simp] theorem raiseCmdError_mlock (c : ErrCode) (s : State) : (raiseCmdError c s).mlock = s.mlock := rfl
@[simp] theorem raiseCmdError_pstate (c : ErrCode) (s : State) : (raiseCmdError c s).pstate = s.pstate := rfl
@[simp] theorem raiseCmdError_cls (c : ErrCode) (s : State) : (raiseCmdError c s).cls = s.cls := rfl
@[simp] theorem raiseCmdError_mselHit (c : ErrCode) (s : State) : (raiseCmdError c s).mselHit = s.mselHit := rfl
@[simp] theorem raiseCmdError_errcode (c : ErrCode) (s : State) : (raiseCmdError c s).errcode = c := rfl
@[simp] theorem raiseCmdError_cfg0 (c : ErrCode) (s : State) : (raiseCmdError c s).cfg0 = s.cfg0 := rfl
@[simp] theorem raiseCmdError_cfg1 (c : ErrCode) (s : State) : (raiseCmdError c s).cfg1 = s.cfg1 := rfl
@[simp] theorem raiseCmdError_intervalMs (c : ErrCode) (s : State) : (raiseCmdError c s).intervalMs = s.intervalMs := rfl
@[simp] theorem raiseCmdError_crc (c : ErrCode) (s : State) : (raiseCmdError c s).crc = s.crc := rfl
@[simp] theorem raiseCmdError_sum (c : ErrCode) (s : State) : (raiseCmdError c s).sum = s.sum := rfl
@[simp] theorem raiseCmdError_expseq (c : ErrCode) (s : State) : (raiseCmdError c s).expseq = s.expseq := rfl
@[simp] theorem raiseCmdError_flen (c : ErrCode) (s : State) : (raiseCmdError c s).flen = s.flen := rfl
@[simp] theorem raiseCmdError_dstat (c : ErrCode) (s : State) : (raiseCmdError c s).dstat = s.dstat := rfl
@[simp] theorem raiseCmdError_dtrl (c : ErrCode) (s : State) : (raiseCmdError c s).dtrl = s.dtrl := rfl
@[simp] theorem raiseCmdError_plen (c : ErrCode) (s : State) : (raiseCmdError c s).plen = s.plen := rfl
@[simp] theorem raiseCmdError_tries (c : ErrCode) (s : State) : (raiseCmdError c s).tries = s.tries := rfl
@[simp] theorem raiseCmdError_crcn (c : ErrCode) (s : State) : (raiseCmdError c s).crcn = s.crcn := rfl
@[simp] theorem raiseCmdError_nakn (c : ErrCode) (s : State) : (raiseCmdError c s).nakn = s.nakn := rfl
@[simp] theorem raiseCmdError_ptick (c : ErrCode) (s : State) : (raiseCmdError c s).ptick = s.ptick := rfl
@[simp] theorem raiseCmdError_irqPend (c : ErrCode) (s : State) : (raiseCmdError c s).irqPend = s.irqPend ||| irqMask .cmdErr := rfl
@[simp] theorem raiseCmdError_irqEn (c : ErrCode) (s : State) : (raiseCmdError c s).irqEn = s.irqEn := rfl
@[simp] theorem raiseCmdError_clat (c : ErrCode) (s : State) : (raiseCmdError c s).clat = s.clat := rfl
@[simp] theorem raiseCmdError_nlat (c : ErrCode) (s : State) : (raiseCmdError c s).nlat = s.nlat := rfl
@[simp] theorem raiseCmdError_ilat (c : ErrCode) (s : State) : (raiseCmdError c s).ilat = s.ilat := rfl
@[simp] theorem raiseCmdError_fbuf (c : ErrCode) (s : State) : (raiseCmdError c s).fbuf = s.fbuf := rfl
@[simp] theorem raiseCmdError_irq (c : ErrCode) (s : State) : (raiseCmdError c s).irq = s.irq := rfl
@[simp] theorem raiseCmdError_txHistory (c : ErrCode) (s : State) : (raiseCmdError c s).txHistory = s.txHistory := rfl
@[simp] theorem raiseCmdError_params (c : ErrCode) (s : State) : (raiseCmdError c s).params = s.params := rfl
@[simp] theorem raiseCmdError_inbox (c : ErrCode) (s : State) : (raiseCmdError c s).inbox = s.inbox := rfl
@[simp] theorem raiseCmdError_replies (c : ErrCode) (s : State) : (raiseCmdError c s).replies = s.replies := rfl
@[simp] theorem raiseCmdError_stepNo (c : ErrCode) (s : State) : (raiseCmdError c s).stepNo = s.stepNo := rfl

/-! `transmit` -/

@[simp] theorem transmit_mode (b : Byte) (s : State) : (transmit b s).mode = s.mode := rfl
@[simp] theorem transmit_mlock (b : Byte) (s : State) : (transmit b s).mlock = s.mlock := rfl
@[simp] theorem transmit_pstate (b : Byte) (s : State) : (transmit b s).pstate = s.pstate := rfl
@[simp] theorem transmit_cls (b : Byte) (s : State) : (transmit b s).cls = s.cls := rfl
@[simp] theorem transmit_mselHit (b : Byte) (s : State) : (transmit b s).mselHit = s.mselHit := rfl
@[simp] theorem transmit_errcode (b : Byte) (s : State) : (transmit b s).errcode = s.errcode := rfl
@[simp] theorem transmit_cfg0 (b : Byte) (s : State) : (transmit b s).cfg0 = s.cfg0 := rfl
@[simp] theorem transmit_cfg1 (b : Byte) (s : State) : (transmit b s).cfg1 = s.cfg1 := rfl
@[simp] theorem transmit_intervalMs (b : Byte) (s : State) : (transmit b s).intervalMs = s.intervalMs := rfl
@[simp] theorem transmit_crc (b : Byte) (s : State) : (transmit b s).crc = s.crc := rfl
@[simp] theorem transmit_sum (b : Byte) (s : State) : (transmit b s).sum = s.sum := rfl
@[simp] theorem transmit_expseq (b : Byte) (s : State) : (transmit b s).expseq = s.expseq := rfl
@[simp] theorem transmit_flen (b : Byte) (s : State) : (transmit b s).flen = s.flen := rfl
@[simp] theorem transmit_dstat (b : Byte) (s : State) : (transmit b s).dstat = s.dstat := rfl
@[simp] theorem transmit_dtrl (b : Byte) (s : State) : (transmit b s).dtrl = s.dtrl := rfl
@[simp] theorem transmit_plen (b : Byte) (s : State) : (transmit b s).plen = s.plen := rfl
@[simp] theorem transmit_tries (b : Byte) (s : State) : (transmit b s).tries = s.tries := rfl
@[simp] theorem transmit_crcn (b : Byte) (s : State) : (transmit b s).crcn = s.crcn := rfl
@[simp] theorem transmit_nakn (b : Byte) (s : State) : (transmit b s).nakn = s.nakn := rfl
@[simp] theorem transmit_ptick (b : Byte) (s : State) : (transmit b s).ptick = s.ptick := rfl
@[simp] theorem transmit_irqPend (b : Byte) (s : State) : (transmit b s).irqPend = s.irqPend ||| irqMask .probeTx := rfl
@[simp] theorem transmit_irqEn (b : Byte) (s : State) : (transmit b s).irqEn = s.irqEn := rfl
@[simp] theorem transmit_clat (b : Byte) (s : State) : (transmit b s).clat = s.clat := rfl
@[simp] theorem transmit_nlat (b : Byte) (s : State) : (transmit b s).nlat = s.nlat := rfl
@[simp] theorem transmit_ilat (b : Byte) (s : State) : (transmit b s).ilat = s.ilat := rfl
@[simp] theorem transmit_fbuf (b : Byte) (s : State) : (transmit b s).fbuf = s.fbuf := rfl
@[simp] theorem transmit_irq (b : Byte) (s : State) : (transmit b s).irq = s.irq := rfl
@[simp] theorem transmit_txHistory (b : Byte) (s : State) : (transmit b s).txHistory = s.txHistory ++ [{ step := s.stepNo, byte := b }] := rfl
@[simp] theorem transmit_params (b : Byte) (s : State) : (transmit b s).params = s.params := rfl
@[simp] theorem transmit_inbox (b : Byte) (s : State) : (transmit b s).inbox = s.inbox := rfl
@[simp] theorem transmit_replies (b : Byte) (s : State) : (transmit b s).replies = s.replies := rfl
@[simp] theorem transmit_stepNo (b : Byte) (s : State) : (transmit b s).stepNo = s.stepNo := rfl

/-! `lockMode` -/

@[simp] theorem lockMode_mode (m : Mode) (s : State) : (lockMode m s).mode = m := rfl
@[simp] theorem lockMode_mlock (m : Mode) (s : State) : (lockMode m s).mlock = true := rfl
@[simp] theorem lockMode_pstate (m : Mode) (s : State) : (lockMode m s).pstate = s.pstate := rfl
@[simp] theorem lockMode_cls (m : Mode) (s : State) : (lockMode m s).cls = s.cls := rfl
@[simp] theorem lockMode_mselHit (m : Mode) (s : State) : (lockMode m s).mselHit = true := rfl
@[simp] theorem lockMode_errcode (m : Mode) (s : State) : (lockMode m s).errcode = s.errcode := rfl
@[simp] theorem lockMode_cfg0 (m : Mode) (s : State) : (lockMode m s).cfg0 = s.cfg0 := rfl
@[simp] theorem lockMode_cfg1 (m : Mode) (s : State) : (lockMode m s).cfg1 = s.cfg1 := rfl
@[simp] theorem lockMode_intervalMs (m : Mode) (s : State) : (lockMode m s).intervalMs = s.intervalMs := rfl
@[simp] theorem lockMode_crc (m : Mode) (s : State) : (lockMode m s).crc = s.crc := rfl
@[simp] theorem lockMode_sum (m : Mode) (s : State) : (lockMode m s).sum = s.sum := rfl
@[simp] theorem lockMode_expseq (m : Mode) (s : State) : (lockMode m s).expseq = s.expseq := rfl
@[simp] theorem lockMode_flen (m : Mode) (s : State) : (lockMode m s).flen = s.flen := rfl
@[simp] theorem lockMode_dstat (m : Mode) (s : State) : (lockMode m s).dstat = s.dstat := rfl
@[simp] theorem lockMode_dtrl (m : Mode) (s : State) : (lockMode m s).dtrl = s.dtrl := rfl
@[simp] theorem lockMode_plen (m : Mode) (s : State) : (lockMode m s).plen = s.plen := rfl
@[simp] theorem lockMode_tries (m : Mode) (s : State) : (lockMode m s).tries = s.tries := rfl
@[simp] theorem lockMode_crcn (m : Mode) (s : State) : (lockMode m s).crcn = s.crcn := rfl
@[simp] theorem lockMode_nakn (m : Mode) (s : State) : (lockMode m s).nakn = s.nakn := rfl
@[simp] theorem lockMode_ptick (m : Mode) (s : State) : (lockMode m s).ptick = s.ptick := rfl
@[simp] theorem lockMode_irqPend (m : Mode) (s : State) : (lockMode m s).irqPend = s.irqPend ||| irqMask .negDone := rfl
@[simp] theorem lockMode_irqEn (m : Mode) (s : State) : (lockMode m s).irqEn = s.irqEn := rfl
@[simp] theorem lockMode_clat (m : Mode) (s : State) : (lockMode m s).clat = s.clat := rfl
@[simp] theorem lockMode_nlat (m : Mode) (s : State) : (lockMode m s).nlat = s.nlat := rfl
@[simp] theorem lockMode_ilat (m : Mode) (s : State) : (lockMode m s).ilat = s.ilat := rfl
@[simp] theorem lockMode_fbuf (m : Mode) (s : State) : (lockMode m s).fbuf = s.fbuf := rfl
@[simp] theorem lockMode_irq (m : Mode) (s : State) : (lockMode m s).irq = s.irq := rfl
@[simp] theorem lockMode_txHistory (m : Mode) (s : State) : (lockMode m s).txHistory = s.txHistory := rfl
@[simp] theorem lockMode_params (m : Mode) (s : State) : (lockMode m s).params = s.params := rfl
@[simp] theorem lockMode_inbox (m : Mode) (s : State) : (lockMode m s).inbox = s.inbox := rfl
@[simp] theorem lockMode_replies (m : Mode) (s : State) : (lockMode m s).replies = s.replies := rfl
@[simp] theorem lockMode_stepNo (m : Mode) (s : State) : (lockMode m s).stepNo = s.stepNo := rfl

/-! `settle` -/

@[simp] theorem settle_mode (s : State) : (settle s).mode = s.mode := rfl
@[simp] theorem settle_mlock (s : State) : (settle s).mlock = s.mlock := rfl
@[simp] theorem settle_pstate (s : State) : (settle s).pstate = s.pstate := rfl
@[simp] theorem settle_cls (s : State) : (settle s).cls = s.cls := rfl
@[simp] theorem settle_mselHit (s : State) : (settle s).mselHit = s.mselHit := rfl
@[simp] theorem settle_errcode (s : State) : (settle s).errcode = s.errcode := rfl
@[simp] theorem settle_cfg0 (s : State) : (settle s).cfg0 = s.cfg0 := rfl
@[simp] theorem settle_cfg1 (s : State) : (settle s).cfg1 = s.cfg1 := rfl
@[simp] theorem settle_intervalMs (s : State) : (settle s).intervalMs = s.intervalMs := rfl
@[simp] theorem settle_crc (s : State) : (settle s).crc = s.crc := rfl
@[simp] theorem settle_sum (s : State) : (settle s).sum = s.sum := rfl
@[simp] theorem settle_expseq (s : State) : (settle s).expseq = s.expseq := rfl
@[simp] theorem settle_flen (s : State) : (settle s).flen = s.flen := rfl
@[simp] theorem settle_dstat (s : State) : (settle s).dstat = s.dstat := rfl
@[simp] theorem settle_dtrl (s : State) : (settle s).dtrl = s.dtrl := rfl
@[simp] theorem settle_plen (s : State) : (settle s).plen = s.plen := rfl
@[simp] theorem settle_tries (s : State) : (settle s).tries = s.tries := rfl
@[simp] theorem settle_crcn (s : State) : (settle s).crcn = s.crcn := rfl
@[simp] theorem settle_nakn (s : State) : (settle s).nakn = s.nakn := rfl
@[simp] theorem settle_ptick (s : State) : (settle s).ptick = s.ptick := rfl
@[simp] theorem settle_irqPend (s : State) : (settle s).irqPend = s.irqPend := rfl
@[simp] theorem settle_irqEn (s : State) : (settle s).irqEn = s.irqEn := rfl
@[simp] theorem settle_clat (s : State) : (settle s).clat = s.clat := rfl
@[simp] theorem settle_nlat (s : State) : (settle s).nlat = s.nlat := rfl
@[simp] theorem settle_ilat (s : State) : (settle s).ilat = s.ilat := rfl
@[simp] theorem settle_fbuf (s : State) : (settle s).fbuf = s.fbuf := rfl
@[simp] theorem settle_irq (s : State) : (settle s).irq = irqLevel s := rfl
@[simp] theorem settle_txHistory (s : State) : (settle s).txHistory = s.txHistory := rfl
@[simp] theorem settle_params (s : State) : (settle s).params = s.params := rfl
@[simp] theorem settle_inbox (s : State) : (settle s).inbox = s.inbox := rfl
@[simp] theorem settle_replies (s : State) : (settle s).replies = s.replies := rfl
@[simp] theorem settle_stepNo (s : State) : (settle s).stepNo = s.stepNo + 1 := rfl

/-! `resetEvent` -/

@[simp] theorem resetEvent_mode (s : State) : (resetEvent s).mode = State.reset.mode := rfl
@[simp] theorem resetEvent_mlock (s : State) : (resetEvent s).mlock = State.reset.mlock := rfl
@[simp] theorem resetEvent_pstate (s : State) : (resetEvent s).pstate = State.reset.pstate := rfl
@[simp] theorem resetEvent_cls (s : State) : (resetEvent s).cls = State.reset.cls := rfl
@[simp] theorem resetEvent_mselHit (s : State) : (resetEvent s).mselHit = State.reset.mselHit := rfl
@[simp] theorem resetEvent_errcode (s : State) : (resetEvent s).errcode = State.reset.errcode := rfl
@[simp] theorem resetEvent_cfg0 (s : State) : (resetEvent s).cfg0 = State.reset.cfg0 := rfl
@[simp] theorem resetEvent_cfg1 (s : State) : (resetEvent s).cfg1 = State.reset.cfg1 := rfl
@[simp] theorem resetEvent_intervalMs (s : State) : (resetEvent s).intervalMs = State.reset.intervalMs := rfl
@[simp] theorem resetEvent_crc (s : State) : (resetEvent s).crc = State.reset.crc := rfl
@[simp] theorem resetEvent_sum (s : State) : (resetEvent s).sum = State.reset.sum := rfl
@[simp] theorem resetEvent_expseq (s : State) : (resetEvent s).expseq = State.reset.expseq := rfl
@[simp] theorem resetEvent_flen (s : State) : (resetEvent s).flen = State.reset.flen := rfl
@[simp] theorem resetEvent_dstat (s : State) : (resetEvent s).dstat = State.reset.dstat := rfl
@[simp] theorem resetEvent_dtrl (s : State) : (resetEvent s).dtrl = State.reset.dtrl := rfl
@[simp] theorem resetEvent_plen (s : State) : (resetEvent s).plen = State.reset.plen := rfl
@[simp] theorem resetEvent_tries (s : State) : (resetEvent s).tries = State.reset.tries := rfl
@[simp] theorem resetEvent_crcn (s : State) : (resetEvent s).crcn = State.reset.crcn := rfl
@[simp] theorem resetEvent_nakn (s : State) : (resetEvent s).nakn = State.reset.nakn := rfl
@[simp] theorem resetEvent_ptick (s : State) : (resetEvent s).ptick = State.reset.ptick := rfl
@[simp] theorem resetEvent_irqPend (s : State) : (resetEvent s).irqPend = State.reset.irqPend := rfl
@[simp] theorem resetEvent_irqEn (s : State) : (resetEvent s).irqEn = State.reset.irqEn := rfl
@[simp] theorem resetEvent_clat (s : State) : (resetEvent s).clat = State.reset.clat := rfl
@[simp] theorem resetEvent_nlat (s : State) : (resetEvent s).nlat = State.reset.nlat := rfl
@[simp] theorem resetEvent_ilat (s : State) : (resetEvent s).ilat = State.reset.ilat := rfl
@[simp] theorem resetEvent_fbuf (s : State) : (resetEvent s).fbuf = State.reset.fbuf := rfl
@[simp] theorem resetEvent_irq (s : State) : (resetEvent s).irq = State.reset.irq := rfl
@[simp] theorem resetEvent_txHistory (s : State) : (resetEvent s).txHistory = s.txHistory := rfl
@[simp] theorem resetEvent_params (s : State) : (resetEvent s).params = s.params := rfl
@[simp] theorem resetEvent_inbox (s : State) : (resetEvent s).inbox = s.inbox := rfl
@[simp] theorem resetEvent_replies (s : State) : (resetEvent s).replies = s.replies := rfl
@[simp] theorem resetEvent_stepNo (s : State) : (resetEvent s).stepNo = s.stepNo := rfl

/-! The pending bits -/

@[simp] theorem isPending_setPending (b c : IrqBit) (s : State) :
    isPending b (setPending c s) = (isPending b s || decide (b = c)) := by
  cases b <;> cases c <;> simp [isPending, irqMask, irqIndex]

theorem setPending_cmdErr_irqPend (s : State) : s.irqPend ||| irqMask .cmdErr = s.irqPend ||| 0b0100 := rfl

theorem setPending_negDone_irqPend (s : State) : s.irqPend ||| irqMask .negDone = s.irqPend ||| 0b0001 := rfl

theorem setPending_negFail_irqPend (s : State) : s.irqPend ||| irqMask .negFail = s.irqPend ||| 0b0010 := rfl

theorem setPending_probeTx_irqPend (s : State) : s.irqPend ||| irqMask .probeTx = s.irqPend ||| 0b1000 := rfl

end Sys2Proof.Machine
end

