-- ==== Sys2Proof/Laws/Events.lean ====
section
/-! SUPPORT. What an event and a step can do, said once: an inversion of `deliver`, of a register write and of each
command that branches; the two operations that refuse; and how a run peels off its first step. -/

namespace Sys2Proof.Machine

theorem raiseCmdError_eq (c : ErrCode) (s : State) : raiseCmdError c s = cmdErrorState c s := rfl

@[simp] theorem exec_nop (s : State) : exec .nop s = .next s := rfl
@[simp] theorem exec_crcInit (s : State) : exec .crcInit s = .next { s with crc := 0 } := rfl
@[simp] theorem exec_crcByte (b : Byte) (s : State) : exec (.crcByte b) s = .next { s with crc := crcStep s.crc b } := rfl
@[simp] theorem exec_sumInit (s : State) : exec .sumInit s = .next { s with sum := 0 } := rfl
@[simp] theorem exec_sumByte (b : Byte) (s : State) : exec (.sumByte b) s = .next { s with sum := s.sum + b } := rfl
@[simp] theorem exec_encode (q : Byte) (k : BitVec 11) (s : State) : exec (.encode q k) s = execEncode q k s := rfl
@[simp] theorem exec_decode (s : State) : exec .decode s = execDecode s := rfl
@[simp] theorem exec_strip (s : State) : exec .strip s = execStrip s := rfl
@[simp] theorem exec_classify (b : Byte) (s : State) :
    exec (.classify b) s = .next { s with cls := classifyByte s.params b } := rfl
@[simp] theorem exec_modesel (b : Byte) (s : State) : exec (.modesel b) s = execModesel b s := rfl
@[simp] theorem exec_probeStart (s : State) : exec .probeStart s = execProbeStart s := rfl
@[simp] theorem exec_probeCancel (s : State) : exec .probeCancel s = execProbeCancel s := rfl
@[simp] theorem exec_sessInit (s : State) : exec .sessInit s = execSessInit s := rfl

/-- The invariant says nothing of the events still to come. -/
theorem Invariant.withInbox {s : State} (h : Invariant s) (l : List Event) : Invariant { s with inbox := l } := by
  cases h
  constructor <;> assumption

/-- Everything MODESEL can answer (R130). -/
theorem execModesel_next {b : Byte} {s t : State} (h : execModesel b s = .next t) :
    (s.pstate ≠ .idle ∧ t = raiseCmdError .state s) ∨
    (s.pstate = .idle ∧ s.mlock = false ∧ b = charC ∧
      t = lockMode .crc16 { s with cls := classifyByte s.params b }) ∨
    (s.pstate = .idle ∧ s.mlock = false ∧ b ≠ charC ∧ b = s.params.nak ∧
      t = lockMode .checksum { s with cls := classifyByte s.params b }) ∨
    (s.pstate = .idle ∧ (s.mlock = true ∨ (b ≠ charC ∧ b ≠ s.params.nak)) ∧
      t = { s with cls := classifyByte s.params b, mselHit := false }) := by
  unfold execModesel at h
  split at h
  · exact .inl ⟨‹_›, by simpa using h.symm⟩
  · next hp =>
    have hp : s.pstate = .idle := not_not.mp hp
    extract_lets s' at h
    split at h
    · next hc => exact .inr (.inl ⟨hp, hc.1, hc.2, by simpa using h.symm⟩)
    · next hc =>
      split at h
      · next hn =>
        exact .inr (.inr (.inl ⟨hp, hn.1, fun hb => hc ⟨hn.1, hb⟩, hn.2, by simpa using h.symm⟩))
      · next hn =>
        refine .inr (.inr (.inr ⟨hp, ?_, by simpa using h.symm⟩))
        cases hl : s.mlock
        · exact .inr ⟨fun hb => hc ⟨hl, hb⟩, fun hb => hn ⟨hl, hb⟩⟩
        · exact .inl rfl

/-- Everything PROBE_START can answer (R124). -/
theorem execProbeStart_next {s t : State} (h : execProbeStart s = .next t) :
    ((s.pstate ≠ .idle ∨ s.mlock = true) ∧ t = raiseCmdError .state s) ∨
    (s.pstate = .idle ∧ s.mlock = false ∧ t = startProbe s) := by
  unfold execProbeStart at h
  split at h
  · exact .inl ⟨‹_›, by simpa using h.symm⟩
  · next hn =>
    push Not at hn
    exact .inr ⟨hn.1, by simpa using hn.2, by simpa using h.symm⟩

/-- Everything PROBE_CANCEL can answer (R129). -/
theorem execProbeCancel_next {s t : State} (h : execProbeCancel s = .next t) :
    (probing s = true ∧ t = { s with pstate := .idle, ptick := 0 }) ∨ (probing s = false ∧ t = s) := by
  unfold execProbeCancel at h
  split at h
  · exact .inl ⟨‹_›, by simpa using h.symm⟩
  · exact .inr ⟨eq_false_of_ne_true ‹_›, by simpa using h.symm⟩

theorem probing_iff (s : State) : probing s = true ↔ s.pstate = .crc ∨ s.pstate = .nak := by
  simp [probing]

theorem probing_false_iff (s : State) : probing s = false ↔ s.pstate ≠ .crc ∧ s.pstate ≠ .nak := by
  simp [probing]

/-- R128's two bytes. -/
theorem endsProbing_iff (b : Byte) : endsProbing b = true ↔ b = 0x01 ∨ b = 0x02 := by
  simp [endsProbing, soh, stx]

/-- CLAT is 1 or more exactly when CRC_ATTEMPTS is 2 or more (R36). -/
theorem latchedClat_toNat (c : Cfg1) : (latchedClat c).toNat = c.crcAttempts.toNat - 1 := by
  unfold latchedClat
  split
  · next h => simp [h]
  · next h =>
    have : c.crcAttempts.toNat ≠ 0 := fun h0 => h (BitVec.eq_of_toNat_eq (by simpa using h0))
    have := c.crcAttempts.isLt
    simp [BitVec.toNat_sub]
    omega

/-- The NAK budget never truncates (R36). -/
theorem latchedNlat_toNat (c : Cfg1) : (latchedNlat c).toNat = c.maxErrors.toNat * c.timeoutS.toNat * 3 := by
  have h1 := c.maxErrors.isLt
  have h2 := c.timeoutS.isLt
  have : c.maxErrors.toNat * c.timeoutS.toNat ≤ 255 * 255 := Nat.mul_le_mul (by omega) (by omega)
  simp only [latchedNlat, BitVec.toNat_ofNat]
  omega

/-- Everything a register write stores (R44). -/
theorem regWrite_some {r : Reg} {v : Word} {s t : State} (h : regWrite r v s = some t) :
    (r = .CFG0 ∧ t = { s with cfg0 := cfg0OfWord v }) ∨ (r = .CFG1 ∧ t = { s with cfg1 := cfg1OfWord v }) ∨
    (r = .CFG2 ∧ t = { s with intervalMs := intervalOfWord v }) ∨
    (r = .EXPSEQ ∧ t = { s with expseq := v.extractLsb' 0 8 }) ∨
    (r = .FLEN ∧ t = { s with flen := v.extractLsb' 0 11 }) ∨ (r = .IRQ_PEND ∧ t = clearPending v s) ∨
    (r = .IRQ_EN ∧ t = { s with irqEn := v.extractLsb' 0 4 }) := by
  cases r <;> simp [regWrite] at h <;> simp [h]

theorem intervalOfWord_pos (v : Word) : 1 ≤ (intervalOfWord v).toNat := by
  unfold intervalOfWord
  split
  · decide
  · next h =>
    by_contra hlt
    exact h (BitVec.eq_of_toNat_eq (by simpa using (show (v.extractLsb' 0 16).toNat = 0 by omega)))

/-- What an event can do to the state before the step is closed. -/
inductive Delivered (e : Event) (s : State) : State → Prop
  | notSelected : Delivered e s s
  | read (addr width : Nat) (w : Word) (he : e = .busRead addr width) :
      Delivered e s { s with replies := s.replies ++ [{ step := s.stepNo, addr := addr, data := w }] }
  | register (addr : Nat) (v : Word) (r : Reg) (t : State) (he : e = .busWrite addr 4 v)
      (hs : s.params.base ≤ addr) (hr : busTarget (addr - s.params.base) 4 = .ok (.reg r)) (hw : regWrite r v s = some t) :
      Delivered e s t
  | fbuf (addr width : Nat) (v : Word) (i : Nat) (he : e = .busWrite addr width v) (hi : i < fbufSize) :
      Delivered e s { s with fbuf := s.fbuf.write i (v.extractLsb' 0 8) }
  | illegal (v : Word) (x : IllegalWord) (he : e = .busWrite s.params.base 4 v) (hd : decode v = .error x) :
      Delivered e s (raiseCmdError .illegal s)
  | command (v : Word) (i : Instr) (t : State) (he : e = .busWrite s.params.base 4 v) (hd : decode v = .ok i)
      (hc : commandOf e s = some i) (hx : exec i s = .next t) : Delivered e s t
  | tick (he : e = .tick) : Delivered e s (tickEvent s)
  | rx (b : Byte) (he : e = .rx b) : Delivered e s (rxEvent b s)
  | reset (he : e = .reset) : Delivered e s (resetEvent s)

/-- The accesses that reach a register are 4 bytes wide. -/
theorem busTarget_reg {off width : Nat} {r : Reg} (h : busTarget off width = .ok (.reg r)) :
    width = 4 ∧ off < 0x044 ∧ off % 4 = 0 ∧ regFile[off / 4]? = some r := by
  unfold busTarget at h
  split at h
  · next hoff =>
    split at h
    · next hw =>
      split at h
      · next r' hr => exact ⟨hw.1, hoff, hw.2, by rw [hr]; simpa using h⟩
      · cases h
    · cases h
  · split at h
    · split at h
      · simp at h
      · cases h
    · cases h

theorem busTarget_fbuf {off width i : Nat} (h : busTarget off width = .ok (.fbuf i)) :
    width = 1 ∧ off = fbufOffset + i ∧ i < fbufSize := by
  unfold busTarget at h
  split at h
  · split at h
    · split at h <;> simp at h
    · cases h
  · split at h
    · next hr =>
      split at h
      · next hw =>
        have hi : off - fbufOffset = i := by simpa using h
        obtain ⟨hlo, hhi⟩ := hr
        exact ⟨hw, by omega, by omega⟩
      · cases h
    · cases h

/-- CMD is the only register at offset 0. -/
theorem busTarget_cmd {off width : Nat} : busTarget off width = .ok (.reg .CMD) ↔ width = 4 ∧ off = 0 := by
  constructor
  · intro h
    obtain ⟨hw, hlt, hal, hr⟩ := busTarget_reg h
    refine ⟨hw, ?_⟩
    have hq : off / 4 < 17 := by omega
    have key : ∀ q < 17, regFile[q]? = some Reg.CMD → q = 0 := by decide
    have := key _ hq hr
    omega
  · rintro ⟨rfl, rfl⟩
    rfl

/-- Everything an event can do (R9, R49, R150). -/
theorem deliver_next {e : Event} {s t : State} (h : deliver e s = .next t) : Delivered e s t := by
  cases e with
  | busRead addr width =>
    simp only [deliver, busReadEvent] at h
    split at h
    · split at h
      · cases h
      · obtain rfl := by simpa using h
        exact .read addr width _ rfl
    · obtain rfl := by simpa using h
      exact .notSelected
  | busWrite addr width v =>
    simp only [deliver, busWriteEvent] at h
    split at h
    · next hsel =>
      have hbase : s.params.base ≤ addr := by
        simp [selected] at hsel
        omega
      unfold writeOffset at h
      split at h
      · cases h
      · next i hi =>
        obtain ⟨-, -, hi⟩ := busTarget_fbuf hi
        obtain rfl := by simpa using h
        exact .fbuf addr width v i rfl hi
      · next hcmd =>
        obtain ⟨rfl, hoff⟩ := busTarget_cmd.mp hcmd
        obtain rfl : addr = s.params.base := by omega
        unfold runCommand at h
        split at h
        · next i hd => exact .command v i t rfl hd (by simp [commandOf, cmdOffset, hd]) h
        · next x hd =>
          obtain rfl := by simpa using h
          exact .illegal v x rfl hd
      · next r _ hr =>
        split at h
        · next t' ht =>
          obtain rfl := by simpa using h
          obtain ⟨rfl, -⟩ := busTarget_reg hr
          exact .register addr v r _ rfl hbase hr ht
        · cases h
    · obtain rfl := by simpa using h
      exact .notSelected
  | tick =>
    obtain rfl := by simpa [deliver] using h
    exact .tick rfl
  | rx b =>
    obtain rfl := by simpa [deliver] using h
    exact .rx b rfl
  | reset =>
    obtain rfl := by simpa [deliver] using h
    exact .reset rfl

/-- A step that answers delivered its event and was closed. -/
theorem eventStep_next {e : Event} {s t : State} (h : eventStep e s = .next t) :
    ∃ u, deliver e s = .next u ∧ t = settle u := by
  unfold eventStep at h
  split at h
  · next u hu => exact ⟨u, hu, by simpa using h.symm⟩
  · cases h
  · cases h

theorem step_nil {s : State} (h : s.inbox = []) : step s = .next s := by
  simp [step, nextEvent, h]

theorem step_cons {s : State} {e : Event} {rest : List Event} (h : s.inbox = e :: rest) :
    step s = eventStep e { s with inbox := rest } := by
  simp [step, nextEvent, h]

/-- Everything a step can do. -/
theorem step_cases {s t : State} (h : step s = .next t) :
    (s.inbox = [] ∧ t = s) ∨
    ∃ e rest, s.inbox = e :: rest ∧ eventStep e { s with inbox := rest } = .next t := by
  cases hi : s.inbox with
  | nil =>
    rw [step_nil hi] at h
    exact .inl ⟨rfl, by simpa using h.symm⟩
  | cons e rest =>
    rw [step_cons hi] at h
    exact .inr ⟨e, rest, rfl, h⟩

theorem run_zero (s : State) : Sys2Proof.core.run 0 s = .next s := rfl

theorem run_succ_of_step {n : Nat} {s u : State} (h : step s = .next u) :
    Sys2Proof.core.run (n + 1) s = Sys2Proof.core.run n u := by
  have hs : Sys2Proof.core.step s = .next u := h
  simp only [Host.Core.run, hs]

theorem run_succ_of_fault {n : Nat} {s : State} {f : Fault} (h : step s = .fault f) :
    Sys2Proof.core.run (n + 1) s = .fault f := by
  have hs : Sys2Proof.core.step s = .fault f := h
  simp only [Host.Core.run, hs]

theorem run_succ_of_refused {n : Nat} {s : State} {r : Refusal} (h : step s = .refused r) :
    Sys2Proof.core.run (n + 1) s = .refused r := by
  have hs : Sys2Proof.core.step s = .refused r := h
  simp only [Host.Core.run, hs]

/-- A run that answers took a first step that answered. -/
theorem run_succ_next {n : Nat} {s t : State} (h : Sys2Proof.core.run (n + 1) s = .next t) :
    ∃ u, step s = .next u ∧ Sys2Proof.core.run n u = .next t := by
  cases hs : step s with
  | next u => exact ⟨u, rfl, run_succ_of_step hs ▸ h⟩
  | fault f => exact absurd ((run_succ_of_fault hs).symm.trans h) (by simp)
  | refused r => exact absurd ((run_succ_of_refused hs).symm.trans h) (by simp)

/-- A run of m + n steps is a run of m and then one of n. -/
theorem run_add {m n : Nat} {s u : State} (h : Sys2Proof.core.run m s = .next u) :
    Sys2Proof.core.run (m + n) s = Sys2Proof.core.run n u := by
  induction m generalizing s with
  | zero =>
    have hsu : s = u := Host.Outcome.next.inj ((run_zero s).symm.trans h)
    rw [hsu, Nat.zero_add]
  | succ m ih =>
    obtain ⟨v, hv, hrun⟩ := run_succ_next h
    rw [show m + 1 + n = m + n + 1 by omega, run_succ_of_step hv, ih hrun]

end Sys2Proof.Machine
end

