-- ==== Sys2Proof/Laws/PerInstr.lean ====
section
/-! SUPPORT. Statements about every command as syntax, proved constructor by constructor. -/

namespace Sys2Proof.Laws.EncodeSelectsItsRow

/-- The word of a command is selected by a row of the opcode map with the command's mnemonic (R64). -/
def Statement (i : Instr) : Prop := ∃ r ∈ opcodeMap, r.mnemonic = i.mnemonic ∧ r.selects (encode i) = true

theorem nop : Statement .nop := by
  unfold Statement
  decide

theorem crcInit : Statement .crcInit := by
  unfold Statement
  decide

theorem crcByte (b : Byte) : Statement (.crcByte b) := by
  refine ⟨⟨.CRC_BYTE, 0x02000000, 0xFFFFFF00⟩, by decide, rfl, (selectsB _ _ _).mpr ?_⟩
  have := b.isLt
  simp [encode, encodeB_toNat]
  omega

theorem sumInit : Statement .sumInit := by
  unfold Statement
  decide

theorem sumByte (b : Byte) : Statement (.sumByte b) := by
  refine ⟨⟨.SUM_BYTE, 0x04000000, 0xFFFFFF00⟩, by decide, rfl, (selectsB _ _ _).mpr ?_⟩
  have := b.isLt
  simp [encode, encodeB_toNat]
  omega

theorem encode (seq : Byte) (k : BitVec 11) : Statement (.encode seq k) := by
  refine ⟨⟨.ENCODE, 0x10000000, 0xFFF80000⟩, by decide, rfl, (selectsE _ _ _).mpr ?_⟩
  have := seq.isLt
  have := k.isLt
  simp [Sys2Proof.encode, encodeE_toNat]
  omega

theorem decode : Statement .decode := by
  unfold Statement
  decide

theorem strip : Statement .strip := by
  unfold Statement
  decide

theorem classify (b : Byte) : Statement (.classify b) := by
  refine ⟨⟨.CLASSIFY, 0x20000000, 0xFFFFFF00⟩, by decide, rfl, (selectsB _ _ _).mpr ?_⟩
  have := b.isLt
  simp [Sys2Proof.encode, encodeB_toNat]
  omega

theorem modesel (b : Byte) : Statement (.modesel b) := by
  refine ⟨⟨.MODESEL, 0x21000000, 0xFFFFFF00⟩, by decide, rfl, (selectsB _ _ _).mpr ?_⟩
  have := b.isLt
  simp [Sys2Proof.encode, encodeB_toNat]
  omega

theorem probeStart : Statement .probeStart := by
  unfold Statement
  decide

theorem probeCancel : Statement .probeCancel := by
  unfold Statement
  decide

theorem sessInit : Statement .sessInit := by
  unfold Statement
  decide

end Sys2Proof.Laws.EncodeSelectsItsRow
end

