-- ==== Sys2Proof/Tests/Slice0.lean ====
section
/-! SUPPORT. Small tests of single operations, their expected values taken from spec/95_test_vectors.md (the vector's
name stands in the comment) or from the rule named, and for every obligation with hypotheses a state and operands that
meet all of them. -/

namespace Sys2Proof.Tests

open Sys2Proof Sys2Proof.Machine

/-- Whether a result is a next state with a property. -/
def lands (r : Result) (p : State → Bool) : Bool :=
  match r with
  | .next t => p t
  | .fault _ => false
  | .refused _ => false

/-- Whether a result is this fault. -/
def faults (r : Result) (f : Fault) : Bool :=
  match r with
  | .next _ => false
  | .fault g => decide (g = f)
  | .refused _ => false

/-- A read's data. -/
def reads (r : Except Fault Word) (w : Word) : Bool :=
  match r with
  | .ok v => decide (v = w)
  | .error _ => false

/-- A state after reset with bytes in FBUF from index 0 on, and FLEN their number (R68, LOADF). -/
def framed (bs : List Byte) : State :=
  { State.reset with fbuf := fbufWriteBytes [] 0 bs, flen := BitVec.ofNat 11 bs.length }

/-- A state after reset in checksum mode with payload bytes loaded (R68, LOADP). -/
def loaded (bs : List Byte) : State := { State.reset with mode := .checksum, fbuf := fbufWriteBytes [] 3 bs }

/-- Bytes as cells from an index on. -/
def cells : Nat → List Byte → Memory
  | _, [] => []
  | i, b :: bs => (i, b) :: cells (i + 1) bs

/-- The frame A128(s, c, t) of spec/95_test_vectors.md, in checksum mode. -/
def a128 (s c t : Byte) : State :=
  { State.reset with
    mode := .checksum, flen := 132, fbuf := cells 0 ([0x01, s, c] ++ List.replicate 128 0x41 ++ [t]) }

/-- The negotiation of vector NG-11: CLAT 2, NLAT 3, ILAT 2. -/
def ng11 : State :=
  { State.reset with pstate := .crc, mode := .crc16, clat := 2, nlat := 3, ilat := 2, intervalMs := 2 }

/-! ### WellFormed: a spelling that each check refuses (R66) -/

theorem test_wf_accepts : Spelling.wellFormed ⟨.ENCODE, [255, 2047]⟩ = true := by decide
theorem test_wf_byte_range : Spelling.wellFormed ⟨.CRC_BYTE, [256]⟩ = false := by decide
theorem test_wf_seq_range : Spelling.wellFormed ⟨.ENCODE, [256, 0]⟩ = false := by decide
theorem test_wf_count_range : Spelling.wellFormed ⟨.ENCODE, [0, 2048]⟩ = false := by decide
theorem test_wf_byte_missing : Spelling.wellFormed ⟨.CLASSIFY, []⟩ = false := by decide
theorem test_wf_count_missing : Spelling.wellFormed ⟨.ENCODE, [3]⟩ = false := by decide
theorem test_wf_no_operand : Spelling.wellFormed ⟨.NOP, [0]⟩ = false := by decide
theorem test_assembler_refuses : assemble ⟨.MODESEL, [256]⟩ = none := by decide

/-! ### Decoding: each word written out from R61 to R64 -/

theorem test_decode_nop : decode 0b00000000_000000000000000000000000#32 = .ok .nop := rfl
theorem test_decode_crcInit : decode 0b00000001_000000000000000000000000#32 = .ok .crcInit := rfl
theorem test_decode_crcByte : decode 0b00000010_0000000000000000_00110001#32 = .ok (.crcByte 0x31) := rfl
theorem test_decode_sumInit : decode 0b00000011_000000000000000000000000#32 = .ok .sumInit := rfl
theorem test_decode_sumByte : decode 0b00000100_0000000000000000_00100000#32 = .ok (.sumByte 0x20) := rfl
theorem test_decode_encode : decode 0b00010000_00000_00000101100_00000011#32 = .ok (.encode 3 44) := rfl
theorem test_decode_decode : decode 0b00010001_000000000000000000000000#32 = .ok .decode := rfl
theorem test_decode_strip : decode 0b00010010_000000000000000000000000#32 = .ok .strip := rfl
theorem test_decode_classify : decode 0b00100000_0000000000000000_00000100#32 = .ok (.classify 4) := rfl
theorem test_decode_modesel : decode 0b00100001_0000000000000000_00010101#32 = .ok (.modesel 0x15) := rfl
theorem test_decode_probeStart : decode 0b00110000_000000000000000000000000#32 = .ok .probeStart := rfl
theorem test_decode_probeCancel : decode 0b00110001_000000000000000000000000#32 = .ok .probeCancel := rfl
theorem test_decode_sessInit : decode 0b00111111_000000000000000000000000#32 = .ok .sessInit := rfl
/-- CT-4 and CT-6 -/
theorem test_decode_illegal : decode 0x22000000 = .error (.unassignedOpcode 0x22) ∧
    decode 0x20000143 = .error (.reservedBits 0x20) := ⟨rfl, rfl⟩

/-! ### One command at a time -/

/-- CT-1 -/
theorem test_nop : lands (runCommand 0x00000000 ng11) (fun t => decide (t = ng11)) = true := by decide
/-- CT-2 -/
theorem test_nop_reserved : lands (runCommand 0x00000001 State.reset)
    (fun t => decide (t = { State.reset with errcode := .illegal, irqPend := 4 })) = true := by decide
/-- TE-30 -/
theorem test_crcInit : lands (runCommand 0x01000000 { State.reset with crc := 0xBEEF }) (fun t => t.crc == 0) = true := by
  decide
/-- TE-32 -/
theorem test_crcByte : lands (runCommand 0x02000032 { State.reset with crc := 0x2672 }) (fun t => t.crc == 0x20B5) =
    true := by decide
/-- TE-39 -/
theorem test_crcByte_reserved : lands (runCommand 0x02000131 { State.reset with crc := 0x1234 })
    (fun t => t.crc == 0x1234 && decide (t.errcode = .illegal) && t.irqPend == 4) = true := by decide
/-- TE-34 -/
theorem test_sumInit : lands (runCommand 0x03000000 { State.reset with sum := 0x7F }) (fun t => t.sum == 0) = true := by
  decide
/-- TE-35 and TE-36 -/
theorem test_sumByte : lands (runCommand 0x04000020 { State.reset with sum := 0xF0 }) (fun t => t.sum == 0x10) = true ∧
    lands (runCommand 0x04000001 { State.reset with sum := 0xFF }) (fun t => t.sum == 0x00) = true := by decide
/-- TE-11 -/
theorem test_crc16_check : crc16 [0x31, 0x32, 0x33, 0x34, 0x35, 0x36, 0x37, 0x38, 0x39] = 0x31C3 := by decide +kernel
/-- TE-19 and TE-28 -/
theorem test_crc16_residue : crc16 [0x01, 0x00] = 0x3331 ∧
    crc16 [0x31, 0x32, 0x33, 0x34, 0x35, 0x36, 0x37, 0x38, 0x39, 0x31, 0xC3] = 0 := by decide +kernel
/-- EN-1 -/
theorem test_encode : lands (runCommand 0x10002C03
    { State.reset with mode := .checksum, fbuf := cells 3 ((List.range 44).map (BitVec.ofNat 8)) })
    (fun t => t.fbuf.read 0 == some 0x01 && t.fbuf.read 1 == some 0x03 && t.fbuf.read 2 == some 0xFC &&
      t.fbuf.read 46 == some 0x2B && t.fbuf.read 47 == some 0x1A && t.fbuf.read 130 == some 0x1A &&
      t.fbuf.read 131 == some 0x3A && t.fbuf.read 132 == none && t.flen == 132) = true := by decide +kernel
/-- EN-12: ILLEGAL comes before RANGE -/
theorem test_encode_illegal_first : lands (runCommand 0x1008C800 State.reset) (fun t => decide (t.errcode = .illegal)) =
    true := by decide
/-- DE-6 -/
theorem test_decode_ok : lands (runCommand 0x11000000 (a128 0x01 0xFE 0x80))
    (fun t => dstatWord t.dstat == 0x01FE0191 && dtrlWord t.dtrl == 0x00800080 && t.tries == 0) = true := by
  decide +kernel
/-- DE-20 -/
theorem test_decode_sync : lands (runCommand 0x11000000 { a128 0x05 0xFA 0x80 with expseq := 3 })
    (fun t => dstatWord t.dstat == 0x01FA0535 && dtrlWord t.dtrl == 0 && t.tries == 1) = true := by decide +kernel
/-- ST-6 -/
theorem test_strip : lands (runCommand 0x12000000
    { State.reset with fbuf := cells 3 ([0x1A, 0x41] ++ List.replicate 126 0x1A) })
    (fun t => t.plen == 2) = true := by decide +kernel
/-- NG-3 and NG-7 -/
theorem test_classify : lands (runCommand 0x20000004 State.reset) (fun t => statusWord t == 0x00000301) = true ∧
    lands (runCommand 0x20000063 State.reset) (fun t => statusWord t == 0x00000001) = true := by decide
/-- NG-9 -/
theorem test_modesel : lands (runCommand 0x21000015 State.reset)
    (fun t => statusWord t == 0x00001502 && t.irqPend == 1) = true := by decide
/-- NG-9c -/
theorem test_modesel_probing : lands (runCommand 0x21000043 ng11)
    (fun t => statusWord t == 0x00030005 && t.irqPend == 4) = true := by decide
/-- NG-10 -/
theorem test_probeStart : lands (runCommand 0x30000000 State.reset)
    (fun t => statusWord t == 0x00000005 && t.clat == 2 && t.nlat == 300 && t.ilat == 3000 && t.ptick == 0) = true := by
  decide
/-- NG-14: no attempt, so the probing starts with NAK -/
theorem test_probeStart_no_crc : lands (runCommand 0x30000000
    { State.reset with cfg1 := { crcAttempts := 0, maxErrors := 1, timeoutS := 1, maxTimeouts := 5 } })
    (fun t => decide (t.pstate = .nak) && decide (t.mode = .checksum) && t.clat == 0 && t.nlat == 3) = true := by decide
/-- NG-25 -/
theorem test_probeCancel : lands (runCommand 0x31000000 { ng11 with pstate := .nak, mode := .checksum, nakn := 7, ptick := 1 })
    (fun t => decide (t.pstate = .idle) && t.nakn == 7 && t.ptick == 0) = true := by decide
/-- CT-7 -/
theorem test_sessInit : lands (runCommand 0x3F000000
    { State.reset with pstate := .failed, expseq := 9, tries := 4, errcode := .state, irqPend := 0xE, crc := 0x31C3, flen := 132 })
    (fun t => statusWord t == 0x00030001 && t.expseq == 1 && t.tries == 0 && t.irqPend == 0xE && t.crc == 0x31C3 &&
      t.flen == 132) = true := by decide

/-! ### Other events -/

/-- NG-20: the second tick is the first interval event, and it sends 'C' -/
theorem test_tick_interval : (tickEvent { ng11 with ptick := 1 }).txHistory = [{ step := 0, byte := 0x43 }] ∧
    (tickEvent { ng11 with ptick := 1 }).crcn = 1 ∧ (tickEvent { ng11 with ptick := 1 }).ptick = 0 := by decide
/-- NG-15: no NAK budget, so the fallback fails in the same interval event -/
theorem test_tick_fails : (tickEvent { ng11 with ptick := 1, crcn := 2, nlat := 0 }).pstate = .failed ∧
    (tickEvent { ng11 with ptick := 1, crcn := 2, nlat := 0 }).mode = .checksum ∧
    (tickEvent { ng11 with ptick := 1, crcn := 2, nlat := 0 }).txHistory = [] := by decide
/-- NG-21 -/
theorem test_snoop : statusWord (rxEvent 0x02 { ng11 with ptick := 1, crcn := 1 }) = 0x0000000F := by decide
/-- BA-1, BA-3 and NG-29: what a write stores -/
theorem test_masks : cfg0Word (cfg0OfWord 0xFFFFFFFF) = 0x0000FF1F ∧ intervalOfWord 0 = 1 ∧
    intervalOfWord 0xFFFF0BB8 = 0x0BB8 ∧ cfg1Word (cfg1OfWord 0xFFFFFFFF) = 0xFFFFFFFF := by decide
/-- IR-2 -/
theorem test_irq_clear : (clearPending 0x2 { State.reset with irqPend := 0xA }).irqPend = 0x8 := by decide
/-- BE-1 to BE-6 -/
theorem test_bus_errors : faults (eventStep (rd32 0 0x000) State.reset) (.busError .readOfCmd 0x000 4) = true ∧
    faults (eventStep (wr32 0 0x014 0) State.reset) (.busError .writeOfReadOnly 0x014 4) = true ∧
    faults (eventStep (rd8 0 0x004) State.reset) (.busError .registerShape 0x004 1) = true ∧
    faults (eventStep (rd32 0 0x404) State.reset) (.busError .fbufWidth 0x404 4) = true ∧
    faults (eventStep (rd8 0 0x805) State.reset) (.busError .reservedOffset 0x805 1) = true := by decide
/-- R46: a read of a byte that nothing wrote -/
theorem test_unwritten_read : faults (eventStep (rd8 0 0x804) State.reset) (.unwrittenRead 1028) = true := by decide
/-- IR-1 -/
theorem test_irq_line : lands (eventStep (wr32 0 0x040 0x1) { State.reset with irqPend := 0xA }) (fun t => !t.irq) = true ∧
    lands (eventStep (wr32 0 0x040 0x3) { State.reset with irqPend := 0xA }) (fun t => t.irq) = true := by decide
/-- R150: the very next step runs the placed word -/
theorem test_placed_word : lands (step (State.reset.withFetchWord 32 0x02000031)) (fun t => t.crc == 0x2672) = true := by
  decide
/-- R180: the values of section 2.7's table -/
theorem test_reset_reads : reads (readData 0x004 4 State.reset) 0x00000001 = true ∧
    reads (readData 0x00C 4 State.reset) 0x050A0A03 = true := by decide

/-! ### States and operands that meet the obligations' hypotheses -/

/-- 128 payload bytes, loaded. -/
def block : List Byte := List.replicate 128 0x41

theorem loaded_held (bs : List Byte) : holdsBytes (loaded bs).fbuf 3 bs :=
  fun _ hj => fbufWriteBytes_read_inside [] 3 _ bs hj

theorem loaded_payloadLen (bs : List Byte) : payloadLen (loaded bs) = 128 := rfl

theorem framed_read (bs : List Byte) (i : Nat) (h : i < bs.length) : (framed bs).fbuf.read i = some bs[i] := by
  have := fbufWriteBytes_read_inside [] 0 i bs h
  rwa [Nat.zero_add] at this

theorem framed_payload (a b c : Byte) (p rest : List Byte) :
    holdsBytes (framed (a :: b :: c :: (p ++ rest))).fbuf 3 p := by
  intro j hj
  rw [framed_read _ _ (by simp; omega)]
  simp only [show 3 + j = j + 1 + 1 + 1 by omega, List.getElem_cons_succ, List.getElem_append_left hj]

theorem block_length : block.length = 128 := List.length_replicate

theorem witness_OpcodeMapSelectsTheCommand :
    (∃ r ∈ opcodeMap, r.selects 0x1007FFFF = true) ∧ decode 0x1007FFFF = .ok (.encode 255 2047) := by
  exact ⟨⟨⟨.ENCODE, 0x10000000, 0xFFF80000⟩, by decide, by decide⟩, rfl⟩

theorem witness_DecodeOfEncodeIsTheCommand : (Instr.encode 255 2047).wellFormed = true := by decide

theorem witness_DecodedWordIsItsEncoding : decode 0x1007FFFF = .ok (.encode 255 2047) ∧
    decode 0x020000FF = .ok (.crcByte 255) ∧ decode 0x040000FF = .ok (.sumByte 255) ∧
    decode 0x200000FF = .ok (.classify 255) ∧ decode 0x210000FF = .ok (.modesel 255) := ⟨rfl, rfl, rfl, rfl, rfl⟩

theorem witness_IllegalWordIsRefused : (∀ r ∈ opcodeMap, r.selects 0x3F000001 = false) ∧
    decode 0xFF000000 = .error (.unassignedOpcode 0xFF) ∧ decode 0x10080000 = .error (.reservedBits 0x10) ∧
    decode 0x02000100 = .error (.reservedBits 0x02) ∧ decode 0x3F000001 = .error (.reservedBits 0x3F) :=
  ⟨by decide, rfl, rfl, rfl, rfl⟩

theorem witness_AssemblerFollowsTheSyntax : assemble ⟨.ENCODE, [255, 2047]⟩ = some 0x1007FFFF := by decide

/-- A host write of CMD waiting. -/
def commanded (w : Word) : State := { State.reset with inbox := [.busWrite 0 4 w] }

theorem witness_StepRunsTheDecodedCommand :
    (commanded 0x3F000000).inbox = .busWrite (commanded 0x3F000000).params.base 4 0x3F000000 :: [] ∧
    decode 0x3F000000 = .ok .sessInit ∧
    (commanded 0xFF000000).inbox = .busWrite (commanded 0xFF000000).params.base 4 0xFF000000 :: [] ∧
    decode 0xFF000000 = .error (.unassignedOpcode 0xFF) := ⟨rfl, rfl, rfl, rfl⟩

theorem witness_PlacedWordRunsNext : 0x1007FFFF < 2 ^ 32 ∧ decodeTableWord 32 0x1007FFFF = some (.encode 255 2047) := by
  decide

theorem witness_StepProcessesOneEvent :
    ∃ t, (commanded 0x3F000000).inbox = .busWrite 0 4 0x3F000000 :: [] ∧ step (commanded 0x3F000000) = .next t :=
  ⟨_, rfl, rfl⟩

theorem witness_OnlyHostAccessesFault :
    step { State.reset with inbox := [.busRead 0 4] } = .fault (.busError .readOfCmd 0 4) ∧
    ∀ e ∈ { State.reset with inbox := [.tick, .reset, .rx 0x01] }.inbox, e = .tick ∨ e = .reset ∨ ∃ b, e = .rx b := by
  refine ⟨rfl, fun e he => ?_⟩
  rcases List.mem_cons.mp he with rfl | he
  · exact .inl rfl
  · rcases List.mem_cons.mp he with rfl | he
    · exact .inr (.inl rfl)
    · exact .inr (.inr ⟨0x01, by simpa using he⟩)

/-- The invariant holds of a probing state. -/
theorem invariant_ng11 : Invariant ng11 := by constructor <;> decide

theorem witness_EveryStepKeepsTheInvariant :
    ∃ s t, Invariant s ∧ s.inbox = [.tick] ∧ step s = .next t :=
  ⟨{ ng11 with inbox := [.tick] }, _, invariant_ng11.withInbox _, rfl, rfl⟩

theorem witness_AccessesReachTheWindow : 0x804 < 4096 ∧ readData 0x040 4 State.reset = .ok 0 ∧
    readData 0x804 1 State.reset = .error (.unwrittenRead 1028) ∧
    (4096 < { Params.default with base := 8192 }.base ∨ { Params.default with base := 8192 }.base + 4096 ≤ 4096) ∧
    (12288 < { Params.default with base := 8192 }.base ∨ { Params.default with base := 8192 }.base + 4096 ≤ 12288) :=
  ⟨by decide, rfl, rfl, by decide, by decide⟩

theorem witness_BusErrorsExactlyWhere : 0xFFF < 4096 ∧
    readData 0x043 4 State.reset = .error (.busError .registerShape 0x043 4) ∧
    readData 0x000 4 State.reset = .error (.busError .readOfCmd 0x000 4) ∧ readData 0x040 4 State.reset = .ok 0 ∧
    readData 0x044 4 State.reset = .error (.busError .reservedOffset 0x044 4) ∧
    readData 0x3FF 1 State.reset = .error (.busError .reservedOffset 0x3FF 1) ∧
    readData 0x400 4 State.reset = .error (.busError .fbufWidth 0x400 4) ∧
    readData 0x804 1 State.reset = .error (.unwrittenRead 1028) ∧
    readData 0x805 1 State.reset = .error (.busError .reservedOffset 0x805 1) := by
  refine ⟨by decide, rfl, rfl, rfl, rfl, rfl, rfl, rfl, rfl⟩

theorem witness_ReadsHaveNoSideEffect : ∃ t, eventStep (.busRead 0x040 4) State.reset = .next t := ⟨_, rfl⟩

theorem witness_FbufBytesReadBack : 1028 < 1029 ∧ State.reset.fbuf.read 1028 = none ∧
    ({ State.reset with fbuf := [(1028, 0xA7)] } : State).fbuf.read 1028 = some 0xA7 := by decide

/-- Words of each format with one reserved bit set, lowest and highest. -/
theorem witness_reserved_bits :
    ((0x01000001 : Word).toNat / 2 ^ 24 = 0x01 ∧ (0x01000001 : Word).toNat % 2 ^ 24 ≠ 0) ∧
    ((0x02000100 : Word).toNat / 2 ^ 24 = 0x02 ∧ (0x02000100 : Word).toNat / 2 ^ 8 % 2 ^ 16 ≠ 0) ∧
    ((0x03800000 : Word).toNat / 2 ^ 24 = 0x03 ∧ (0x03800000 : Word).toNat % 2 ^ 24 ≠ 0) ∧
    ((0x04800000 : Word).toNat / 2 ^ 24 = 0x04 ∧ (0x04800000 : Word).toNat / 2 ^ 8 % 2 ^ 16 ≠ 0) ∧
    ((0x10080000 : Word).toNat / 2 ^ 24 = 0x10 ∧ (0x10080000 : Word).toNat / 2 ^ 19 % 2 ^ 5 ≠ 0) ∧
    ((0x12000001 : Word).toNat / 2 ^ 24 = 0x12 ∧ (0x12000001 : Word).toNat % 2 ^ 24 ≠ 0) ∧
    ((0x20000100 : Word).toNat / 2 ^ 24 = 0x20 ∧ (0x20000100 : Word).toNat / 2 ^ 8 % 2 ^ 16 ≠ 0) ∧
    ((0x21800000 : Word).toNat / 2 ^ 24 = 0x21 ∧ (0x21800000 : Word).toNat / 2 ^ 8 % 2 ^ 16 ≠ 0) ∧
    ((0x30000001 : Word).toNat / 2 ^ 24 = 0x30 ∧ (0x30000001 : Word).toNat % 2 ^ 24 ≠ 0) ∧
    ((0x31800000 : Word).toNat / 2 ^ 24 = 0x31 ∧ (0x31800000 : Word).toNat % 2 ^ 24 ≠ 0) ∧
    ((0x00000001 : Word).toNat / 2 ^ 24 = 0x00 ∧ (0x00000001 : Word).toNat % 2 ^ 24 ≠ 0) ∧
    ((0x3F000001 : Word).toNat / 2 ^ 24 = 0x3F ∧ (0x3F000001 : Word).toNat % 2 ^ 24 ≠ 0) := by decide

theorem witness_CrcCommandsStreamTheCrc :
    (0x01000001 : Word).toNat % 2 ^ 24 ≠ 0 ∧ (0x02000100 : Word).toNat / 2 ^ 8 % 2 ^ 16 ≠ 0 :=
  ⟨witness_reserved_bits.1.2, witness_reserved_bits.2.1.2⟩

theorem witness_SumCommandsStreamTheSum :
    (0x03800000 : Word).toNat % 2 ^ 24 ≠ 0 ∧ (0x04800000 : Word).toNat / 2 ^ 8 % 2 ^ 16 ≠ 0 :=
  ⟨witness_reserved_bits.2.2.1.2, witness_reserved_bits.2.2.2.1.2⟩

theorem witness_AccumulatorsAndCodecAreIndependent : ∃ t, exec .decode (framed [0x01]) = .next t := ⟨_, rfl⟩

theorem witness_EncodeBuildsTheFrame : (128 : BitVec 11).toNat ≤ payloadLen (loaded block) ∧
    block.length = (128 : BitVec 11).toNat ∧ holdsBytes (loaded block).fbuf 3 block ∧
    payloadLen (loaded block) < (129 : BitVec 11).toNat ∧
    (∀ i < 2, (loaded [1, 2]).fbuf.read (3 + i) ≠ none) ∧ (loaded [1, 2]).fbuf.read (3 + 2) = none := by
  rw [loaded_payloadLen, block_length]
  exact ⟨by decide, by decide, loaded_held block, by decide, by decide, by decide⟩

theorem witness_EncodeIsRepeatable : ∃ t t',
    (∀ j < (1 : BitVec 11).toNat, (loaded [7]).fbuf.read (3 + j) = (loaded [7, 8]).fbuf.read (3 + j)) ∧
    exec (.encode 0 1) (loaded [7]) = .next t ∧ exec (.encode 0 1) (loaded [7, 8]) = .next t' := by
  obtain ⟨t, ht⟩ := execEncode_completes (s := loaded [7]) 0 (k := 1) (by decide) (by decide)
  obtain ⟨t', ht'⟩ := execEncode_completes (s := loaded [7, 8]) 0 (k := 1) (by decide) (by decide)
  exact ⟨t, t', by decide, ht, ht'⟩

theorem witness_DecodeAnswersNotFrame : State.reset.flen = 0 ∧ (framed [0x04]).flen ≠ 0 ∧
    (framed [0x04]).fbuf.read 0 = some 0x04 ∧ ¬ acceptedControl 0x04 (framed [0x04]) ∧
    (framed [0x02]).fbuf.read 0 = some 0x02 ∧ ¬ acceptedControl 0x02 (framed [0x02]) := by
  simp only [acceptedControl]
  decide

/-- A header of three bytes, held. -/
theorem header_held (q r : Byte) (rest : List Byte) (h : 3 ≤ (framed (0x01 :: q :: r :: rest)).flen.toNat) :
    HeaderHeld (framed (0x01 :: q :: r :: rest)) 0x01 q r where
  longEnough := h
  ctrlByte := framed_read _ 0 (by simp)
  seqByte := framed_read _ 1 (by simp)
  cseqByte := framed_read _ 2 (by simp)
  accepted := .inl rfl

theorem witness_DecodeRejectsHeaderAndLength :
    ((framed [0x01, 0x01]).flen ≠ 0 ∧ (framed [0x01, 0x01]).flen.toNat < 3 ∧
      (framed [0x01, 0x01]).fbuf.read 0 = some 0x01 ∧ acceptedControl 0x01 (framed [0x01, 0x01])) ∧
    (HeaderHeld (framed [0x01, 0x80, 0x80]) 0x01 0x80 0x80 ∧ (0x80 : Byte).toNat + (0x80 : Byte).toNat ≠ 0xFF) ∧
    (HeaderHeld (framed [0x01, 0x01, 0xFE]) 0x01 0x01 0xFE ∧ (0x01 : Byte).toNat + (0xFE : Byte).toNat = 0xFF ∧
      (framed [0x01, 0x01, 0xFE]).flen.toNat ≠
        3 + payloadLen (framed [0x01, 0x01, 0xFE]) + trailerLen (framed [0x01, 0x01, 0xFE])) :=
  ⟨⟨by decide, by decide, by decide, .inl rfl⟩, ⟨header_held _ _ _ (by decide), by decide⟩,
    ⟨header_held _ _ _ (by decide), by decide, by decide⟩⟩

/-- A whole frame of the default block size in crc16 mode, its payload and a trailer. -/
def wholeFrame (q r hi lo : Byte) : State := framed (0x01 :: q :: r :: (block ++ [hi, lo]))

theorem whole_flen (q r hi lo : Byte) : (wholeFrame q r hi lo).flen = 133 := by
  simp [wholeFrame, framed, block]

theorem whole_lengths (q r hi lo : Byte) :
    payloadLen (wholeFrame q r hi lo) = 128 ∧ trailerLen (wholeFrame q r hi lo) = 2 := ⟨rfl, rfl⟩

theorem whole_header (q r hi lo : Byte) : HeaderHeld (wholeFrame q r hi lo) 0x01 q r :=
  header_held q r _ (by rw [show framed _ = wholeFrame q r hi lo from rfl, whole_flen]; decide)

theorem witness_DecodeAnswersSequenceMismatch : HeaderHeld (wholeFrame 0x05 0xFA 0x1C 0xCE) 0x01 0x05 0xFA ∧
    (0x05 : Byte).toNat + (0xFA : Byte).toNat = 0xFF ∧
    (wholeFrame 0x05 0xFA 0x1C 0xCE).flen.toNat =
      3 + payloadLen (wholeFrame 0x05 0xFA 0x1C 0xCE) + trailerLen (wholeFrame 0x05 0xFA 0x1C 0xCE) ∧
    0x05 ≠ (wholeFrame 0x05 0xFA 0x1C 0xCE).expseq := by
  rw [whole_flen, (whole_lengths _ _ _ _).1, (whole_lengths _ _ _ _).2]
  exact ⟨whole_header _ _ _ _, by decide, by decide, by decide⟩

theorem witness_DecodeJudgesTheTrailer : HeaderHeld (wholeFrame 0x01 0xFE 0x1C 0xCE) 0x01 0x01 0xFE ∧
    (0x01 : Byte).toNat + (0xFE : Byte).toNat = 0xFF ∧
    (wholeFrame 0x01 0xFE 0x1C 0xCE).flen.toNat =
      3 + payloadLen (wholeFrame 0x01 0xFE 0x1C 0xCE) + trailerLen (wholeFrame 0x01 0xFE 0x1C 0xCE) ∧
    0x01 = (wholeFrame 0x01 0xFE 0x1C 0xCE).expseq ∧ block.length = payloadLen (wholeFrame 0x01 0xFE 0x1C 0xCE) ∧
    holdsBytes (wholeFrame 0x01 0xFE 0x1C 0xCE).fbuf 3 block ∧
    (wholeFrame 0x01 0xFE 0x1C 0xCE).fbuf.read (3 + 128) = some 0x1C ∧
    (wholeFrame 0x01 0xFE 0x1C 0xCE).fbuf.read (4 + 128) = some 0xCE := by
  rw [whole_flen, (whole_lengths _ _ _ _).1, (whole_lengths _ _ _ _).2, block_length]
  refine ⟨whole_header _ _ _ _, by decide, by decide, by decide, rfl, framed_payload _ _ _ _ _, ?_, ?_⟩
  · unfold wholeFrame
    rw [framed_read _ _ (by simp [block])]
    simp [block]
  · unfold wholeFrame
    rw [framed_read _ _ (by simp [block])]
    simp [block]

theorem witness_DecodeFaultsOnlyOnUnwrittenBytes :
    (∀ i < (framed [0x01, 0x01]).flen.toNat, (framed [0x01, 0x01]).fbuf.read i ≠ none) ∧
    exec .decode { State.reset with flen := 1 } = .fault (.unwrittenRead 0) := ⟨by decide, rfl⟩

theorem witness_TriesCountsFramesAndBoundsNaks :
    (∃ t, exec .decode { framed [0x01] with tries := 9 } = .next t ∧ t.dstat.result = .integrity ∧ t.tries.toNat = 10) ∧
    (∃ t, exec .decode { framed [0x01] with tries := 10 } = .next t ∧ t.dstat.result = .integrity ∧ t.tries.toNat = 11) ∧
    ∃ t, exec .decode { framed [0x01] with tries := 0xFFFF } = .next t ∧ t.tries = 0xFFFF :=
  ⟨⟨_, rfl, by decide, by decide⟩, ⟨_, rfl, by decide, by decide⟩, _, rfl, by decide⟩

theorem witness_DecodeSetsOnlyReachedFields :
    ∃ t, exec .decode (framed [0x01, 0x01, 0xFE]) = .next t ∧ t.dstat.result = .size := ⟨_, rfl, by decide⟩

/-- One written byte, the last of the payload. -/
def lastByte : State := { State.reset with fbuf := [(130, 0x41)] }

theorem witness_CodecCommandsKeepTheRest : (∃ t, exec .decode State.reset = .next t) ∧
    (∃ t, exec .strip lastByte = .next t) ∧
    (1 : BitVec 11).toNat ≤ payloadLen (loaded [7]) ∧ ∃ t, exec (.encode 0 1) (loaded [7]) = .next t := by
  have h := execEncode_completes (s := loaded [7]) 0 (k := 1) (by decide) (by decide)
  exact ⟨⟨_, rfl⟩, ⟨_, rfl⟩, by decide, h⟩

theorem witness_EncodeThenDecodeRoundTrips : block.length = payloadLen (loaded block) ∧
    holdsBytes (loaded block).fbuf 3 block ∧ (loaded block).cfg0.bsize = .b128 := by
  rw [loaded_payloadLen]
  exact ⟨block_length, loaded_held block, rfl⟩

theorem witness_StripDropsTrailingFiller :
    (128 ≤ payloadLen lastByte ∧ (∀ j, 128 ≤ j → j < payloadLen lastByte → lastByte.fbuf.read (3 + j) = some 0x1A) ∧
      lastByte.fbuf.read (3 + 127) = some 0x41) ∧
    (127 < payloadLen State.reset ∧
      (∀ j, 127 < j → j < payloadLen State.reset → State.reset.fbuf.read (3 + j) = some 0x1A) ∧
      State.reset.fbuf.read (3 + 127) = none) := by
  rw [show payloadLen lastByte = 128 from rfl, show payloadLen State.reset = 128 from rfl]
  exact ⟨⟨by decide, fun j h h' => by omega, rfl⟩, by decide, fun j h h' => by omega, rfl⟩

theorem witness_ClassifyStoresTheClass : paramsWf State.reset.params = true ∧ State.reset.params.eot = 0x04 ∧
    State.reset.params.ack = 0x06 ∧ State.reset.params.nak = 0x15 ∧
    paramsWf { Params.default with base := 4096, nak := 0xFF } = true := by decide

theorem witness_ModeselSelectsOnce : ng11.pstate ≠ .idle ∧ State.reset.pstate = .idle ∧ State.reset.mlock = false ∧
    paramsWf State.reset.params = true ∧ ({ State.reset with mlock := true } : State).mlock = true ∧
    ((0x44 : Byte) ≠ 0x43 ∧ (0x44 : Byte) ≠ State.reset.params.nak) := by decide

theorem witness_ProbeStartLatchesAndStarts : ng11.pstate ≠ .idle ∧ ({ State.reset with mlock := true } : State).mlock = true ∧
    State.reset.pstate = .idle ∧ State.reset.mlock = false := by decide

theorem witness_ProbeCancelIsIdempotent : ng11.pstate = .crc ∧ State.reset.pstate ≠ .crc ∧ State.reset.pstate ≠ .nak ∧
    ∃ t, exec .probeCancel ng11 = .next t := ⟨rfl, by decide, by decide, _, rfl⟩

/-- NG-11 at an interval event, with these numbers of probes sent. -/
def due (p : ProbeState) (c : BitVec 8) (n : BitVec 18) : State :=
  { ng11 with pstate := p, mode := if p = .crc then .crc16 else .checksum, ptick := 1, crcn := c, nakn := n }

theorem witness_TickAndIntervalEvent : State.reset.pstate ≠ .crc ∧ State.reset.pstate ≠ .nak ∧
    (probing ng11 = true ∧ ng11.ptick.toNat + 1 ≠ ng11.ilat.toNat) ∧
    ((due .crc 1 0).ptick.toNat + 1 = (due .crc 1 0).ilat.toNat ∧ (due .crc 1 0).crcn.toNat < (due .crc 1 0).clat.toNat) ∧
    (intervalDue (due .crc 2 0) ∧ ¬ (due .crc 2 0).crcn.toNat < (due .crc 2 0).clat.toNat ∧
      (due .crc 2 0).nakn.toNat < (due .crc 2 0).nlat.toNat) ∧
    (intervalDue (due .nak 2 2) ∧ (due .nak 2 2).nakn.toNat < (due .nak 2 2).nlat.toNat) ∧
    (intervalDue (due .nak 2 3) ∧ ¬ (due .nak 2 3).nakn.toNat < (due .nak 2 3).nlat.toNat) := by
  unfold intervalDue
  decide

theorem witness_SnoopEndsProbing : probing ng11 = true ∧ probing State.reset = false ∧
    ((0x43 : Byte) ≠ 0x01 ∧ (0x43 : Byte) ≠ 0x02) := by decide

theorem witness_RunningProbeReadsItsLatches : ((∃ t, exec .sessInit ng11 = .next t) ∧ Instr.sessInit ≠ .probeStart) ∧
    (∃ t, eventStep (cmd 0 .probeStart) { State.reset with intervalMs := 2 } = .next t ∧ t.ilat ≠ State.reset.ilat) ∧
    ∃ t, eventStep .reset ng11 = .next t ∧ t.nlat ≠ ng11.nlat :=
  ⟨⟨⟨_, rfl⟩, by decide⟩, ⟨_, rfl, by decide⟩, _, rfl, by decide⟩

/-- One step that changes PSTATE for each kind of row of R120's table. -/
theorem witness_ProbeStateTransitions :
    lands (eventStep (cmd 0 .probeStart) State.reset) (fun t => decide (t.pstate = .crc)) = true ∧
    lands (eventStep .tick (due .crc 2 0)) (fun t => decide (t.pstate = .nak)) = true ∧
    lands (eventStep .tick (due .nak 2 3)) (fun t => decide (t.pstate = .failed)) = true ∧
    lands (eventStep (.rx 0x02) ng11) (fun t => decide (t.pstate = .done)) = true ∧
    lands (eventStep (cmd 0 .probeCancel) ng11) (fun t => decide (t.pstate = .idle)) = true ∧
    lands (eventStep (cmd 0 .sessInit) ng11) (fun t => decide (t.pstate = .idle)) = true ∧
    lands (eventStep .reset ng11) (fun t => decide (t.pstate = .idle)) = true := by decide

theorem witness_OnlyIntervalEventsTransmit :
    ∃ t, eventStep .tick (due .crc 1 0) = .next t ∧ t.txHistory ≠ (due .crc 1 0).txHistory := ⟨_, rfl, by decide⟩

/-- A whole negotiation of NG-11: the failure comes at tick 12. -/
theorem witness_NegotiationTimeline : ∃ s : State, Invariant s ∧ probing s = true ∧ s.crcn = 0 ∧ s.nakn = 0 ∧ s.ptick = 0 ∧
    s.inbox = List.replicate 12 .tick ++ [] :=
  ⟨{ ng11 with inbox := List.replicate 12 .tick }, invariant_ng11.withInbox _, by decide, rfl, rfl, rfl, rfl⟩

theorem witness_NoProbeAfterCancellation : ∃ t, probing State.reset = false ∧
    (∀ e ∈ ({ State.reset with inbox := [.tick, .rx 0x01] } : State).inbox.take 2,
      commandOf e { State.reset with inbox := [.tick, .rx 0x01] } ≠ some .probeStart) ∧
    Sys2Proof.core.run 2 { State.reset with inbox := [.tick, .rx 0x01] } = .next t :=
  ⟨_, rfl, by decide, rfl⟩

/-- A locked session with a PROBE_START, a MODESEL and a tick waiting. -/
def lockedBusy : State :=
  { State.reset with mlock := true, inbox := [cmd 0 .probeStart, cmd 0 (.modesel 0x15), .tick] }

theorem witness_LockedModeStaysForTheSession : ∃ t, Invariant lockedBusy ∧ lockedBusy.mlock = true ∧
    (∀ e ∈ lockedBusy.inbox.take 3, commandOf e lockedBusy ≠ some .sessInit ∧ e ≠ .reset) ∧
    Sys2Proof.core.run 3 lockedBusy = .next t :=
  ⟨_, by constructor <;> decide, rfl, by decide, rfl⟩

theorem witness_LockedModeStays_lock : ∃ t, eventStep (.rx 0x01) ng11 = .next t ∧ ng11.mlock = false ∧ t.mlock = true :=
  ⟨_, rfl, rfl, rfl⟩

/-- A finished negotiation with a tick and a PROBE_CANCEL waiting. -/
def doneBusy : State :=
  { State.reset with pstate := .done, mlock := true, inbox := [.tick, cmd 0 .probeCancel] }

theorem witness_DoneAndFailedAreFinal : ∃ t, doneBusy.pstate = .done ∧
    (∀ e ∈ doneBusy.inbox.take 2, commandOf e doneBusy ≠ some .sessInit ∧ e ≠ .reset) ∧
    Sys2Proof.core.run 2 doneBusy = .next t := ⟨_, rfl, by decide, rfl⟩

theorem witness_NopChangesNothing :
    (0x00000001 : Word).toNat / 2 ^ 24 = 0x00 ∧ (0x00000001 : Word).toNat % 2 ^ 24 ≠ 0 := by decide

theorem witness_SessInitStartsASession : (∃ t, exec .sessInit ng11 = .next t) ∧ (0x3F000001 : Word).toNat % 2 ^ 24 ≠ 0 :=
  ⟨⟨_, rfl⟩, by decide⟩

theorem witness_RefusalsArePreciseAndExact : wordRefusal 0x10008100 State.reset = some .range ∧
    wordRefusal 0x30000000 ng11 = some .state ∧ wordRefusal 0x00000001 State.reset = some .illegal ∧
    wordRefusal 0x10008000 State.reset = none ∧ wordRefusal 0x21000043 State.reset = none ∧
    ∃ t, runCommand 0x21000043 State.reset = .next t := ⟨rfl, rfl, rfl, rfl, rfl, _, rfl⟩

theorem witness_PendingBitsSetByTheirCauses :
    irqCause .negDone (.rx 0x01) ng11 ∧ irqCause .negFail .tick (due .nak 2 3) ∧ irqCause .probeTx .tick (due .nak 2 2) ∧
    irqCause .cmdErr (.busWrite 0 4 0x05000000) State.reset ∧
    ∃ t, eventStep (.rx 0x01) ng11 = .next t ∧ isPending .negDone t = true := by
  refine ⟨.inl ⟨rfl, .inl rfl⟩, ?_, ?_, ⟨_, rfl, by decide⟩, _, rfl, rfl⟩
  · unfold irqCause intervalDue probeDue
    decide
  · unfold irqCause intervalDue probeDue
    decide

theorem witness_IrqLineIsALevel :
    (∃ t, eventStep (wr32 0 0x03C 0x4) { State.reset with irqPend := 0x4 } = .next t ∧ isPending .cmdErr t = false) ∧
    isPending .cmdErr { State.reset with irqPend := 0x4 } = true ∧ (∃ t, exec .sessInit State.reset = .next t) ∧
    ∃ t, writeOffset 0x040 4 0xF State.reset = .next t := ⟨⟨_, rfl, rfl⟩, rfl, ⟨_, rfl⟩, _, rfl⟩

end Sys2Proof.Tests
end

/-! What an event leaves alone and what it adds: the waiting events, the step number and the parameters are kept by every
event, bus replies are added by reads alone and sent bytes by ticks alone. -/

namespace Sys2Proof.Machine

/-- From `s` to `t` the waiting events, the step number and the parameters are kept, and `replies` and `sent` are what was
added at the end of the two histories (R38, R51). -/
structure Adds (replies : List BusReply) (sent : List TxRecord) (s t : State) : Prop where
  inbox : t.inbox = s.inbox
  stepNo : t.stepNo = s.stepNo
  params : t.params = s.params
  replies : t.replies = s.replies ++ replies
  sent : t.txHistory = s.txHistory ++ sent

theorem Adds.nothing {s t : State} (hi : t.inbox = s.inbox) (hn : t.stepNo = s.stepNo) (hp : t.params = s.params)
    (hr : t.replies = s.replies) (hx : t.txHistory = s.txHistory) : Adds [] [] s t :=
  ⟨hi, hn, hp, by simpa using hr, by simpa using hx⟩

/-- A change that adds nothing, made first, leaves what a later one adds. -/
theorem Adds.after_nothing {r : List BusReply} {l : List TxRecord} {s u t : State} (h' : Adds r l u t)
    (h : Adds [] [] s u) : Adds r l s t where
  inbox := h'.inbox.trans h.inbox
  stepNo := h'.stepNo.trans h.stepNo
  params := h'.params.trans h.params
  replies := by rw [h'.replies, h.replies, List.append_nil]
  sent := by rw [h'.sent, h.sent, List.append_nil]

theorem raiseCmdError_adds (c : ErrCode) (s : State) : Adds [] [] s (raiseCmdError c s) := .nothing rfl rfl rfl rfl rfl

theorem startProbe_adds (s : State) : Adds [] [] s (startProbe s) := by
  unfold startProbe
  extract_lets latched
  split
  · exact .nothing rfl rfl rfl rfl rfl
  · exact .nothing rfl rfl rfl rfl rfl

/-- A command answers the host nothing and sends nothing (R121: only the interval event sends). -/
theorem exec_adds {i : Instr} {s t : State} (h : exec i s = .next t) : Adds [] [] s t := by
  cases i with
  | nop | crcInit | crcByte | sumInit | sumByte | classify | sessInit =>
    obtain rfl := Host.Outcome.next.inj h
    exact .nothing rfl rfl rfl rfl rfl
  | encode q k =>
    obtain ⟨-, rfl⟩ | ⟨-, m, -, rfl⟩ := execEncode_next h
    · exact raiseCmdError_adds _ s
    · exact .nothing rfl rfl rfl rfl rfl
  | decode =>
    obtain ⟨v, -, rfl⟩ := execDecode_next h
    exact .nothing rfl rfl rfl rfl rfl
  | strip =>
    obtain ⟨l, -, rfl⟩ := execStrip_next h
    exact .nothing rfl rfl rfl rfl rfl
  | modesel b =>
    obtain ⟨-, rfl⟩ | ⟨-, -, -, rfl⟩ | ⟨-, -, -, -, rfl⟩ | ⟨-, -, rfl⟩ := execModesel_next h
    · exact raiseCmdError_adds _ s
    all_goals exact .nothing rfl rfl rfl rfl rfl
  | probeStart =>
    obtain ⟨-, rfl⟩ | ⟨-, -, rfl⟩ := execProbeStart_next h
    · exact raiseCmdError_adds _ s
    · exact startProbe_adds s
  | probeCancel =>
    obtain ⟨-, rfl⟩ | ⟨-, rfl⟩ := execProbeCancel_next h
    all_goals exact .nothing rfl rfl rfl rfl rfl

theorem regWrite_adds {r : Reg} {v : Word} {s t : State} (h : regWrite r v s = some t) : Adds [] [] s t := by
  obtain ⟨-, rfl⟩ | ⟨-, rfl⟩ | ⟨-, rfl⟩ | ⟨-, rfl⟩ | ⟨-, rfl⟩ | ⟨-, rfl⟩ | ⟨-, rfl⟩ := regWrite_some h
  all_goals exact .nothing rfl rfl rfl rfl rfl

/-- The NAK branch of the interval event sends one byte or none (R127). -/
theorem nakInterval_adds (s : State) : ∃ l, l.length ≤ 1 ∧ Adds [] l s (nakInterval s) := by
  unfold nakInterval
  split
  · exact ⟨[_], Nat.le_refl 1, rfl, rfl, rfl, (List.append_nil _).symm, rfl⟩
  · exact ⟨[], Nat.zero_le 1, .nothing rfl rfl rfl rfl rfl⟩

/-- The interval event sends one byte or none: the fallback to checksum sends its first NAK and no 'C' (R127). -/
theorem intervalEvent_adds (s : State) : ∃ l, l.length ≤ 1 ∧ Adds [] l s (intervalEvent s) := by
  unfold intervalEvent
  split
  · split
    · exact ⟨[_], Nat.le_refl 1, rfl, rfl, rfl, (List.append_nil _).symm, rfl⟩
    · obtain ⟨l, hl, hadds⟩ := nakInterval_adds { s with pstate := .nak, mode := .checksum }
      exact ⟨l, hl, hadds.after_nothing (.nothing rfl rfl rfl rfl rfl)⟩
  · exact nakInterval_adds s

theorem tickEvent_adds (s : State) : ∃ l, l.length ≤ 1 ∧ Adds [] l s (tickEvent s) := by
  unfold tickEvent
  split
  · split
    · obtain ⟨l, hl, hadds⟩ := intervalEvent_adds { s with ptick := 0 }
      exact ⟨l, hl, hadds.after_nothing (.nothing rfl rfl rfl rfl rfl)⟩
    · exact ⟨[], Nat.zero_le 1, .nothing rfl rfl rfl rfl rfl⟩
  · exact ⟨[], Nat.zero_le 1, .nothing rfl rfl rfl rfl rfl⟩

theorem rxEvent_adds (b : Byte) (s : State) : Adds [] [] s (rxEvent b s) := by
  unfold rxEvent
  split
  · exact .nothing rfl rfl rfl rfl rfl
  · exact .nothing rfl rfl rfl rfl rfl

@[simp] theorem tickEvent_stepNo (s : State) : (tickEvent s).stepNo = s.stepNo := by
  obtain ⟨l, -, hadds⟩ := tickEvent_adds s
  exact hadds.stepNo

@[simp] theorem rxEvent_stepNo (b : Byte) (s : State) : (rxEvent b s).stepNo = s.stepNo := (rxEvent_adds b s).stepNo

/-- An event adds at most one answer to a read and at most one sent byte, and keeps the waiting events, the step number
and the parameters. -/
theorem Delivered.adds {e : Event} {s t : State} (h : Delivered e s t) :
    ∃ r l, r.length ≤ 1 ∧ l.length ≤ 1 ∧ Adds r l s t := by
  have silent {u : State} (hu : Adds [] [] s u) : ∃ r l, r.length ≤ 1 ∧ l.length ≤ 1 ∧ Adds r l s u :=
    ⟨[], [], Nat.zero_le 1, Nat.zero_le 1, hu⟩
  cases h with
  | notSelected => exact silent (.nothing rfl rfl rfl rfl rfl)
  | read addr width w he =>
    exact ⟨[_], [], Nat.le_refl 1, Nat.zero_le 1, rfl, rfl, rfl, rfl, (List.append_nil _).symm⟩
  | register addr v r t he hs hr hw => exact silent (regWrite_adds hw)
  | fbuf addr width v i he hi => exact silent (.nothing rfl rfl rfl rfl rfl)
  | illegal v x he hd => exact silent (raiseCmdError_adds .illegal s)
  | command v i t he hd hc hx => exact silent (exec_adds hx)
  | tick he =>
    obtain ⟨l, hl, hadds⟩ := tickEvent_adds s
    exact ⟨[], l, Nat.zero_le 1, hl, hadds⟩
  | rx b he => exact silent (rxEvent_adds b s)
  | reset he => exact silent (.nothing rfl rfl rfl rfl rfl)

/-- The end of a step, with the step number it started from (R167). -/
theorem settle_of_stepNo {t : State} {n : Nat} (h : t.stepNo = n) :
    settle t = { t with irq := (t.irqPend &&& t.irqEn != 0), stepNo := n + 1 } := by
  subst h
  rfl

theorem eventStep_tick (s : State) : eventStep .tick s = .next (settle (tickEvent s)) := rfl

theorem eventStep_rx (b : Byte) (s : State) : eventStep (.rx b) s = .next (settle (rxEvent b s)) := rfl

/-- Settles O9: a step is its first event delivered and then closed; `Delivered.adds` says what the delivery keeps and
adds, and closing counts the step and evaluates irq. -/
theorem stepProcessesOneEvent : Obligations.StepProcessesOneEvent := by
  unfold Obligations.StepProcessesOneEvent
  refine ⟨fun s e rest hs => ⟨step_cons hs, fun t ht => ?_⟩, fun s => ?_, fun b s => ?_⟩
  · rw [step_cons hs] at ht
    obtain ⟨u, hu, rfl⟩ := eventStep_next ht
    obtain ⟨r, l, hr, hl, hadds⟩ := (deliver_next hu).adds
    exact ⟨hadds.inbox, congrArg (· + 1) hadds.stepNo, hadds.params, ⟨r, hadds.replies, hr⟩, l, hadds.sent, hl⟩
  · rw [eventStep_tick, settle_of_stepNo (tickEvent_stepNo s)]
  · rw [eventStep_rx, settle_of_stepNo (rxEvent_stepNo b s)]

end Sys2Proof.Machine

/-! The invariant of a run is kept by every event. Each operation is shown to keep it up to the closing of the step:
`Invariant s` gives `Invariant (settle (op s))`, the clauses the operation does not touch being those of `settle s`. -/

namespace Sys2Proof.Machine

/-- Settles O13, clause by clause: each is a closed fact about the state right after reset. -/
theorem invariantHoldsAtReset : Obligations.InvariantHoldsAtReset := by
  unfold Obligations.InvariantHoldsAtReset
  constructor <;> decide

/-- Closing a step keeps the invariant (R167; logs 11 and 12). -/
theorem Invariant.settled {s : State} (h : Invariant s) : Invariant (settle s) :=
  { h with
    irqFollows := rfl
    txPast := fun r hr => Nat.lt_succ_of_lt (h.txPast r hr) }

/-- The refusal of a command touches the pending bits and ERRCODE alone (R161). -/
theorem Invariant.refused {s : State} (h : Invariant s) (c : ErrCode) : Invariant (settle (raiseCmdError c s)) :=
  { h.settled with irqFollows := rfl }

/-- A `Tx` of 'C' or NAK comes after every earlier one, so the probe port stays in the order of the steps (R38, R51). -/
theorem Invariant.transmitted {s : State} {b : Byte} (h : Invariant s) (hb : b = charC ∨ b = s.params.nak) :
    Invariant (settle (transmit b s)) :=
  { h.settled with
    irqFollows := rfl
    txOrdered := List.pairwise_append.mpr
      ⟨h.txOrdered, List.pairwise_singleton _ _, fun r hr x hx => List.mem_singleton.mp hx ▸ h.txPast r hr⟩
    txPast := fun r hr => by
      rcases List.mem_append.mp hr with hr | hr
      · exact h.settled.txPast r hr
      · obtain rfl := List.mem_singleton.mp hr
        exact Nat.lt_succ_self s.stepNo
    txProbes := fun r hr => by
      rcases List.mem_append.mp hr with hr | hr
      · exact h.txProbes r hr
      · obtain rfl := List.mem_singleton.mp hr
        exact hb }

/-! The probe engine -/

/-- A count that goes up by one goes up by at most one, whether or not it wraps. -/
theorem toNat_add_one_le {w : Nat} (x : BitVec w) : (x + 1).toNat ≤ x.toNat + 1 := by
  rw [BitVec.toNat_add]
  exact (Nat.mod_le _ _).trans (Nat.add_le_add_left (Nat.mod_le 1 (2 ^ w)) _)

theorem Invariant.ilat_pos {s : State} (h : Invariant s) : 0 < s.ilat.toNat := Nat.zero_lt_of_lt h.ptickBelowIlat

/-- An interval begins at PTICK 0 (R33). -/
theorem Invariant.intervalStart {s : State} (h : Invariant s) : Invariant { s with ptick := 0 } :=
  { h with ptickBelowIlat := h.ilat_pos }

/-- A probe that is stopped leaves nothing for the later phases to keep (R129). -/
theorem Invariant.stopped {s : State} (h : Invariant s) : Invariant { s with pstate := .idle, ptick := 0 } :=
  { h.intervalStart with
    unlockedWhileProbing := nofun
    crcPhase := nofun
    nakPhase := nofun
    doneLocked := nofun
    failedUnlocked := nofun }

/-- In IDLE the mode and its lock are free (R15, R16). -/
theorem Invariant.withMode {s : State} (h : Invariant s) (hp : s.pstate = .idle) (m : Mode) (l : Bool) :
    Invariant { s with mode := m, mlock := l } :=
  { h with
    unlockedWhileProbing := fun hpr => by simp [probing, hp] at hpr
    crcPhase := fun hc => by simp [hp] at hc
    nakPhase := fun hn => by simp [hp] at hn
    doneLocked := fun hd => by simp [hp] at hd
    failedUnlocked := fun hf => by simp [hp] at hf }

/-- The fallback from the CRC to the NAK phase is in checksum mode (R127). -/
theorem Invariant.fallenBack {s : State} (h : Invariant s) (hp : s.pstate = .crc) :
    Invariant { s with pstate := .nak, mode := .checksum } :=
  { h with
    unlockedWhileProbing := fun _ => h.unlockedWhileProbing ((probing_iff s).mpr (.inl hp))
    crcPhase := nofun
    nakPhase := fun _ => rfl
    doneLocked := nofun
    failedUnlocked := nofun }

/-- The NAK branch of the interval event counts its probe below NLAT, or fails with all of them sent (R127). -/
theorem nakInterval_invariant {s : State} (h : Invariant s) (hp : s.pstate = .nak) :
    Invariant (settle (nakInterval s)) := by
  unfold nakInterval
  split
  · next hlt =>
    exact { h.transmitted (.inr rfl) with
      naknBound := (toNat_add_one_le s.nakn).trans hlt
      crcPhase := fun hc => by simp [hp] at hc
      failedUnlocked := fun hf => by simp [hp] at hf }
  · next hge =>
    have hall : s.nakn = s.nlat := BitVec.eq_of_toNat_eq (Nat.le_antisymm h.naknBound (Nat.not_lt.mp hge))
    have hunlocked : s.mlock = false := h.unlockedWhileProbing ((probing_iff s).mpr (.inr hp))
    exact { h.settled with
      irqFollows := rfl
      unlockedWhileProbing := nofun
      crcPhase := nofun
      nakPhase := nofun
      doneLocked := nofun
      failedUnlocked := fun _ => ⟨hunlocked, h.nakPhase hp, hall⟩ }

theorem intervalEvent_invariant {s : State} (h : Invariant s) (hp : probing s = true) :
    Invariant (settle (intervalEvent s)) := by
  unfold intervalEvent
  split
  · next hcrc =>
    split
    · next hlt =>
      exact { h.transmitted (.inl rfl) with crcnBound := (toNat_add_one_le s.crcn).trans hlt }
    · exact nakInterval_invariant (h.fallenBack hcrc) rfl
  · next hcrc => exact nakInterval_invariant h (((probing_iff s).mp hp).resolve_left hcrc)

theorem tickEvent_invariant {s : State} (h : Invariant s) : Invariant (settle (tickEvent s)) := by
  unfold tickEvent
  split
  · next hp =>
    split
    · exact intervalEvent_invariant h.intervalStart hp
    · next hne =>
      exact { h.settled with
        ptickBelowIlat := (toNat_add_one_le s.ptick).trans_lt (Nat.lt_of_le_of_ne h.ptickBelowIlat hne) }
  · exact h.settled

theorem rxEvent_invariant {s : State} (h : Invariant s) (b : Byte) : Invariant (settle (rxEvent b s)) := by
  unfold rxEvent
  split
  · exact { h.intervalStart.settled with
      irqFollows := rfl
      unlockedWhileProbing := nofun
      crcPhase := nofun
      nakPhase := nofun
      doneLocked := fun _ => rfl
      failedUnlocked := nofun }
  · exact h.settled

/-- PROBE_START's latches, whatever CFG1 holds, are within R32's ranges (R36). -/
theorem Invariant.latched {s : State} (h : Invariant s) (hp : s.pstate = .idle) :
    Invariant { s with clat := latchedClat s.cfg1, nlat := latchedNlat s.cfg1, ilat := s.intervalMs,
                       crcn := 0, nakn := 0, ptick := 0 } := by
  have hclat : (latchedClat s.cfg1).toNat ≤ 254 := by
    have := s.cfg1.crcAttempts.isLt
    rw [latchedClat_toNat]
    omega
  have hnlat : (latchedNlat s.cfg1).toNat ≤ 195075 := by
    have : s.cfg1.maxErrors.toNat * s.cfg1.timeoutS.toNat ≤ 255 * 255 :=
      Nat.mul_le_mul (Nat.le_of_lt_succ s.cfg1.maxErrors.isLt) (Nat.le_of_lt_succ s.cfg1.timeoutS.isLt)
    rw [latchedNlat_toNat]
    omega
  exact { h with
    ptickBelowIlat := h.intervalPositive
    clatBound := hclat
    nlatBound := hnlat
    crcnBound := Nat.zero_le _
    naknBound := Nat.zero_le _
    crcPhase := fun hc => by simp [hp] at hc
    failedUnlocked := fun hf => by simp [hp] at hf }

/-- PROBE_START enters the CRC phase only with a 'C' probe to send (R124). -/
theorem startProbe_invariant {s : State} (h : Invariant s) (hp : s.pstate = .idle) (hl : s.mlock = false) :
    Invariant (settle (startProbe s)) := by
  unfold startProbe
  extract_lets latched
  split
  · next hc =>
    exact { (h.latched hp).settled with
      unlockedWhileProbing := fun _ => hl
      crcPhase := fun _ => ⟨rfl, rfl, hc.2⟩
      nakPhase := nofun
      doneLocked := nofun
      failedUnlocked := nofun }
  · exact { (h.latched hp).settled with
      unlockedWhileProbing := fun _ => hl
      crcPhase := nofun
      nakPhase := fun _ => rfl
      doneLocked := nofun
      failedUnlocked := nofun }

/-! Mode selection and control -/

theorem lockMode_invariant {s : State} (h : Invariant s) (hp : s.pstate = .idle) (m : Mode) :
    Invariant (settle (lockMode m s)) :=
  { (h.withMode hp m true).settled with irqFollows := rfl }

/-- SESS_INIT is a probe stopped, a mode taken from CFG0 and unlocked, and the session's counts and verdict cleared (R152). -/
theorem execSessInit_invariant {s t : State} (h : Invariant s) (hx : execSessInit s = .next t) :
    Invariant (settle t) := by
  obtain rfl := Host.Outcome.next.inj hx
  exact { (h.stopped.withMode rfl s.cfg0.modePref false).settled with
    crcnBound := Nat.zero_le _
    naknBound := Nat.zero_le _
    plenBound := Nat.zero_le _
    crcPhase := nofun
    failedUnlocked := nofun
    noVerdictYet := fun _ => ⟨rfl, rfl⟩
    actionWithResult := fun _ => rfl
    ackForOk := ⟨nofun, nofun⟩ }

/-- The reset input leaves what already left XMC (R180; logs 9 and 19). -/
theorem resetEvent_invariant {s : State} (h : Invariant s) : Invariant (settle (resetEvent s)) :=
  { invariantHoldsAtReset.settled with
    paramsLegal := h.paramsLegal
    txOrdered := h.txOrdered
    txPast := h.settled.txPast
    txProbes := h.txProbes }

/-! The frame codec -/

/-- What DECODE writes says that a verdict was reached: RESULT and ACTION are set, ACK exactly with OK (R82, R87). -/
structure Verdict.Reached (v : Verdict) : Prop where
  result : v.dstat.result ≠ .none
  action : v.dstat.action ≠ .none
  ackForOk : v.dstat.action = .ack ↔ v.dstat.result = .ok

theorem nakOrSilent_cases (tries : BitVec 16) (s : State) :
    nakOrSilent tries s = .nak ∨ nakOrSilent tries s = .silent := by
  unfold nakOrSilent
  split
  · exact .inl rfl
  · exact .inr rfl

theorem notFrame_reached (c : Byte) (s : State) : (notFrame c s).Reached := by
  constructor <;> simp [notFrame]

/-- A rejected frame is answered by NAK or SILENT, never by ACK (R84). -/
theorem rejectFrame_reached {r : DecodeResult} (hr : r ≠ .none) (hok : r ≠ .ok) (d : Dstat) (t : Dtrl)
    (tries : BitVec 16) (s : State) : (rejectFrame r d t tries s).Reached := by
  rcases nakOrSilent_cases tries s with h | h <;> constructor <;> simp [rejectFrame, h, hr, hok]

theorem syncVerdict_reached (d : Dstat) (tries : BitVec 16) (s : State) : (syncVerdict d tries s).Reached := by
  cases hs : s.cfg0.syncNak
  · constructor <;> simp [syncVerdict, hs]
  · rcases nakOrSilent_cases tries s with h | h <;> constructor <;> simp [syncVerdict, hs, h]

/-- Every verdict of DECODE, in the order of its checks (R82, R83). -/
theorem judge_reached {s : State} {v : Verdict} (h : judge s = .ok v) : v.Reached := by
  obtain ⟨-, rfl⟩ | ⟨c, -, -, ⟨-, rfl⟩ | ⟨-, hh⟩⟩ := judge_cases h
  · exact notFrame_reached 0 s
  · exact notFrame_reached c s
  · obtain ⟨-, rfl⟩ | ⟨q, r, -, -, -, ⟨-, rfl⟩ | ⟨-, -, rfl⟩ | ⟨-, -, -, rfl⟩ | ⟨-, -, -, ht⟩⟩ := judgeHeader_cases hh
    · exact rejectFrame_reached (by decide) (by decide) ..
    · exact rejectFrame_reached (by decide) (by decide) ..
    · exact rejectFrame_reached (by decide) (by decide) ..
    · exact syncVerdict_reached ..
    · obtain ⟨p, recv, -, -, ⟨-, -, rfl⟩ | ⟨-, rfl⟩⟩ := judgeTrailer_cases ht
      · exact rejectFrame_reached (by decide) (by decide) ..
      · exact ⟨nofun, nofun, fun _ => rfl, fun _ => rfl⟩

theorem execDecode_invariant {s t : State} (h : Invariant s) (hx : execDecode s = .next t) : Invariant (settle t) := by
  obtain ⟨v, hv, rfl⟩ := execDecode_next hx
  have hr : v.Reached := judge_reached hv
  exact { h.settled with
    noVerdictYet := fun hn => absurd hn hr.result
    actionWithResult := fun hn => absurd hn hr.action
    ackForOk := hr.ackForOk }

theorem execEncode_invariant {q : Byte} {k : BitVec 11} {s t : State} (h : Invariant s)
    (hx : execEncode q k s = .next t) : Invariant (settle t) := by
  obtain ⟨-, rfl⟩ | ⟨hk, m, hm, rfl⟩ := execEncode_next hx
  · exact h.refused .range
  · obtain ⟨p, -, -, -, -, -, -, -, -, hwf⟩ := encodedFbuf_ok hk hm
    exact { h.settled with fbufCanonical := hwf h.fbufCanonical }

/-- STRIP answers at most B bytes (R30, R89). -/
theorem execStrip_invariant {s t : State} (h : Invariant s) (hx : execStrip s = .next t) : Invariant (settle t) := by
  obtain ⟨l, hl, rfl⟩ := execStrip_next hx
  have hle : l ≤ payloadLen s := stripScan_le hl
  have hB : payloadLen s ≤ 1024 := by rcases payloadLen_cases s with hB | hB <;> omega
  exact { h.settled with plenBound := (BitVec.toNat_ofNat l 11).trans_le ((Nat.mod_le _ _).trans (hle.trans hB)) }

/-! Commands, register writes and events -/

theorem exec_invariant {i : Instr} {s t : State} (h : Invariant s) (hx : exec i s = .next t) :
    Invariant (settle t) := by
  cases i with
  | nop | crcInit | crcByte | sumInit | sumByte | classify =>
    obtain rfl := Host.Outcome.next.inj hx
    exact { h.settled with }
  | encode q k => exact execEncode_invariant h hx
  | decode => exact execDecode_invariant h hx
  | strip => exact execStrip_invariant h hx
  | modesel b =>
    have hcls : Invariant { s with cls := classifyByte s.params b } := { h with }
    obtain ⟨-, rfl⟩ | ⟨hp, -, -, rfl⟩ | ⟨hp, -, -, -, rfl⟩ | ⟨-, -, rfl⟩ := execModesel_next hx
    · exact h.refused .state
    · exact lockMode_invariant hcls hp .crc16
    · exact lockMode_invariant hcls hp .checksum
    · exact { h.settled with }
  | probeStart =>
    obtain ⟨-, rfl⟩ | ⟨hp, hl, rfl⟩ := execProbeStart_next hx
    · exact h.refused .state
    · exact startProbe_invariant h hp hl
  | probeCancel =>
    obtain ⟨-, rfl⟩ | ⟨-, rfl⟩ := execProbeCancel_next hx
    · exact h.stopped.settled
    · exact h.settled
  | sessInit => exact execSessInit_invariant h hx

theorem regWrite_invariant {r : Reg} {v : Word} {s t : State} (h : Invariant s) (hw : regWrite r v s = some t) :
    Invariant (settle t) := by
  obtain ⟨-, rfl⟩ | ⟨-, rfl⟩ | ⟨-, rfl⟩ | ⟨-, rfl⟩ | ⟨-, rfl⟩ | ⟨-, rfl⟩ | ⟨-, rfl⟩ := regWrite_some hw
  case inr.inr.inl => exact { h.settled with intervalPositive := intervalOfWord_pos v }
  all_goals exact { h.settled with irqFollows := rfl }

theorem Delivered.invariant {e : Event} {s t : State} (hd : Delivered e s t) (h : Invariant s) :
    Invariant (settle t) := by
  cases hd with
  | notSelected => exact h.settled
  | read addr width w he => exact { h.settled with }
  | register addr v r t he hs hr hw => exact regWrite_invariant h hw
  | fbuf addr width v i he hi => exact { h.settled with fbufCanonical := Memory.write_wf _ h.fbufCanonical hi }
  | illegal v x he hd => exact h.refused .illegal
  | command v i t he hd hc hx => exact exec_invariant h hx
  | tick he => exact tickEvent_invariant h
  | rx b he => exact rxEvent_invariant h b
  | reset he => exact resetEvent_invariant h

theorem eventStep_invariant {e : Event} {s t : State} (h : Invariant s) (he : eventStep e s = .next t) :
    Invariant t := by
  obtain ⟨u, hu, rfl⟩ := eventStep_next he
  exact (deliver_next hu).invariant h

/-- Settles O14: a step waits, or delivers one event and is closed, and every delivery keeps the invariant up to the
closing. -/
theorem everyStepKeepsTheInvariant : Obligations.EveryStepKeepsTheInvariant := by
  unfold Obligations.EveryStepKeepsTheInvariant
  intro s t h hs
  obtain ⟨-, rfl⟩ | ⟨e, rest, -, he⟩ := step_cases hs
  · exact h
  · exact eventStep_invariant (h.withInbox rest) he

end Sys2Proof.Machine

/-! What holds along a run, and the lock of the mode: which events set it, clear it or change the mode (R16). -/

namespace Sys2Proof.Machine

/-- Which command an event brings depends on the state by the base address alone. -/
theorem commandOf_congr {s u : State} (h : u.params = s.params) (e : Event) : commandOf e u = commandOf e s := by
  cases e <;> simp only [commandOf, h]

/-- What a step leaves to come, and the parameters it keeps (R51). -/
theorem eventStep_inbox_params {e : Event} {s t : State} (h : eventStep e s = .next t) :
    t.inbox = s.inbox ∧ t.params = s.params := by
  obtain ⟨u, hu, rfl⟩ := eventStep_next h
  obtain ⟨r, l, -, -, hadds⟩ := (deliver_next hu).adds
  exact ⟨hadds.inbox, hadds.params⟩

/-- The induction over a run: what every step with an allowed event keeps, a run of allowed events keeps. -/
theorem run_keeps {P : State → Prop} {allowed : Event → State → Prop}
    (hallowed : ∀ e s u, u.params = s.params → allowed e s → allowed e u)
    (hinbox : ∀ s l, P s → P { s with inbox := l })
    (hstep : ∀ e s t, P s → allowed e s → eventStep e s = .next t → P t)
    {n : Nat} {s t : State} (hs : P s) (hev : ∀ e ∈ s.inbox.take n, allowed e s)
    (hrun : Sys2Proof.core.run n s = .next t) : P t := by
  induction n generalizing s with
  | zero => exact Host.Outcome.next.inj ((run_zero s).symm.trans hrun) ▸ hs
  | succ n ih =>
    obtain ⟨u, hu, hrest⟩ := run_succ_next hrun
    obtain ⟨hnil, rfl⟩ | ⟨e, rest, hcons, he⟩ := step_cases hu
    · exact ih hs (by simp [hnil]) hrest
    · obtain ⟨hin, hpar⟩ := eventStep_inbox_params he
      rw [hcons, List.take_succ_cons, List.forall_mem_cons] at hev
      obtain ⟨hfirst, hlater⟩ := hev
      refine ih (hstep e _ u (hinbox s rest hs) (hallowed e s _ rfl hfirst) he) (fun e' he' => ?_) hrest
      rw [hin] at he'
      exact hallowed e' s u hpar (hlater e' he')

/-- An event after which the session goes on: neither SESS_INIT nor reset (R16). -/
def KeepsSession (e : Event) (s : State) : Prop := commandOf e s ≠ some .sessInit ∧ e ≠ .reset

theorem KeepsSession.congr {e : Event} {s u : State} (hp : u.params = s.params) (h : KeepsSession e s) :
    KeepsSession e u := ⟨commandOf_congr hp e ▸ h.1, h.2⟩

/-- A legal CMD write whose word decodes runs the command (R150). -/
theorem deliver_of_commandOf {e : Event} {i : Instr} {s : State} (h : commandOf e s = some i) :
    deliver e s = exec i s := by
  cases e with
  | busWrite addr width v =>
    simp only [commandOf] at h
    split at h
    · next haccess =>
      obtain ⟨rfl, rfl⟩ := haccess
      split at h
      · next j hj =>
        obtain rfl : j = i := by simpa using h
        have hsel : selected (s.params.base + cmdOffset) s = true := by simp [selected, cmdOffset, windowSize]
        have hcmd : busTarget cmdOffset 4 = .ok (.reg .CMD) := rfl
        simp only [deliver, busWriteEvent, hsel, Nat.add_sub_cancel_left, writeOffset, hcmd, runCommand, hj, if_true]
      · cases h
    · cases h
  | busRead addr width | tick | rx b | reset => cases h

/-- The lock is as before; the mode is too, unless a negotiation that had not locked it yet could still change it. -/
def KeepsLock (s t : State) : Prop := t.mlock = s.mlock ∧ (t.mode = s.mode ∨ s.mlock = false ∨ probing s = true)

theorem KeepsLock.same {s t : State} (hl : t.mlock = s.mlock) (hm : t.mode = s.mode) : KeepsLock s t := ⟨hl, .inl hm⟩

theorem startProbe_mlock (s : State) : (startProbe s).mlock = s.mlock := by
  unfold startProbe
  extract_lets latched
  split
  · rfl
  · rfl

theorem nakInterval_mlock (s : State) : (nakInterval s).mlock = s.mlock := by
  unfold nakInterval
  split
  · rfl
  · rfl

theorem intervalEvent_mlock (s : State) : (intervalEvent s).mlock = s.mlock := by
  unfold intervalEvent
  split
  · split
    · rfl
    · exact nakInterval_mlock _
  · exact nakInterval_mlock s

/-- A tick never touches the lock, and the mode only while probing (R126, R127). -/
theorem tickEvent_keepsLock (s : State) : KeepsLock s (tickEvent s) := by
  unfold tickEvent
  split
  · next hp =>
    split
    · exact ⟨intervalEvent_mlock _, .inr (.inr hp)⟩
    · exact .same rfl rfl
  · exact .same rfl rfl

/-- A command keeps the lock, or is SESS_INIT, or is the MODESEL that selects (R16, R130, R152). -/
theorem exec_lock {i : Instr} {s t : State} (h : exec i s = .next t) :
    KeepsLock s t ∨ i = .sessInit ∨
      ∃ b, i = .modesel b ∧ s.pstate = .idle ∧ s.mlock = false ∧ (b = charC ∨ b = s.params.nak) := by
  cases i with
  | nop | crcInit | crcByte | sumInit | sumByte | classify =>
    obtain rfl := Host.Outcome.next.inj h
    exact .inl (.same rfl rfl)
  | encode q k =>
    obtain ⟨-, rfl⟩ | ⟨-, m, -, rfl⟩ := execEncode_next h
    all_goals exact .inl (.same rfl rfl)
  | decode =>
    obtain ⟨v, -, rfl⟩ := execDecode_next h
    exact .inl (.same rfl rfl)
  | strip =>
    obtain ⟨l, -, rfl⟩ := execStrip_next h
    exact .inl (.same rfl rfl)
  | modesel b =>
    obtain ⟨-, rfl⟩ | ⟨hp, hl, hb, -⟩ | ⟨hp, hl, -, hb, -⟩ | ⟨-, -, rfl⟩ := execModesel_next h
    · exact .inl (.same rfl rfl)
    · exact .inr (.inr ⟨b, rfl, hp, hl, .inl hb⟩)
    · exact .inr (.inr ⟨b, rfl, hp, hl, .inr hb⟩)
    · exact .inl (.same rfl rfl)
  | probeStart =>
    obtain ⟨-, rfl⟩ | ⟨-, hl, rfl⟩ := execProbeStart_next h
    · exact .inl (.same rfl rfl)
    · exact .inl ⟨startProbe_mlock s, .inr (.inl hl)⟩
  | probeCancel =>
    obtain ⟨-, rfl⟩ | ⟨-, rfl⟩ := execProbeCancel_next h
    all_goals exact .inl (.same rfl rfl)
  | sessInit => exact .inr (.inl rfl)

theorem regWrite_keepsLock {r : Reg} {v : Word} {s t : State} (h : regWrite r v s = some t) : KeepsLock s t := by
  obtain ⟨-, rfl⟩ | ⟨-, rfl⟩ | ⟨-, rfl⟩ | ⟨-, rfl⟩ | ⟨-, rfl⟩ | ⟨-, rfl⟩ | ⟨-, rfl⟩ := regWrite_some h
  all_goals exact .same rfl rfl

/-- Only the events that end a negotiation, SESS_INIT and reset touch the lock of the mode (R16). -/
theorem Delivered.lock {e : Event} {s t : State} (hd : Delivered e s t) :
    KeepsLock s t ∨ (commandOf e s = some .sessInit ∧ t.mlock = false) ∨ (e = .reset ∧ t.mlock = false) ∨
      irqCause .negDone e s := by
  cases hd with
  | notSelected => exact .inl (.same rfl rfl)
  | read addr width w he => exact .inl (.same rfl rfl)
  | register addr v r t he hs hr hw => exact .inl (regWrite_keepsLock hw)
  | fbuf addr width v i he hi => exact .inl (.same rfl rfl)
  | illegal v x he hd => exact .inl (.same rfl rfl)
  | command v i t he hd hc hx =>
    obtain hkeep | rfl | ⟨b, rfl, hp, hl, hb⟩ := exec_lock hx
    · exact .inl hkeep
    · obtain rfl := Host.Outcome.next.inj hx
      exact .inr (.inl ⟨hc, rfl⟩)
    · exact .inr (.inr (.inr (.inr ⟨b, hc, hp, hl, hb⟩)))
  | tick he => exact .inl (tickEvent_keepsLock s)
  | rx b he =>
    unfold rxEvent
    split
    · next hends =>
      obtain ⟨hp, hb⟩ := Bool.and_eq_true_iff.mp hends
      subst he
      exact .inr (.inr (.inr (.inl ⟨hp, by simpa [soh, stx] using (endsProbing_iff b).mp hb⟩)))
    · exact .inl (.same rfl rfl)
  | reset he => exact .inr (.inr (.inl ⟨he, rfl⟩))

/-- With the mode locked nothing is left to negotiate: the snoop is idle and MODESEL does not select (R16, R120). -/
theorem Invariant.not_negDone_of_mlock {s : State} (h : Invariant s) (hl : s.mlock = true) (e : Event) :
    ¬ irqCause .negDone e s := by
  rintro (⟨hp, -⟩ | ⟨-, -, -, hu, -⟩)
  · simp [h.unlockedWhileProbing hp] at hl
  · simp [hu] at hl

/-- A locked mode of a session, as a run keeps it. -/
structure LockedIn (m : Mode) (s : State) : Prop where
  invariant : Invariant s
  locked : s.mlock = true
  mode : s.mode = m

theorem LockedIn.eventStep {m : Mode} {e : Event} {s t : State} (h : LockedIn m s)
    (he : KeepsSession e s) (hs : eventStep e s = .next t) : LockedIn m t := by
  obtain ⟨hinv, hl, hm⟩ := h
  have ht : Invariant t := eventStep_invariant hinv hs
  obtain ⟨u, hu, rfl⟩ := eventStep_next hs
  obtain ⟨hul, hum⟩ | ⟨hc, -⟩ | ⟨hr, -⟩ | hcause := (deliver_next hu).lock
  · have hunlocked : s.mlock = false ∨ probing s = true → False := by
      rintro (hf | hp)
      · simp [hf] at hl
      · simp [hinv.unlockedWhileProbing hp] at hl
    exact ⟨ht, hul.trans hl, (hum.resolve_right hunlocked).trans hm⟩
  · exact absurd hc he.1
  · exact absurd hr he.2
  · exact absurd hcause (hinv.not_negDone_of_mlock hl e)

/-- A MODESEL of 'C' or NAK in IDLE locks an unlocked mode (R130). -/
theorem execModesel_locks {b : Byte} {s t : State} (h : execModesel b s = .next t) (hp : s.pstate = .idle)
    (hl : s.mlock = false) (hb : b = charC ∨ b = s.params.nak) : t.mlock = true := by
  obtain ⟨hne, -⟩ | ⟨-, -, -, rfl⟩ | ⟨-, -, -, -, rfl⟩ | ⟨-, hno, -⟩ := execModesel_next h
  · exact absurd hp hne
  · rfl
  · rfl
  · exact absurd hb (not_or.mpr (hno.resolve_left (by simp [hl])))

/-- Each cause of NEG_DONE locks the mode (R128, R130). -/
theorem eventStep_locks {e : Event} {s t : State} (h : eventStep e s = .next t) (hc : irqCause .negDone e s) :
    t.mlock = true := by
  obtain ⟨u, hu, rfl⟩ := eventStep_next h
  obtain ⟨hp, hrx⟩ | ⟨b, hcmd, hp, hl, hb⟩ := hc
  · obtain ⟨b, rfl, hb⟩ : ∃ b, e = .rx b ∧ endsProbing b = true := by
      rcases hrx with rfl | rfl <;> exact ⟨_, rfl, rfl⟩
    obtain rfl := Host.Outcome.next.inj hu
    simp [rxEvent, hp, hb]
  · rw [deliver_of_commandOf hcmd] at hu
    exact execModesel_locks (t := u) hu hp hl hb

/-- Settles O52: `LockedIn` is kept along the run, PROBE_START is refused while it holds, and `Delivered.lock` and
`eventStep_locks` are the two directions of what locks a mode. -/
theorem lockedModeStaysForTheSession : Obligations.LockedModeStaysForTheSession := by
  unfold Obligations.LockedModeStaysForTheSession
  refine ⟨fun n s t hinv hl hev hrun => ?_, fun s hl => ?_, fun e s t hs hl => ⟨fun ht => ?_, eventStep_locks hs⟩⟩
  · have hend : LockedIn s.mode t :=
      run_keeps (allowed := KeepsSession) (fun e s u hpar he => he.congr hpar)
        (fun s l h => ⟨h.invariant.withInbox l, h.locked, h.mode⟩)
        (fun e s t h he hs => h.eventStep he hs) ⟨hinv, hl, rfl⟩ hev hrun
    exact ⟨hend.locked, hend.mode⟩
  · rw [exec_probeStart, execProbeStart, if_pos (.inr hl), raiseCmdError_eq]
  · obtain ⟨u, hu, rfl⟩ := eventStep_next hs
    obtain ⟨hul, -⟩ | ⟨-, hf⟩ | ⟨-, hf⟩ | hcause := (deliver_next hu).lock
    · simp [hul, hl] at ht
    · simp [hf] at ht
    · simp [hf] at ht
    · exact hcause

end Sys2Proof.Machine

/-! The registers as the host reads and writes them (R14 to R36, R44, R49), and the latches a running probe reads. -/

namespace Sys2Proof.Machine

/-! The words of the packed registers -/

/-- A field in front of the low `n` bits counts `2 ^ n` each. -/
theorem toNat_append_eq_add {m n : Nat} (x : BitVec m) (y : BitVec n) :
    (x ++ y).toNat = x.toNat * 2 ^ n + y.toNat := by
  rw [BitVec.toNat_append, ← Nat.shiftLeft_add_eq_or_of_lt y.isLt, Nat.shiftLeft_eq]

theorem bit_toNat (b : Bool) : (bit b).toNat = b.toNat := BitVec.toNat_ofBool b

/-- Settles O15: the codes are read off the tables, and each packed word is a chain of appended fields, whose number is
the sum of theirs by `toNat_append_eq_add`. -/
theorem packedRegisterLayouts : Obligations.PackedRegisterLayouts := by
  unfold Obligations.PackedRegisterLayouts
  refine ⟨by decide, by decide, by decide, by decide, by decide, by decide, by decide, fun s => ?_⟩
  refine ⟨?_, ?_, ?_, ?_, ?_, ?_⟩
  · simp only [statusWord, toNat_append_eq_add, bit_toNat, BitVec.ofNat_eq_ofNat, BitVec.toNat_zero]
    omega
  · simp only [cfg0Word, toNat_append_eq_add, bit_toNat, BitVec.ofNat_eq_ofNat, BitVec.toNat_zero]
    omega
  · simp only [cfg1Word, toNat_append_eq_add]
    omega
  · simp only [dstatWord, toNat_append_eq_add, bit_toNat]
    omega
  · exact toNat_append_eq_add s.dtrl.received s.dtrl.computed
  · simp only [pcntWord, toNat_append_eq_add, BitVec.ofNat_eq_ofNat, BitVec.toNat_zero]
    omega

/-! Register writes and what is read back -/

theorem modeCode_modeOfBit (b : Bool) : modeCode (modeOfBit b) = BitVec.ofBool b := by
  cases b
  · rfl
  · rfl

theorem blockSizeCode_blockSizeOfBit (b : Bool) : blockSizeCode (blockSizeOfBit b) = BitVec.ofBool b := by
  cases b
  · rfl
  · rfl

/-- A field in the low `n` bits reads back as the written word masked to them (R44). -/
theorem extractLsb'_readBack (v : Word) (n : Nat) :
    (v.extractLsb' 0 n).setWidth 32 = v &&& BitVec.ofNat 32 (2 ^ n - 1) := by
  refine BitVec.eq_of_getLsbD_eq fun i hi => ?_
  simp only [BitVec.getLsbD_setWidth, BitVec.getLsbD_extractLsb', BitVec.getLsbD_and, BitVec.getLsbD_ofNat,
    Nat.testBit_two_pow_sub_one, hi, decide_true, Bool.true_and, Nat.zero_add]
  exact Bool.and_comm _ _

/-- CFG0 bit by bit: the fields are where R20 puts them, and the bits between them are 0. -/
theorem cfg0_readBack (v : Word) : cfg0Word (cfg0OfWord v) = v &&& 0x0000FF1F := by
  simp only [cfg0Word, cfg0OfWord, modeCode_modeOfBit, blockSizeCode_blockSizeOfBit, bit]
  refine BitVec.eq_of_getLsbD_eq fun i hi => ?_
  simp only [BitVec.getLsbD_append, BitVec.getLsbD_ofBool, BitVec.getLsbD_extractLsb', BitVec.getLsbD_and]
  interval_cases i <;> simp

/-- CFG1's four bytes are the whole word (R21). -/
theorem cfg1_readBack (v : Word) : cfg1Word (cfg1OfWord v) = v := by
  simp only [cfg1Word, cfg1OfWord]
  rw [BitVec.extractLsb'_append_extractLsb'_eq_extractLsb' (show 24 = 16 + 8 from rfl),
    BitVec.extractLsb'_append_extractLsb'_eq_extractLsb' (show 16 = 8 + 8 from rfl),
    BitVec.extractLsb'_append_extractLsb'_eq_extractLsb' (show 8 = 0 + 8 from rfl)]
  exact BitVec.extractLsb'_eq_self

/-- INTERVAL_MS reads as the low half of the word, and as 1 where that is 0 (R22). -/
theorem intervalOfWord_readBack (v : Word) :
    (intervalOfWord v).setWidth 32 = if v &&& 0x0000FFFF = 0 then 1 else v &&& 0x0000FFFF := by
  have hlow : (v.extractLsb' 0 16).setWidth 32 = v &&& 0x0000FFFF := extractLsb'_readBack v 16
  have hzero : v &&& 0x0000FFFF = 0 ↔ v.extractLsb' 0 16 = 0 := by
    rw [← hlow, ← BitVec.toNat_inj, ← BitVec.toNat_inj, BitVec.toNat_setWidth_of_le (by decide)]
    rfl
  unfold intervalOfWord
  split
  · next h => rw [if_pos (hzero.mpr h)]; rfl
  · next h => rw [if_neg (mt hzero.mp h), hlow]

/-- Settles O18: each write stores what `regWrite` says of its register, and the lemmas above say what is read back. -/
theorem registerWritesReadBack : Obligations.RegisterWritesReadBack := by
  unfold Obligations.RegisterWritesReadBack
  intro v s
  refine ⟨⟨cfg0OfWord v, rfl, ?_⟩, ⟨cfg1OfWord v, rfl, ?_⟩, ⟨intervalOfWord v, rfl, ?_⟩,
    ⟨v.extractLsb' 0 8, rfl, ?_⟩, ⟨v.extractLsb' 0 11, rfl, ?_⟩, ⟨v.extractLsb' 0 4, rfl, ?_⟩⟩
  · exact congrArg Except.ok (cfg0_readBack v)
  · exact congrArg Except.ok (cfg1_readBack v)
  · exact congrArg Except.ok (intervalOfWord_readBack v)
  · exact congrArg Except.ok (extractLsb'_readBack v 8)
  · exact congrArg Except.ok (extractLsb'_readBack v 11)
  · exact congrArg Except.ok (extractLsb'_readBack v 4)

/-- Settles O19: the stored word is the old one masked by the complement of the written bits. -/
theorem irqPendIsWriteOneToClear : Obligations.IrqPendIsWriteOneToClear := by
  unfold Obligations.IrqPendIsWriteOneToClear
  intro v s
  refine ⟨s.irqPend &&& ~~~(v.extractLsb' 0 4), rfl, fun i hi => ?_⟩
  simp [hi]

/-- Settles O11: every register and latch right after reset is a closed word, and an empty FBUF has no written byte. -/
theorem registersAfterReset : Obligations.RegistersAfterReset := by
  unfold Obligations.RegistersAfterReset
  exact ⟨rfl, rfl, rfl, rfl, rfl, by decide, rfl, rfl, rfl, Memory.read_nil, rfl, rfl⟩

/-! The latches of a running probe -/

/-- A state with other contents of CFG1 and CFG2. -/
def withConfig (c : Cfg1) (x : BitVec 16) (s : State) : State := { s with cfg1 := c, intervalMs := x }

theorem nakInterval_withConfig (c : Cfg1) (x : BitVec 16) (s : State) :
    nakInterval (withConfig c x s) = withConfig c x (nakInterval s) := by
  unfold nakInterval
  rw [apply_ite (withConfig c x)]
  rfl

theorem intervalEvent_withConfig (c : Cfg1) (x : BitVec 16) (s : State) :
    intervalEvent (withConfig c x s) = withConfig c x (intervalEvent s) := by
  unfold intervalEvent
  rw [apply_ite (withConfig c x), apply_ite (withConfig c x), ← nakInterval_withConfig, ← nakInterval_withConfig]
  rfl

/-- A tick neither reads nor writes CFG1 and INTERVAL_MS (R125). -/
theorem tickEvent_withConfig (c : Cfg1) (x : BitVec 16) (s : State) :
    tickEvent (withConfig c x s) = withConfig c x (tickEvent s) := by
  unfold tickEvent
  rw [apply_ite (withConfig c x), apply_ite (withConfig c x), ← intervalEvent_withConfig]
  rfl

theorem rxEvent_withConfig (b : Byte) (c : Cfg1) (x : BitVec 16) (s : State) :
    rxEvent b (withConfig c x s) = withConfig c x (rxEvent b s) := by
  unfold rxEvent
  rw [apply_ite (withConfig c x)]
  rfl

/-- The latches CLAT, NLAT and ILAT (R36) are the same in both states. -/
structure SameLatches (s t : State) : Prop where
  clat : t.clat = s.clat
  nlat : t.nlat = s.nlat
  ilat : t.ilat = s.ilat

theorem nakInterval_latches (s : State) : SameLatches s (nakInterval s) := by
  unfold nakInterval
  split
  · exact ⟨rfl, rfl, rfl⟩
  · exact ⟨rfl, rfl, rfl⟩

theorem intervalEvent_latches (s : State) : SameLatches s (intervalEvent s) := by
  unfold intervalEvent
  split
  · split
    · exact ⟨rfl, rfl, rfl⟩
    · obtain ⟨hc, hn, hi⟩ := nakInterval_latches { s with pstate := .nak, mode := .checksum }
      exact ⟨hc, hn, hi⟩
  · exact nakInterval_latches s

theorem tickEvent_latches (s : State) : SameLatches s (tickEvent s) := by
  unfold tickEvent
  split
  · split
    · obtain ⟨hc, hn, hi⟩ := intervalEvent_latches { s with ptick := 0 }
      exact ⟨hc, hn, hi⟩
    · exact ⟨rfl, rfl, rfl⟩
  · exact ⟨rfl, rfl, rfl⟩

theorem rxEvent_latches (b : Byte) (s : State) : SameLatches s (rxEvent b s) := by
  unfold rxEvent
  split
  · exact ⟨rfl, rfl, rfl⟩
  · exact ⟨rfl, rfl, rfl⟩

/-- Every command but PROBE_START leaves the latches (R36). -/
theorem exec_latches {i : Instr} {s t : State} (h : exec i s = .next t) (hi : i ≠ .probeStart) : SameLatches s t := by
  cases i with
  | nop | crcInit | crcByte | sumInit | sumByte | classify | sessInit =>
    obtain rfl := Host.Outcome.next.inj h
    exact ⟨rfl, rfl, rfl⟩
  | encode q k =>
    obtain ⟨-, rfl⟩ | ⟨-, m, -, rfl⟩ := execEncode_next h
    all_goals exact ⟨rfl, rfl, rfl⟩
  | decode =>
    obtain ⟨v, -, rfl⟩ := execDecode_next h
    exact ⟨rfl, rfl, rfl⟩
  | strip =>
    obtain ⟨l, -, rfl⟩ := execStrip_next h
    exact ⟨rfl, rfl, rfl⟩
  | modesel b =>
    obtain ⟨-, rfl⟩ | ⟨-, -, -, rfl⟩ | ⟨-, -, -, -, rfl⟩ | ⟨-, -, rfl⟩ := execModesel_next h
    all_goals exact ⟨rfl, rfl, rfl⟩
  | probeStart => exact absurd rfl hi
  | probeCancel =>
    obtain ⟨-, rfl⟩ | ⟨-, rfl⟩ := execProbeCancel_next h
    all_goals exact ⟨rfl, rfl, rfl⟩

theorem regWrite_latches {r : Reg} {v : Word} {s t : State} (h : regWrite r v s = some t) : SameLatches s t := by
  obtain ⟨-, rfl⟩ | ⟨-, rfl⟩ | ⟨-, rfl⟩ | ⟨-, rfl⟩ | ⟨-, rfl⟩ | ⟨-, rfl⟩ | ⟨-, rfl⟩ := regWrite_some h
  all_goals exact ⟨rfl, rfl, rfl⟩

/-- Every event but a PROBE_START and reset leaves the latches (R36, R180). -/
theorem Delivered.latches {e : Event} {s t : State} (hd : Delivered e s t) :
    SameLatches s t ∨ commandOf e s = some .probeStart ∨ e = .reset := by
  cases hd with
  | notSelected | read | fbuf | illegal => exact .inl ⟨rfl, rfl, rfl⟩
  | register addr v r t he hs hr hw => exact .inl (regWrite_latches hw)
  | command v i t he hd hc hx =>
    by_cases hi : i = .probeStart
    · exact .inr (.inl (hi ▸ hc))
    · exact .inl (exec_latches hx hi)
  | tick he => exact .inl (tickEvent_latches s)
  | rx b he => exact .inl (rxEvent_latches b s)
  | reset he => exact .inr (.inr he)

/-- Settles O47: ticks and inbound bytes commute with a change of CFG1 and INTERVAL_MS, and `Delivered.latches` names
the events that write a latch. -/
theorem runningProbeReadsItsLatches : Obligations.RunningProbeReadsItsLatches := by
  unfold Obligations.RunningProbeReadsItsLatches
  refine ⟨fun s c x b => ⟨tickEvent_withConfig c x s, rxEvent_withConfig b c x s⟩,
    fun s v => ⟨⟨cfg1OfWord v, rfl⟩, intervalOfWord v, rfl⟩, fun s t i hx hi => ?_, fun e s t hs hne => ?_⟩
  · obtain ⟨hc, hn, hil⟩ := exec_latches hx hi
    exact ⟨hc, hn, hil⟩
  · obtain ⟨u, hu, rfl⟩ := eventStep_next hs
    obtain ⟨hc, hn, hil⟩ | hcause := (deliver_next hu).latches
    · simp [hc, hn, hil] at hne
    · exact hcause

end Sys2Proof.Machine

/-! The bus window as the host reaches it (R40 to R49): an access of the window acts at its offset, a read only records
its answer, and an FBUF byte reads back as written. -/

namespace Sys2Proof.Machine

/-! A step from what its event delivers -/

theorem eventStep_of_deliver_next {e : Event} {s u : State} (h : deliver e s = .next u) :
    eventStep e s = .next (settle u) := by
  simp only [eventStep, h]

theorem eventStep_fault_iff {e : Event} {s : State} {f : Fault} :
    eventStep e s = .fault f ↔ deliver e s = .fault f := by
  unfold eventStep
  cases deliver e s <;> simp

theorem eventStep_refused_iff {e : Event} {s : State} {r : Refusal} :
    eventStep e s = .refused r ↔ deliver e s = .refused r := by
  unfold eventStep
  cases deliver e s <;> simp

/-! Offsets from P_XMC_BASE (R40) -/

theorem selected_base_add {off : Nat} (s : State) (h : off < windowSize) : selected (s.params.base + off) s = true :=
  decide_eq_true ⟨Nat.le_add_right _ _, Nat.add_lt_add_left h _⟩

theorem selected_outside {addr : Nat} {s : State} (h : addr < s.params.base ∨ s.params.base + windowSize ≤ addr) :
    selected addr s = false :=
  decide_eq_false (by omega)

theorem deliver_busRead_ok {off width : Nat} {d : Word} {s : State} (hoff : off < windowSize)
    (h : readData off width s = .ok d) :
    deliver (.busRead (s.params.base + off) width) s =
      .next { s with replies := s.replies ++ [{ step := s.stepNo, addr := s.params.base + off, data := d }] } := by
  simp only [deliver, busReadEvent, selected_base_add s hoff, Nat.add_sub_cancel_left, h, if_true]

theorem deliver_busRead_error {off width : Nat} {f : Fault} {s : State} (hoff : off < windowSize)
    (h : readData off width s = .error f) : deliver (.busRead (s.params.base + off) width) s = .fault f := by
  simp only [deliver, busReadEvent, selected_base_add s hoff, Nat.add_sub_cancel_left, h, if_true]

theorem deliver_busWrite {off : Nat} (width : Nat) (v : Word) (s : State) (hoff : off < windowSize) :
    deliver (.busWrite (s.params.base + off) width v) s = writeOffset off width v s := by
  simp only [deliver, busWriteEvent, selected_base_add s hoff, Nat.add_sub_cancel_left, if_true]

theorem deliver_busRead_outside {addr : Nat} (width : Nat) {s : State}
    (h : addr < s.params.base ∨ s.params.base + windowSize ≤ addr) : deliver (.busRead addr width) s = .next s := by
  simp [deliver, busReadEvent, selected_outside h]

theorem deliver_busWrite_outside {addr : Nat} (width : Nat) (v : Word) {s : State}
    (h : addr < s.params.base ∨ s.params.base + windowSize ≤ addr) : deliver (.busWrite addr width v) s = .next s := by
  simp [deliver, busWriteEvent, selected_outside h]

/-- Settles O17: inside the window an access delivers what its offset does, outside it delivers nothing, and the step is
then closed. -/
theorem accessesReachTheWindow : Obligations.AccessesReachTheWindow := by
  unfold Obligations.AccessesReachTheWindow
  refine ⟨fun s off width d hoff hd => ?_, fun s off width f hoff hf => ?_, fun s off width v hoff => ?_,
    fun s addr width v hout => ⟨?_, ?_⟩⟩
  · exact eventStep_of_deliver_next (deliver_busRead_ok hoff hd)
  · exact eventStep_fault_iff.mpr (deliver_busRead_error hoff hf)
  · rw [eventStep, deliver_busWrite width v s hoff]
    cases writeOffset off width v s with
    | next t => rfl
    | fault f => rfl
    | refused r => rfl
  · exact eventStep_of_deliver_next (deliver_busRead_outside width hout)
  · exact eventStep_of_deliver_next (deliver_busWrite_outside width v hout)

/-- Settles O21: of all that an event can deliver, a read can only add its answer to the record, or reach nothing. -/
theorem readsHaveNoSideEffect : Obligations.ReadsHaveNoSideEffect := by
  unfold Obligations.ReadsHaveNoSideEffect
  intro addr width s t ht
  obtain ⟨u, hu, rfl⟩ := eventStep_next ht
  cases deliver_next hu with
  | notSelected => exact ⟨[], by rw [List.append_nil]; rfl⟩
  | read _ _ w _ => exact ⟨[{ step := s.stepNo, addr := _, data := w }], rfl⟩
  | register _ _ _ _ he | fbuf _ _ _ _ he | illegal _ _ he | command _ _ _ he | tick he | rx _ he | reset he => cases he

/-! What a read answers at each target of the window -/

theorem busTarget_fbufOffset_add {i : Nat} (hi : i < fbufSize) : busTarget (fbufOffset + i) 1 = .ok (.fbuf i) := by
  simp only [fbufSize] at hi
  have hreg : ¬ fbufOffset + i < 0x044 := by simp only [fbufOffset]; omega
  simp [busTarget, hreg, fbufSize, hi]

theorem readData_of_reg {off width : Nat} {r : Reg} {w : Word} {s : State} (ht : busTarget off width = .ok (.reg r))
    (hr : regRead r s = some w) : readData off width s = .ok w := by
  simp only [readData, ht, hr]

theorem readData_fbuf_ok {i : Nat} {b : Byte} {s : State} (hi : i < fbufSize) (hb : s.fbuf.read i = some b) :
    readData (fbufOffset + i) 1 s = .ok (b.setWidth 32) := by
  simp only [readData, busTarget_fbufOffset_add hi, fbufRead_ok.mpr hb]

theorem readData_fbuf_error {i : Nat} {s : State} (hi : i < fbufSize) (hn : s.fbuf.read i = none) :
    readData (fbufOffset + i) 1 s = .error (.unwrittenRead i) := by
  simp only [readData, busTarget_fbufOffset_add hi, fbufRead_error.mpr ⟨hn, rfl⟩]

theorem writeOffset_fbuf {i : Nat} (v : Word) (s : State) (hi : i < fbufSize) :
    writeOffset (fbufOffset + i) 1 v s = .next { s with fbuf := s.fbuf.write i (v.extractLsb' 0 8) } := by
  simp only [writeOffset, busTarget_fbufOffset_add hi]

/-- Settles O22: the access reaches FBUF's byte `i`, and the frame buffer's laws say what is read after the write. -/
theorem fbufBytesReadBack : Obligations.FbufBytesReadBack := by
  unfold Obligations.FbufBytesReadBack
  intro i v s hi
  exact ⟨⟨s.fbuf.write i (v.extractLsb' 0 8), writeOffset_fbuf v s hi, Memory.read_write_same _ _ _,
    fun j hj => Memory.read_write_other _ _ hj⟩, fun b => readData_fbuf_ok hi, readData_fbuf_error hi⟩

/-- Settles O16: each offset reaches its register of R41, which reads as its word. -/
theorem registersReadAtTheirOffsets : Obligations.RegistersReadAtTheirOffsets := by
  unfold Obligations.RegistersReadAtTheirOffsets
  intro s
  refine ⟨?_, ?_, ?_, ?_, ?_, ?_, ?_, ?_, ?_, ?_, ?_, ?_, ?_, ?_, ?_, ?_⟩
  all_goals exact readData_of_reg rfl rfl

end Sys2Proof.Machine

/-! Where a step can fault, and that it is never refused: DECODE's faults by the stage of R82 that meets the unwritten
byte (R46), and the events that can fault at all (R164). -/

namespace Sys2Proof.Machine

/-! DECODE -/

/-- The fault of a byte within FLEN that nothing wrote (R46). -/
def UnwrittenInFrame (s : State) (f : Fault) : Prop :=
  ∃ i, f = .unwrittenRead i ∧ i < s.flen.toNat ∧ s.fbuf.read i = none

theorem UnwrittenInFrame.of_fbufRead {s : State} {i : Nat} {f : Fault} (h : fbufRead s.fbuf i = .error f)
    (hi : i < s.flen.toNat) : UnwrittenInFrame s f := by
  obtain ⟨hn, rfl⟩ := fbufRead_error.mp h
  exact ⟨i, rfl, hi, hn⟩

theorem UnwrittenInFrame.of_fbufReadBytes {s : State} {start n : Nat} {f : Fault}
    (h : fbufReadBytes s.fbuf start n = .error f) (hn : start + n ≤ s.flen.toNat) : UnwrittenInFrame s f := by
  obtain ⟨j, hj, hread, -, rfl⟩ := fbufReadBytes_error.mp h
  exact ⟨start + j, rfl, by omega, hread⟩

/-- The trailer is the last T bytes of the frame (R71). -/
theorem receivedTrailer_error {s : State} {f : Fault} (h : receivedTrailer s = .error f)
    (hlen : s.flen.toNat = frameLen s) : UnwrittenInFrame s f := by
  have hT := (trailerLen_pos s).1
  simp only [frameLen] at hlen
  unfold receivedTrailer at h
  split at h
  · next g hg => exact Except.error.inj h ▸ .of_fbufRead hg (by omega)
  · split at h
    · split at h
      · next g hg => exact Except.error.inj h ▸ .of_fbufRead hg (by omega)
      · cases h
    · cases h

theorem judgeTrailer_error {s : State} {d : Dstat} {tries : BitVec 16} {f : Fault}
    (h : judgeTrailer d tries s = .error f) (hlen : s.flen.toNat = frameLen s) : UnwrittenInFrame s f := by
  unfold judgeTrailer at h
  split at h
  · next g hg => exact Except.error.inj h ▸ .of_fbufReadBytes hg (by simp only [hlen, frameLen]; omega)
  · split at h
    · next g hg => exact Except.error.inj h ▸ receivedTrailer_error hg hlen
    · extract_lets comp t d' at h
      split at h
      · cases h
      · cases h

theorem judgeHeader_error {s : State} {c : Byte} {tries : BitVec 16} {f : Fault}
    (h : judgeHeader c tries s = .error f) : UnwrittenInFrame s f := by
  unfold judgeHeader at h
  extract_lets d at h
  split at h
  · cases h
  · split at h
    · next g hg => exact Except.error.inj h ▸ .of_fbufRead hg (by omega)
    · split at h
      · next g hg => exact Except.error.inj h ▸ .of_fbufRead hg (by omega)
      · extract_lets d' at h
        split at h
        · cases h
        · split at h
          · cases h
          · next hlen =>
            split at h
            · cases h
            · exact judgeTrailer_error h (not_not.mp hlen)

theorem judge_error {s : State} {f : Fault} (h : judge s = .error f) : UnwrittenInFrame s f := by
  unfold judge at h
  split at h
  · cases h
  · next hflen =>
    have hpos : 0 < s.flen.toNat := Nat.pos_of_ne_zero fun h0 => hflen (BitVec.eq_of_toNat_eq h0)
    split at h
    · next g hg => exact Except.error.inj h ▸ .of_fbufRead hg hpos
    · split at h
      · exact judgeHeader_error h
      · cases h

theorem execDecode_fault {s : State} {f : Fault} (h : execDecode s = .fault f) : UnwrittenInFrame s f := by
  unfold execDecode at h
  split at h
  · next g hg => exact Host.Outcome.fault.inj h ▸ judge_error hg
  · cases h

/-! No refusal -/

theorem next_ne_refused (s : State) (r : Refusal) : (.next s : Result) ≠ .refused r := nofun

/-- No command of R64 is without a meaning. -/
theorem exec_ne_refused (i : Instr) (s : State) (r : Refusal) : exec i s ≠ .refused r := by
  cases i with
  | nop | crcInit | crcByte | sumInit | sumByte | classify | sessInit => exact next_ne_refused _ r
  | encode q k =>
    rw [exec_encode, execEncode]
    split
    · exact next_ne_refused _ r
    · cases encodedFbuf q k.toNat s <;> simp
  | decode =>
    rw [exec_decode, execDecode]
    cases judge s <;> simp
  | strip =>
    rw [exec_strip, execStrip]
    cases stripScan s.fbuf (payloadLen s) <;> simp
  | modesel b =>
    rw [exec_modesel, execModesel]
    split_ifs <;> exact next_ne_refused _ r
  | probeStart =>
    rw [exec_probeStart, execProbeStart]
    split <;> exact next_ne_refused _ r
  | probeCancel =>
    rw [exec_probeCancel, execProbeCancel]
    split <;> exact next_ne_refused _ r

/-- Settles O35: every stage of DECODE reads below FLEN only, so with those bytes written no stage faults. -/
theorem decodeFaultsOnlyOnUnwrittenBytes : Obligations.DecodeFaultsOnlyOnUnwrittenBytes := by
  unfold Obligations.DecodeFaultsOnlyOnUnwrittenBytes
  refine ⟨fun s hwritten => ?_, fun s f => execDecode_fault, exec_ne_refused .decode⟩
  cases hx : exec .decode s with
  | next t => exact ⟨t, rfl⟩
  | fault f =>
    obtain ⟨i, -, hi, hn⟩ := execDecode_fault hx
    exact absurd hn (hwritten i hi)
  | refused r => exact absurd hx (exec_ne_refused .decode s r)

theorem runCommand_ne_refused (w : Word) (s : State) (r : Refusal) : runCommand w s ≠ .refused r := by
  unfold runCommand
  split
  · exact exec_ne_refused _ s r
  · exact next_ne_refused _ r

theorem writeOffset_ne_refused (off width : Nat) (v : Word) (s : State) (r : Refusal) :
    writeOffset off width v s ≠ .refused r := by
  unfold writeOffset
  split
  · simp
  · simp
  · exact runCommand_ne_refused v s r
  · split <;> simp

theorem deliver_ne_refused (e : Event) (s : State) (r : Refusal) : deliver e s ≠ .refused r := by
  cases e with
  | busRead addr width =>
    rw [deliver, busReadEvent]
    split
    · cases readData (addr - s.params.base) width s <;> simp
    · simp
  | busWrite addr width v =>
    rw [deliver, busWriteEvent]
    split
    · exact writeOffset_ne_refused _ width v s r
    · simp
  | tick | rx | reset => exact next_ne_refused _ r

theorem step_ne_refused (s : State) (r : Refusal) : step s ≠ .refused r := by
  cases hs : s.inbox with
  | nil => simp [step_nil hs]
  | cons e rest =>
    rw [step_cons hs]
    exact mt eventStep_refused_iff.mp (deliver_ne_refused e _ r)

/-! The events that can fault -/

theorem step_fault {s : State} {f : Fault} (h : step s = .fault f) :
    ∃ e rest, s.inbox = e :: rest ∧ deliver e { s with inbox := rest } = .fault f := by
  cases hs : s.inbox with
  | nil => simp [step_nil hs] at h
  | cons e rest =>
    rw [step_cons hs] at h
    exact ⟨e, rest, rfl, eventStep_fault_iff.mp h⟩

/-- A host access faults, or no event does. -/
theorem deliver_fault {e : Event} {s : State} {f : Fault} (h : deliver e s = .fault f) :
    (∃ addr width, e = .busRead addr width) ∨ ∃ addr width v, e = .busWrite addr width v := by
  cases e with
  | busRead addr width => exact .inl ⟨addr, width, rfl⟩
  | busWrite addr width v => exact .inr ⟨addr, width, v, rfl⟩
  | tick | rx | reset => cases h

/-- An event with no host access: a tick, an inbound byte or a reset. -/
def Quiet (e : Event) : Prop := e = .tick ∨ e = .reset ∨ ∃ b, e = .rx b

theorem Quiet.eventStep {e : Event} (he : Quiet e) (s : State) : ∃ t, eventStep e s = .next t := by
  obtain rfl | rfl | ⟨b, rfl⟩ := he
  · exact ⟨_, rfl⟩
  · exact ⟨_, rfl⟩
  · exact ⟨_, rfl⟩

/-- A run over quiet events completes: each step leaves only quiet events to come (R51). -/
theorem safeRun_of_quiet (n : Nat) {s : State} (h : ∀ e ∈ s.inbox, Quiet e) : SafeRun n s := by
  induction n generalizing s with
  | zero => exact ⟨s, run_zero s⟩
  | succ n ih =>
    have hstep : ∃ u, step s = .next u ∧ ∀ e ∈ u.inbox, Quiet e := by
      cases hs : s.inbox with
      | nil => exact ⟨s, step_nil hs, h⟩
      | cons e rest =>
        rw [hs, List.forall_mem_cons] at h
        obtain ⟨u, hu⟩ := h.1.eventStep { s with inbox := rest }
        have hin : u.inbox = rest := (eventStep_inbox_params hu).1
        exact ⟨u, (step_cons hs).trans hu, hin ▸ h.2⟩
    obtain ⟨u, hu, hquiet⟩ := hstep
    obtain ⟨t, ht⟩ := ih hquiet
    exact ⟨t, (run_succ_of_step hu).trans ht⟩

/-- Settles O10: no operation refuses, the only events that can fault are the host's accesses, and a run without them
completes by induction on its length. -/
theorem onlyHostAccessesFault : Obligations.OnlyHostAccessesFault := by
  unfold Obligations.OnlyHostAccessesFault
  refine ⟨step_ne_refused, fun s f h => ?_, fun n s h => safeRun_of_quiet n h⟩
  obtain ⟨e, rest, hs, hf⟩ := step_fault h
  obtain ⟨addr, width, rfl⟩ | ⟨addr, width, v, rfl⟩ := deliver_fault hf
  · exact ⟨rest, .inl ⟨addr, width, hs⟩⟩
  · exact ⟨rest, .inr ⟨addr, width, v, hs⟩⟩

end Sys2Proof.Machine

/-! The command encoding (R60 to R66): `encode` and `decode` are inverse to each other, which gives the opcode map, the
illegal words and the assembler. -/

namespace Sys2Proof

/-! The opcode of an assembled word (R60) -/

@[simp] theorem opcField_encodeN (opc : Byte) : opcField (encodeN opc) = opc.toNat := by
  rw [opcField_eq, encodeN_toNat]
  omega

@[simp] theorem opcField_encodeB (opc b : Byte) : opcField (encodeB opc b) = opc.toNat := by
  have := b.isLt
  rw [opcField_eq, encodeB_toNat]
  omega

@[simp] theorem opcField_encodeE (opc seq : Byte) (k : BitVec 11) : opcField (encodeE opc seq k) = opc.toNat := by
  have := seq.isLt
  have := k.isLt
  rw [opcField_eq, encodeE_toNat]
  omega

/-! Its operands (R62, R63) -/

@[simp] theorem byteField_encodeB (opc b : Byte) : byteField (encodeB opc b) = b := by
  have := b.isLt
  rw [← BitVec.toNat_inj, byteField_toNat, encodeB_toNat]
  omega

@[simp] theorem byteField_encodeE (opc seq : Byte) (k : BitVec 11) : byteField (encodeE opc seq k) = seq := by
  have := seq.isLt
  rw [← BitVec.toNat_inj, byteField_toNat, encodeE_toNat]
  omega

@[simp] theorem countField_encodeE (opc seq : Byte) (k : BitVec 11) : countField (encodeE opc seq k) = k := by
  have := seq.isLt
  have := k.isLt
  rw [← BitVec.toNat_inj, countField_toNat, encodeE_toNat]
  omega

/-! Each format's decoder reads the format back (R61 to R63) -/

theorem decodeN_encodeN (opc : Byte) (i : Instr) : decodeN (encodeN opc) i = .ok i := by
  refine decodeN_ok.mpr ⟨?_, rfl⟩
  rw [encodeN_toNat]
  omega

theorem decodeB_encodeB (opc b : Byte) (mk : Byte → Instr) : decodeB (encodeB opc b) mk = .ok (mk b) := by
  refine decodeB_ok.mpr ⟨?_, by rw [byteField_encodeB]⟩
  have := b.isLt
  rw [encodeB_toNat]
  omega

theorem decodeE_encodeE (opc seq : Byte) (k : BitVec 11) (mk : Byte → BitVec 11 → Instr) :
    decodeE (encodeE opc seq k) mk = .ok (mk seq k) := by
  refine decodeE_ok.mpr ⟨?_, by rw [byteField_encodeE, countField_encodeE]⟩
  have := seq.isLt
  have := k.isLt
  rw [encodeE_toNat]
  omega

/-- The opcode selects the decoder of the command's format, which reads the command back. -/
@[simp] theorem decode_encode (i : Instr) : decode (encode i) = .ok i := by
  cases i with
  | nop | crcInit | sumInit | decode | strip | probeStart | probeCancel | sessInit =>
    rw [encode, decode, opcField_encodeN]
    exact decodeN_encodeN _ _
  | crcByte b | sumByte b | classify b | modesel b =>
    rw [encode, decode, opcField_encodeB]
    exact decodeB_encodeB _ _ _
  | encode seq k =>
    rw [encode, decode, opcField_encodeE]
    exact decodeE_encodeE _ _ _ _

/-- Settles O3: every command is read back from its encoding, well-formedness being no restriction. -/
theorem decodeOfEncodeIsTheCommand : Obligations.DecodeOfEncodeIsTheCommand := by
  unfold Obligations.DecodeOfEncodeIsTheCommand
  exact fun i _ => decode_encode i

/-! A word with its reserved bits 0 is its fields assembled (R61 to R63) -/

theorem eq_encodeN {w : Word} {opc : Byte} (hopc : w.toNat / 2 ^ 24 = opc.toNat) (hz : w.toNat % 2 ^ 24 = 0) :
    encodeN opc = w := by
  rw [← BitVec.toNat_inj, encodeN_toNat]
  omega

theorem eq_encodeB {w : Word} {opc : Byte} (hopc : w.toNat / 2 ^ 24 = opc.toNat)
    (hz : w.toNat / 2 ^ 8 % 2 ^ 16 = 0) : encodeB opc (byteField w) = w := by
  rw [← BitVec.toNat_inj, encodeB_toNat, byteField_toNat]
  omega

theorem eq_encodeE {w : Word} {opc : Byte} (hopc : w.toNat / 2 ^ 24 = opc.toNat)
    (hz : w.toNat / 2 ^ 19 % 2 ^ 5 = 0) : encodeE opc (byteField w) (countField w) = w := by
  rw [← BitVec.toNat_inj, encodeE_toNat, byteField_toNat, countField_toNat]
  omega

theorem encode_of_decode {w : Word} {i : Instr} (h : decode w = .ok i) : encode i = w := by
  obtain ⟨opc, hi, hopc, hz⟩ | ⟨opc, b, hi, hopc, hz, rfl⟩ | ⟨rfl, hopc, hz⟩ := decode_ok_cases h
  · simp only [List.mem_cons, Prod.mk.injEq, List.not_mem_nil, or_false] at hi
    obtain ⟨rfl, rfl⟩ | ⟨rfl, rfl⟩ | ⟨rfl, rfl⟩ | ⟨rfl, rfl⟩ | ⟨rfl, rfl⟩ | ⟨rfl, rfl⟩ | ⟨rfl, rfl⟩ | ⟨rfl, rfl⟩ := hi
    all_goals exact eq_encodeN hopc hz
  · simp only [List.mem_cons, Prod.mk.injEq, List.not_mem_nil, or_false] at hi
    obtain ⟨rfl, rfl⟩ | ⟨rfl, rfl⟩ | ⟨rfl, rfl⟩ | ⟨rfl, rfl⟩ := hi
    all_goals exact eq_encodeB hopc hz
  · exact eq_encodeE hopc hz

theorem decode_eq_ok_iff {w : Word} {i : Instr} : decode w = .ok i ↔ encode i = w :=
  ⟨encode_of_decode, fun h => h ▸ decode_encode i⟩

/-- Settles O4: a word that decodes is its command assembled, and the fields of an assembled word are its operands. -/
theorem decodedWordIsItsEncoding : Obligations.DecodedWordIsItsEncoding := by
  unfold Obligations.DecodedWordIsItsEncoding
  refine ⟨fun w i => encode_of_decode, fun w b h => ?_, fun w seq k h => ?_⟩
  · rw [← byteField_toNat]
    obtain h | h | h | h := h
    all_goals
      rw [← encode_of_decode h, encode, byteField_encodeB]
  · rw [← byteField_toNat, ← countField_toNat, ← encode_of_decode h, encode, byteField_encodeE, countField_encodeE]
    exact ⟨rfl, rfl⟩

/-! The opcode map (R64) -/

theorem exists_row_selects_encode (i : Instr) :
    ∃ r ∈ opcodeMap, r.mnemonic = i.mnemonic ∧ r.selects (encode i) = true := by
  cases i with
  | nop => exact Laws.EncodeSelectsItsRow.nop
  | crcInit => exact Laws.EncodeSelectsItsRow.crcInit
  | crcByte b => exact Laws.EncodeSelectsItsRow.crcByte b
  | sumInit => exact Laws.EncodeSelectsItsRow.sumInit
  | sumByte b => exact Laws.EncodeSelectsItsRow.sumByte b
  | encode seq k => exact Laws.EncodeSelectsItsRow.encode seq k
  | decode => exact Laws.EncodeSelectsItsRow.decode
  | strip => exact Laws.EncodeSelectsItsRow.strip
  | classify b => exact Laws.EncodeSelectsItsRow.classify b
  | modesel b => exact Laws.EncodeSelectsItsRow.modesel b
  | probeStart => exact Laws.EncodeSelectsItsRow.probeStart
  | probeCancel => exact Laws.EncodeSelectsItsRow.probeCancel
  | sessInit => exact Laws.EncodeSelectsItsRow.sessInit

/-- A format B row selects only words of its opcode. -/
theorem encodeB_of_selects {m : Mnemonic} {v w : Word} {opc : Byte} (hv : encodeB opc 0 = v)
    (h : OpcodeRow.selects ⟨m, v, 0xFFFFFF00⟩ w = true) : encodeB opc (byteField w) = w := by
  have hw := (selectsB m v w).mp h
  rw [← hv, encodeB_toNat] at hw
  exact eq_encodeB (by omega) (by omega)

/-- The format E row selects only words of its opcode. -/
theorem encodeE_of_selects {m : Mnemonic} {v w : Word} {opc : Byte} (hv : encodeE opc 0 0 = v)
    (h : OpcodeRow.selects ⟨m, v, 0xFFF80000⟩ w = true) : encodeE opc (byteField w) (countField w) = w := by
  have hw := (selectsE m v w).mp h
  rw [← hv, encodeE_toNat] at hw
  exact eq_encodeE (by omega) (by omega)

/-- A row selects only encodings of its own mnemonic's commands. -/
theorem exists_encode_of_selects {r : OpcodeRow} {w : Word} (hr : r ∈ opcodeMap) (h : r.selects w = true) :
    ∃ i, encode i = w ∧ i.mnemonic = r.mnemonic := by
  simp only [opcodeMap, List.mem_cons, List.not_mem_nil, or_false] at hr
  obtain rfl | rfl | rfl | rfl | rfl | rfl | rfl | rfl | rfl | rfl | rfl | rfl | rfl := hr
  · exact ⟨.nop, ((selectsN _ _ _).mp h).symm, rfl⟩
  · exact ⟨.crcInit, ((selectsN _ _ _).mp h).symm, rfl⟩
  · exact ⟨.crcByte (byteField w), encodeB_of_selects rfl h, rfl⟩
  · exact ⟨.sumInit, ((selectsN _ _ _).mp h).symm, rfl⟩
  · exact ⟨.sumByte (byteField w), encodeB_of_selects rfl h, rfl⟩
  · exact ⟨.encode (byteField w) (countField w), encodeE_of_selects rfl h, rfl⟩
  · exact ⟨.decode, ((selectsN _ _ _).mp h).symm, rfl⟩
  · exact ⟨.strip, ((selectsN _ _ _).mp h).symm, rfl⟩
  · exact ⟨.classify (byteField w), encodeB_of_selects rfl h, rfl⟩
  · exact ⟨.modesel (byteField w), encodeB_of_selects rfl h, rfl⟩
  · exact ⟨.probeStart, ((selectsN _ _ _).mp h).symm, rfl⟩
  · exact ⟨.probeCancel, ((selectsN _ _ _).mp h).symm, rfl⟩
  · exact ⟨.sessInit, ((selectsN _ _ _).mp h).symm, rfl⟩

theorem exists_decode_of_selects {r : OpcodeRow} {w : Word} (hr : r ∈ opcodeMap) (h : r.selects w = true) :
    ∃ i, decode w = .ok i ∧ i.mnemonic = r.mnemonic := by
  obtain ⟨i, hi, hm⟩ := exists_encode_of_selects hr h
  exact ⟨i, decode_eq_ok_iff.mpr hi, hm⟩

theorem exists_row_of_decode {w : Word} {i : Instr} (h : decode w = .ok i) :
    ∃ r ∈ opcodeMap, r.selects w = true ∧ r.mnemonic = i.mnemonic := by
  obtain ⟨r, hr, hm, hsel⟩ := exists_row_selects_encode i
  exact ⟨r, hr, encode_of_decode h ▸ hsel, hm⟩

theorem row_eq_of_mnemonic_eq : ∀ r ∈ opcodeMap, ∀ r' ∈ opcodeMap, r.mnemonic = r'.mnemonic → r = r' := by decide

/-- Two rows that select one word have the mnemonic of the one command it decodes to. -/
theorem row_eq_of_selects {r r' : OpcodeRow} {w : Word} (hr : r ∈ opcodeMap) (hr' : r' ∈ opcodeMap)
    (h : r.selects w = true) (h' : r'.selects w = true) : r = r' := by
  obtain ⟨i, hi, hm⟩ := exists_decode_of_selects hr h
  obtain ⟨j, hj, hm'⟩ := exists_decode_of_selects hr' h'
  obtain rfl : i = j := Except.ok.inj (hi.symm.trans hj)
  exact row_eq_of_mnemonic_eq r hr r' hr' (hm.symm.trans hm')

/-- Settles O2: a row selects exactly the encodings of its own commands. -/
theorem opcodeMapSelectsTheCommand : Obligations.OpcodeMapSelectsTheCommand := by
  unfold Obligations.OpcodeMapSelectsTheCommand
  exact ⟨fun w r => exists_decode_of_selects, fun w i => exists_row_of_decode,
    fun w r hr r' hr' => row_eq_of_selects hr hr', by decide, by decide⟩

/-! Illegal words (R65) -/

theorem decode_of_unassigned {w : Word} (h : w.toNat / 2 ^ 24 ∉
      [0x00, 0x01, 0x02, 0x03, 0x04, 0x10, 0x11, 0x12, 0x20, 0x21, 0x30, 0x31, 0x3F]) :
    decode w = .error (.unassignedOpcode (w.toNat / 2 ^ 24)) := by
  rw [← opcField_eq] at h ⊢
  unfold decode
  split
  case h_14 => rfl
  all_goals
    next he => exact absurd (by rw [he]; decide) h

theorem decode_of_reservedN {w : Word} (hopc : w.toNat / 2 ^ 24 ∈ [0x00, 0x01, 0x03, 0x11, 0x12, 0x30, 0x31, 0x3F])
    (hbits : w.toNat % 2 ^ 24 ≠ 0) : decode w = .error (.reservedBits (w.toNat / 2 ^ 24)) := by
  rw [← opcField_eq] at hopc ⊢
  simp only [List.mem_cons, List.not_mem_nil, or_false] at hopc
  obtain he | he | he | he | he | he | he | he := hopc
  all_goals
    simp only [decode, he]
    exact he ▸ decodeN_error.mpr ⟨hbits, rfl⟩

theorem decode_of_reservedB {w : Word} (hopc : w.toNat / 2 ^ 24 ∈ [0x02, 0x04, 0x20, 0x21])
    (hbits : w.toNat / 2 ^ 8 % 2 ^ 16 ≠ 0) : decode w = .error (.reservedBits (w.toNat / 2 ^ 24)) := by
  rw [← opcField_eq] at hopc ⊢
  simp only [List.mem_cons, List.not_mem_nil, or_false] at hopc
  obtain he | he | he | he := hopc
  all_goals
    simp only [decode, he]
    exact he ▸ decodeB_error.mpr ⟨hbits, rfl⟩

theorem decode_of_reservedE {w : Word} (hopc : w.toNat / 2 ^ 24 = 0x10) (hbits : w.toNat / 2 ^ 19 % 2 ^ 5 ≠ 0) :
    decode w = .error (.reservedBits (w.toNat / 2 ^ 24)) := by
  rw [← opcField_eq] at hopc ⊢
  simp only [decode, hopc]
  exact hopc ▸ decodeE_error.mpr ⟨hbits, rfl⟩

theorem decode_error_of_not_selected {w : Word} (h : ∀ r ∈ opcodeMap, r.selects w = false) :
    ∃ x, decode w = .error x := by
  cases hd : decode w with
  | error x => exact ⟨x, rfl⟩
  | ok i =>
    obtain ⟨r, hr, hsel, -⟩ := exists_row_of_decode hd
    exact absurd hsel (Bool.eq_false_iff.mp (h r hr))

/-- R65, R161: a word that stands for no command has the refusal as its whole effect. -/
theorem runCommand_of_decode_error {w : Word} {x : IllegalWord} (h : decode w = .error x) (s : Machine.State) :
    Machine.runCommand w s = .next (Machine.cmdErrorState .illegal s) := by
  rw [Machine.runCommand, h, ← Machine.raiseCmdError_eq]

/-- Settles O5: a word of no row does not decode, and R65's two causes are the two ways in which a word does not. -/
theorem illegalWordIsRefused : Obligations.IllegalWordIsRefused := by
  unfold Obligations.IllegalWordIsRefused
  refine ⟨fun w s h => ?_, fun w opc => ⟨fun h => ?_, ?_⟩, fun w opc => ⟨fun h => ?_, ?_⟩⟩
  · obtain ⟨x, hx⟩ := decode_error_of_not_selected h
    exact runCommand_of_decode_error hx s
  · obtain ⟨hx, hn⟩ | ⟨hx, -⟩ := decode_error_cases h
    · cases hx
      exact ⟨rfl, hn⟩
    · cases hx
  · rintro ⟨rfl, hn⟩
    exact decode_of_unassigned hn
  · obtain ⟨hx, -⟩ | ⟨hx, hbits⟩ := decode_error_cases h
    · cases hx
    · cases hx
      exact ⟨rfl, hbits⟩
  · rintro ⟨rfl, ⟨hopc, hbits⟩ | ⟨hopc, hbits⟩ | ⟨hopc, hbits⟩⟩
    · exact decode_of_reservedN hopc hbits
    · exact decode_of_reservedB hopc hbits
    · exact decode_of_reservedE hopc hbits

/-! The assembler (R66) -/

theorem byteOperandOk_iff {b : Nat} : byteOperandOk b = true ↔ b < 256 := decide_eq_true_iff

theorem countOperandOk_iff {k : Nat} : countOperandOk k = true ↔ k < 2048 := decide_eq_true_iff

/-- A number in range is the value of an operand. -/
theorem exists_byte_of_byteOperandOk {b : Nat} (h : byteOperandOk b = true) : ∃ c : Byte, c.toNat = b :=
  ⟨.ofNat 8 b, Nat.mod_eq_of_lt (byteOperandOk_iff.mp h)⟩

theorem exists_count_of_countOperandOk {k : Nat} (h : countOperandOk k = true) : ∃ c : BitVec 11, c.toNat = k :=
  ⟨.ofNat 11 k, Nat.mod_eq_of_lt (countOperandOk_iff.mp h)⟩

/-- The operands of a well-formed line of a byte command (R62, R66). -/
theorem operands_eq_byte {m : Mnemonic} {ops : List Nat} (hm : m ∈ [.CRC_BYTE, .SUM_BYTE, .CLASSIFY, .MODESEL])
    (h : Spelling.wellFormed ⟨m, ops⟩ = true) : ∃ b : Byte, ops = [b.toNat] := by
  simp only [List.mem_cons, List.not_mem_nil, or_false] at hm
  obtain rfl | rfl | rfl | rfl := hm
  all_goals
    simp only [Spelling.wellFormed] at h
    split at h
    · next b =>
      obtain ⟨c, rfl⟩ := exists_byte_of_byteOperandOk h
      exact ⟨c, rfl⟩
    · cases h

/-- The operands of a well-formed ENCODE line (R63, R66). -/
theorem operands_eq_encode {ops : List Nat} (h : Spelling.wellFormed ⟨.ENCODE, ops⟩ = true) :
    ∃ (seq : Byte) (k : BitVec 11), ops = [seq.toNat, k.toNat] := by
  simp only [Spelling.wellFormed] at h
  split at h
  · next seq k =>
    obtain ⟨hseq, hk⟩ := (Bool.and_eq_true _ _).mp h
    obtain ⟨q, rfl⟩ := exists_byte_of_byteOperandOk hseq
    obtain ⟨c, rfl⟩ := exists_count_of_countOperandOk hk
    exact ⟨q, c, rfl⟩
  · cases h

@[simp] theorem assembleInstr_spelling (i : Instr) : assembleInstr i.spelling = some i := by
  have hwf : i.spelling.wellFormed = true := wellFormed_eq_true i
  rw [assembleInstr, if_pos hwf]
  cases i with
  | nop | crcInit | sumInit | decode | strip | probeStart | probeCancel | sessInit => rfl
  | crcByte b | sumByte b | classify b | modesel b => simp [Instr.spelling, Instr.mnemonic]
  | encode seq k => simp [Instr.spelling, Instr.mnemonic]

/-- A line with as many operands as its mnemonic takes, each in its range, spells a command. -/
theorem exists_spelling_of_wellFormed {l : Spelling} (h : l.wellFormed = true) : ∃ i : Instr, i.spelling = l := by
  obtain ⟨m, ops⟩ := l
  cases m with
  | NOP => exact ⟨.nop, congrArg (Spelling.mk .NOP) (List.isEmpty_iff.mp h).symm⟩
  | CRC_INIT => exact ⟨.crcInit, congrArg (Spelling.mk .CRC_INIT) (List.isEmpty_iff.mp h).symm⟩
  | SUM_INIT => exact ⟨.sumInit, congrArg (Spelling.mk .SUM_INIT) (List.isEmpty_iff.mp h).symm⟩
  | DECODE => exact ⟨.decode, congrArg (Spelling.mk .DECODE) (List.isEmpty_iff.mp h).symm⟩
  | STRIP => exact ⟨.strip, congrArg (Spelling.mk .STRIP) (List.isEmpty_iff.mp h).symm⟩
  | PROBE_START => exact ⟨.probeStart, congrArg (Spelling.mk .PROBE_START) (List.isEmpty_iff.mp h).symm⟩
  | PROBE_CANCEL => exact ⟨.probeCancel, congrArg (Spelling.mk .PROBE_CANCEL) (List.isEmpty_iff.mp h).symm⟩
  | SESS_INIT => exact ⟨.sessInit, congrArg (Spelling.mk .SESS_INIT) (List.isEmpty_iff.mp h).symm⟩
  | CRC_BYTE =>
    obtain ⟨b, rfl⟩ := operands_eq_byte (by decide) h
    exact ⟨.crcByte b, rfl⟩
  | SUM_BYTE =>
    obtain ⟨b, rfl⟩ := operands_eq_byte (by decide) h
    exact ⟨.sumByte b, rfl⟩
  | CLASSIFY =>
    obtain ⟨b, rfl⟩ := operands_eq_byte (by decide) h
    exact ⟨.classify b, rfl⟩
  | MODESEL =>
    obtain ⟨b, rfl⟩ := operands_eq_byte (by decide) h
    exact ⟨.modesel b, rfl⟩
  | ENCODE =>
    obtain ⟨seq, k, rfl⟩ := operands_eq_encode h
    exact ⟨.encode seq k, rfl⟩

theorem assembleInstr_eq_some_iff {l : Spelling} {i : Instr} : assembleInstr l = some i ↔ i.spelling = l := by
  refine ⟨fun h => ?_, fun h => h ▸ assembleInstr_spelling i⟩
  cases hl : l.wellFormed with
  | false => simp [assembleInstr, hl] at h
  | true =>
    obtain ⟨j, rfl⟩ := exists_spelling_of_wellFormed hl
    rw [assembleInstr_spelling] at h
    rw [Option.some.inj h]

theorem assemble_eq_some_iff {l : Spelling} {w : Word} :
    assemble l = some w ↔ ∃ i : Instr, i.spelling = l ∧ encode i = w := by
  simp only [assemble, Option.map_eq_some_iff, assembleInstr_eq_some_iff]

/-- Settles O6: a line assembles to the encoding of the command it spells, and it spells one exactly when it is
well-formed. -/
theorem assemblerFollowsTheSyntax : Obligations.AssemblerFollowsTheSyntax := by
  unfold Obligations.AssemblerFollowsTheSyntax
  refine ⟨fun l => ⟨?_, fun h => ?_⟩, fun l w h => ?_, fun i => assemble_eq_some_iff.mpr ⟨i, rfl, rfl⟩, by decide,
    by decide, fun base i => rfl⟩
  · rintro ⟨w, hw⟩
    obtain ⟨i, rfl, -⟩ := assemble_eq_some_iff.mp hw
    exact wellFormed_eq_true i
  · obtain ⟨i, hi⟩ := exists_spelling_of_wellFormed h
    exact ⟨encode i, assemble_eq_some_iff.mpr ⟨i, hi, rfl⟩⟩
  · obtain ⟨i, hi, rfl⟩ := assemble_eq_some_iff.mp h
    exact ⟨i, decode_encode i, hi⟩

/-- Settles O1: the decoder evaluated on each of the words. -/
theorem decodeOfSampleWords : Obligations.DecodeOfSampleWords := by
  unfold Obligations.DecodeOfSampleWords
  decide

end Sys2Proof

/-! ENCODE (R80, R81): the frame as one list of bytes, built in FBUF from the loaded bytes and held there. -/

namespace Sys2Proof.Machine

/-! Bytes held in FBUF -/

theorem holdsBytes_iff_fbufReadBytes {m : Memory} {start : Nat} {bs : List Byte} :
    holdsBytes m start bs ↔ fbufReadBytes m start bs.length = .ok bs :=
  ⟨fun h => fbufReadBytes_ok.mpr ⟨rfl, h⟩, fun h => (fbufReadBytes_ok.mp h).2⟩

theorem holdsBytes_append {m : Memory} {start : Nat} {as bs : List Byte} :
    holdsBytes m start (as ++ bs) ↔ holdsBytes m start as ∧ holdsBytes m (start + as.length) bs := by
  constructor
  · refine fun h => ⟨fun j hj => ?_, fun j hj => ?_⟩
    · have := h j (by rw [List.length_append]; omega)
      rwa [List.getElem_append_left hj] at this
    · have := h (as.length + j) (by rw [List.length_append]; omega)
      rwa [← Nat.add_assoc, List.getElem_append_right (Nat.le_add_right ..),
      getElem_congr_idx (Nat.add_sub_cancel_left ..)] at this
  · rintro ⟨has, hbs⟩ j hj
    rw [List.length_append] at hj
    rcases Nat.lt_or_ge j as.length with hlt | hge
    · rw [List.getElem_append_left hlt]
      exact has j hlt
    · rw [List.getElem_append_right hge, ← hbs _ (by omega)]
      congr 1
      omega

@[simp] theorem holdsBytes_nil (m : Memory) (start : Nat) : holdsBytes m start [] := nofun

@[simp] theorem holdsBytes_cons {m : Memory} {start : Nat} {b : Byte} {bs : List Byte} :
    holdsBytes m start (b :: bs) ↔ m.read start = some b ∧ holdsBytes m (start + 1) bs := by
  rw [← List.singleton_append, holdsBytes_append]
  simp [holdsBytes]

/-- A range of FBUF holds at most one list of bytes of a length. -/
theorem holdsBytes_unique {m : Memory} {start : Nat} {as bs : List Byte} (hlen : as.length = bs.length)
    (has : holdsBytes m start as) (hbs : holdsBytes m start bs) : as = bs :=
  List.ext_getElem hlen fun j ha hb => Option.some.inj ((has j ha).symm.trans (hbs j hb))

theorem holdsBytes_congr {m m' : Memory} {start : Nat} {bs : List Byte} (h : holdsBytes m start bs)
    (heq : ∀ j < bs.length, m.read (start + j) = m'.read (start + j)) : holdsBytes m' start bs :=
  fun j hj => (heq j hj).symm.trans (h j hj)

theorem read_eq_of_holdsBytes {m m' : Memory} {start j : Nat} {bs : List Byte} (h : holdsBytes m start bs)
    (h' : holdsBytes m' start bs) (hj : j < bs.length) : m.read (start + j) = m'.read (start + j) :=
  (h j hj).trans (h' j hj).symm

/-! The frame -/

/-- The payload ENCODE sends for its loaded bytes: filler up to B bytes (R80). -/
def paddedPayload (s : State) (p : List Byte) : List Byte :=
  p ++ List.replicate (payloadLen s - p.length) filler

/-- The frame of a payload (R71, R80): the control byte, the sequence number and its complement, the payload, its
trailer. -/
def frameOf (s : State) (seq : Byte) (payload : List Byte) : List Byte :=
  [controlByte s, seq, 0xFF - seq] ++ payload ++ trailer payload (trailerLen s)

theorem paddedPayload_length {s : State} {p : List Byte} (h : p.length ≤ payloadLen s) :
    (paddedPayload s p).length = payloadLen s := by
  rw [paddedPayload, List.length_append, List.length_replicate]
  omega

/-- No filler is added to a whole block (R80). -/
theorem paddedPayload_of_full {s : State} {p : List Byte} (h : p.length = payloadLen s) : paddedPayload s p = p := by
  simp [paddedPayload, h]

theorem frameOf_length {s : State} {payload : List Byte} (seq : Byte) (h : payload.length = payloadLen s) :
    (frameOf s seq payload).length = frameLen s := by
  simp only [frameOf, List.length_append, trailer_length, h, List.length_cons, List.length_nil, frameLen]

/-- A frame is held where its header, payload and trailer are. -/
theorem holdsBytes_frameOf {m : Memory} {s : State} {seq : Byte} {payload : List Byte}
    (h : payload.length = payloadLen s) :
    holdsBytes m 0 (frameOf s seq payload) ↔
      (m.read 0 = some (controlByte s) ∧ m.read 1 = some seq ∧ m.read 2 = some (0xFF - seq)) ∧
        holdsBytes m 3 payload ∧ holdsBytes m (3 + payloadLen s) (trailer payload (trailerLen s)) := by
  simp only [frameOf, holdsBytes_append, holdsBytes_cons, holdsBytes_nil, and_true, List.length_append,
    List.length_cons, List.length_nil, h, Nat.zero_add, and_assoc]

/-- The trailer by the mode (R104). -/
theorem trailer_eq (s : State) (p : List Byte) :
    trailer p (trailerLen s) = if s.mode = .crc16 then [highByte (crc16 p), lowByte (crc16 p)] else [sum8 p] := by
  cases hm : s.mode <;> simp [trailer, trailerLen, hm]

theorem flen_toNat_of_frameLen (s : State) : (BitVec.ofNat 11 (frameLen s)).toNat = frameLen s := by
  have := frameLen_le s
  rw [BitVec.toNat_ofNat]
  exact Nat.mod_eq_of_lt (by simp only [fbufSize] at this; omega)

/-! What ENCODE leaves -/

/-- The buffer `m` is what ENCODE makes of the loaded bytes `p` of `s` (R80): their frame, with the bytes beyond it as
before. -/
structure FrameBuilt (s : State) (seq : Byte) (p : List Byte) (m : Memory) : Prop where
  loaded : holdsBytes s.fbuf 3 p
  frame : holdsBytes m 0 (frameOf s seq (paddedPayload s p))
  beyond : ∀ a, frameLen s ≤ a → m.read a = s.fbuf.read a

/-- A payload that is the loaded bytes as far as `k` and filler from there on is its first `k` bytes padded. -/
theorem paddedPayload_take {s : State} {payload : List Byte} {k : Nat} (hlen : payload.length = payloadLen s)
    (hk : k ≤ payloadLen s) (hfill : ∀ j (hj : j < payload.length), k ≤ j → payload[j] = filler) :
    paddedPayload s (payload.take k) = payload := by
  have hdrop : payload.drop k = List.replicate (payloadLen s - k) filler := by
    refine List.eq_replicate_iff.mpr ⟨by rw [List.length_drop, hlen], fun b hb => ?_⟩
    obtain ⟨i, hi, rfl⟩ := List.getElem_of_mem hb
    rw [List.getElem_drop]
    exact hfill _ _ (Nat.le_add_right ..)
  rw [paddedPayload, List.length_take, hlen, Nat.min_eq_left hk, ← hdrop, List.take_append_drop]

theorem exists_frameBuilt {s : State} {seq : Byte} {k : Nat} {m : Memory} (hk : k ≤ payloadLen s)
    (h : encodedFbuf seq k s = .ok m) : ∃ p, p.length = k ∧ FrameBuilt s seq p m := by
  obtain ⟨payload, hlen, hsrc, hpayload, h0, h1, h2, htrailer, hbeyond, -⟩ := encodedFbuf_ok hk h
  have hpad : paddedPayload s (payload.take k) = payload := by
    refine paddedPayload_take hlen hk fun j hj hkj => ?_
    have := hsrc j hj
    rw [if_neg (Nat.not_lt.mpr hkj)] at this
    exact (Option.some.inj this).symm
  have htake : (payload.take k).length = k := by rw [List.length_take, hlen, Nat.min_eq_left hk]
  refine ⟨payload.take k, htake, fun j hj => ?_, ?_, hbeyond⟩
  · have := hsrc j (by omega)
    rw [if_pos (by omega)] at this
    rw [this, List.getElem_take]
  · rw [hpad]
    exact (holdsBytes_frameOf hlen).mpr ⟨⟨h0, h1, h2⟩, hpayload, htrailer⟩

/-- Whatever ENCODE completes with for k ≤ B is the frame of the bytes it found loaded. -/
theorem execEncode_next_frame {seq : Byte} {k : BitVec 11} {s t : State} (hk : k.toNat ≤ payloadLen s)
    (h : execEncode seq k s = .next t) :
    ∃ p m, p.length = k.toNat ∧ FrameBuilt s seq p m ∧
      t = { s with fbuf := m, flen := BitVec.ofNat 11 (frameLen s) } := by
  obtain ⟨hlt, -⟩ | ⟨-, m, hm, rfl⟩ := execEncode_next h
  · omega
  · obtain ⟨p, hlen, hbuilt⟩ := exists_frameBuilt hk hm
    exact ⟨p, m, hlen, hbuilt, rfl⟩

/-- ENCODE of k loaded bytes completes with their frame. -/
theorem execEncode_of_loaded {s : State} (seq : Byte) {k : BitVec 11} {p : List Byte} (hk : k.toNat ≤ payloadLen s)
    (hlen : p.length = k.toNat) (hp : holdsBytes s.fbuf 3 p) :
    ∃ m, execEncode seq k s = .next { s with fbuf := m, flen := BitVec.ofNat 11 (frameLen s) } ∧
      FrameBuilt s seq p m := by
  obtain ⟨t, ht⟩ := execEncode_completes seq hk fun j hj => by simp [hp j (hlen ▸ hj)]
  obtain ⟨p', m, hlen', hbuilt, rfl⟩ := execEncode_next_frame hk ht
  obtain rfl : p' = p := holdsBytes_unique (hlen'.trans hlen.symm) hbuilt.loaded hp
  exact ⟨m, ht, hbuilt⟩

theorem execEncode_of_unwritten {s : State} (seq : Byte) {k : BitVec 11} {j : Nat} (hk : k.toNat ≤ payloadLen s)
    (hj : j < k.toNat) (hmin : ∀ i < j, s.fbuf.read (3 + i) ≠ none) (hn : s.fbuf.read (3 + j) = none) :
    execEncode seq k s = .fault (.unwrittenRead (3 + j)) := by
  have herr : encodedFbuf seq k.toNat s = .error (.unwrittenRead (3 + j)) :=
    (encodedFbuf_error hk).mpr ⟨j, hj, hn, hmin, rfl⟩
  rw [execEncode, if_neg (Nat.not_lt.mpr hk), herr]

/-- The whole payload stands at FBUF[3..3+B] after ENCODE. -/
theorem FrameBuilt.payload_held {s : State} {seq : Byte} {p : List Byte} {m : Memory} (h : FrameBuilt s seq p m)
    (hp : p.length ≤ payloadLen s) : holdsBytes m 3 (paddedPayload s p) :=
  ((holdsBytes_frameOf (paddedPayload_length hp)).mp h.frame).2.1

/-- ENCODE leaves the bytes it found loaded where they were (R81). -/
theorem FrameBuilt.loaded_held {s : State} {seq : Byte} {p : List Byte} {m : Memory} (h : FrameBuilt s seq p m)
    (hp : p.length ≤ payloadLen s) : holdsBytes m 3 p :=
  (holdsBytes_append.mp (h.payload_held hp)).1

/-- Outside its header and what follows the loaded bytes, ENCODE's frame leaves FBUF as it was. -/
theorem FrameBuilt.read_unstored {s : State} {seq : Byte} {p : List Byte} {m : Memory} (h : FrameBuilt s seq p m)
    (hp : p.length ≤ payloadLen s) {a : Nat} (hhdr : ¬ a < 3) (htail : ¬ (3 + p.length ≤ a ∧ a < frameLen s)) :
    m.read a = s.fbuf.read a := by
  rcases Nat.lt_or_ge a (3 + p.length) with hlt | hge
  · have := read_eq_of_holdsBytes (h.loaded_held hp) h.loaded (j := a - 3) (by omega)
    rwa [Nat.add_sub_cancel' (Nat.not_lt.mp hhdr)] at this
  · exact h.beyond a (by omega)

/-- Two buffers that hold one frame agree on it. -/
theorem FrameBuilt.read_eq {s s' : State} {seq : Byte} {p : List Byte} {m m' : Memory} (h : FrameBuilt s seq p m)
    (h' : FrameBuilt s' seq p m') (hframe : frameOf s' seq (paddedPayload s' p) = frameOf s seq (paddedPayload s p))
    (hp : p.length ≤ payloadLen s) {a : Nat} (ha : a < frameLen s) : m.read a = m'.read a := by
  have := read_eq_of_holdsBytes h.frame (hframe ▸ h'.frame) (j := a)
    (by rwa [frameOf_length seq (paddedPayload_length hp)])
  rwa [Nat.zero_add] at this

/-! The obligations -/

/-- The frame with R80's own values in it. -/
theorem frameOf_eq (s : State) (seq : Byte) (payload : List Byte) :
    frameOf s seq payload = [if s.cfg0.bsize = .b1024 then 0x02 else 0x01, seq, 0xFF - seq] ++ payload ++
      (if s.mode = .crc16 then [(crc16 payload).extractLsb' 8 8, (crc16 payload).extractLsb' 0 8]
        else [sum8 payload]) := by
  rw [frameOf, controlByte_eq, trailer_eq]
  rfl

/-- Settles O29: the frame built from the loaded bytes, R80's refusal and fault, and the reserved bits of format E. -/
theorem encodeBuildsTheFrame : Obligations.EncodeBuildsTheFrame := by
  unfold Obligations.EncodeBuildsTheFrame
  refine ⟨fun s seq k p hk hlen hp => ?_, fun s seq k hk => ?_, fun s seq k j hk hj hmin hn => ?_,
    fun w s hopc hbits => runCommand_of_decode_error (decode_of_reservedE hopc hbits) s⟩
  · obtain ⟨m, hm, hbuilt⟩ := execEncode_of_loaded seq hk hlen hp
    have hframe := hbuilt.frame
    rw [frameOf_eq, paddedPayload, hlen] at hframe
    exact ⟨m, hm, hframe, hbuilt.beyond⟩
  · rw [exec_encode, execEncode, if_pos hk, raiseCmdError_eq]
  · exact execEncode_of_unwritten seq hk hj hmin hn

/-- B and T are read from the block size and the mode alone (R7). -/
theorem frame_congr {s s' : State} (hsize : s.cfg0.bsize = s'.cfg0.bsize) (hmode : s.mode = s'.mode) :
    payloadLen s' = payloadLen s ∧ frameLen s' = frameLen s ∧
      ∀ seq p, frameOf s' seq (paddedPayload s' p) = frameOf s seq (paddedPayload s p) := by
  have hB : payloadLen s' = payloadLen s := by rw [payloadLen, payloadLen, hsize]
  have hT : trailerLen s' = trailerLen s := by rw [trailerLen, trailerLen, hmode]
  refine ⟨hB, by rw [frameLen, frameLen, hB, hT], fun seq p => ?_⟩
  rw [frameOf, frameOf, controlByte, controlByte, paddedPayload, paddedPayload, hB, hT]

/-- Settles O30: both frames are those of the same loaded bytes, which ENCODE leaves in place. -/
theorem encodeIsRepeatable : Obligations.EncodeIsRepeatable := by
  unfold Obligations.EncodeIsRepeatable
  refine ⟨fun s s' t t' seq k hk hsize hmode hread ht ht' => ?_, fun s t seq k hk ht => ?_⟩
  · obtain ⟨hB, hlen, hframe⟩ := frame_congr hsize hmode
    obtain ⟨p, m, hp, hbuilt, rfl⟩ := execEncode_next_frame hk ht
    obtain ⟨p', m', hp', hbuilt', rfl⟩ := execEncode_next_frame (hB ▸ hk) ht'
    obtain rfl : p' = p := by
      refine holdsBytes_unique (hp'.trans hp.symm) hbuilt'.loaded (holdsBytes_congr hbuilt.loaded fun j hj => ?_)
      exact hread j (hp ▸ hj)
    refine ⟨by rw [hlen], fun a ha => ?_⟩
    exact hbuilt.read_eq hbuilt' (hframe seq p') (by omega) (by rwa [flen_toNat_of_frameLen] at ha)
  · obtain ⟨p, m, hp, hbuilt, rfl⟩ := execEncode_next_frame hk ht
    have hle : p.length ≤ payloadLen s := by omega
    obtain ⟨m', hm', hbuilt'⟩ := execEncode_of_loaded seq
      (s := { s with fbuf := m, flen := BitVec.ofNat 11 (frameLen s) }) hk hp (hbuilt.loaded_held hle)
    refine ⟨_, hm', rfl, fun a ha => ?_⟩
    exact (hbuilt.read_eq hbuilt' rfl hle (by rwa [flen_toNat_of_frameLen] at ha)).symm

/-- Settles O38: each command's inversion names what it writes, and ENCODE's frame leaves the loaded bytes and those
beyond it. -/
theorem codecCommandsKeepTheRest : Obligations.CodecCommandsKeepTheRest := by
  unfold Obligations.CodecCommandsKeepTheRest
  refine ⟨fun s t h => ?_, fun s t h => ?_, fun s t seq k hk h => ?_⟩
  · obtain ⟨v, -, rfl⟩ := execDecode_next h
    rfl
  · obtain ⟨l, -, rfl⟩ := execStrip_next h
    rfl
  · obtain ⟨p, m, hp, hbuilt, rfl⟩ := execEncode_next_frame hk h
    exact ⟨rfl, fun a hhdr htail => hbuilt.read_unstored (by omega) hhdr (hp ▸ htail)⟩

end Sys2Proof.Machine

/-! STRIP (R89): the scan from the end stops at the last byte that is not filler. -/

namespace Sys2Proof.Machine

/-- The scan stops at a byte that is not filler. -/
theorem stripScan_stop {m : Memory} {l : Nat} {b : Byte} (hb : m.read (3 + l) = some b) (hne : b ≠ filler) :
    stripScan m (l + 1) = .ok (l + 1) := by
  rw [stripScan, fbufRead_ok.mpr hb]
  exact if_neg hne

theorem stripScan_unwritten {m : Memory} {l : Nat} (hn : m.read (3 + l) = none) :
    stripScan m (l + 1) = .error (.unwrittenRead (3 + l)) := by
  rw [stripScan, fbufRead_error.mpr ⟨hn, rfl⟩]

/-- Settles O40: the trailing filler is skipped, and the byte before it decides. -/
theorem stripDropsTrailingFiller : Obligations.StripDropsTrailingFiller := by
  unfold Obligations.StripDropsTrailingFiller
  refine ⟨fun s l hl hfill hstop => ?_, fun s l hl hfill hn => ?_, fun w s hopc hbits =>
    runCommand_of_decode_error (decode_of_reservedN (by rw [hopc]; decide) hbits) s⟩
  · have hscan : stripScan s.fbuf (payloadLen s) = .ok l := by
      rw [stripScan_skip s.fbuf l _ hl hfill]
      obtain rfl | ⟨l', b, rfl, hb, hne⟩ := hstop
      · rfl
      · exact stripScan_stop hb hne
    rw [exec_strip, execStrip, hscan]
  · have hscan : stripScan s.fbuf (payloadLen s) = .error (.unwrittenRead (3 + l)) := by
      rw [stripScan_skip s.fbuf (l + 1) _ hl hfill]
      exact stripScan_unwritten hn
    rw [exec_strip, execStrip, hscan]

end Sys2Proof.Machine

/-! DECODE (R82 to R87): the verdict of a frame whose header FBUF holds, and what every verdict says of TRIES and of the
fields it sets. -/

namespace Sys2Proof.Machine

theorem flen_pos_iff {s : State} : 0 < s.flen.toNat ↔ s.flen ≠ 0 := by
  rw [Nat.pos_iff_ne_zero, ne_eq, ne_eq, ← BitVec.toNat_inj]
  rfl

theorem execDecode_of_judge {s : State} {v : Verdict} (h : judge s = .ok v) :
    execDecode s = .next { s with dstat := v.dstat, dtrl := v.dtrl, tries := v.tries } := by
  rw [execDecode, h]

theorem controlAccepted_iff_acceptedControl {s : State} {c : Byte} :
    controlAccepted s.cfg0 c = true ↔ acceptedControl c s := controlAccepted_iff s.cfg0 c

/-! TRIES and the answer to a rejected frame (R84, R86) -/

theorem nextTries_toNat (s : State) : (nextTries s).toNat = min (s.tries.toNat + 1) 0xFFFF := by
  rw [nextTries, BitVec.toNat_ofNat]
  omega

theorem triesIncremented_eq_nextTries (s : State) : triesIncremented s.tries = nextTries s :=
  BitVec.eq_of_toNat_eq ((triesIncremented_toNat s.tries).trans (nextTries_toNat s).symm)

theorem nakOrSilent_nextTries (s : State) : nakOrSilent (nextTries s) s = nakAction s := by
  rw [nakOrSilent, nakAction, nextTries_toNat]

/-! The control byte -/

theorem judge_of_flen_zero {s : State} (h : s.flen = 0) : judge s = .ok (notFrame 0 s) := if_pos h

theorem judge_of_control {s : State} {c : Byte} (hflen : s.flen ≠ 0) (hc : s.fbuf.read 0 = some c) :
    judge s = if controlAccepted s.cfg0 c then judgeHeader c (nextTries s) s else .ok (notFrame c s) := by
  rw [judge, if_neg hflen, fbufRead_ok.mpr hc, triesIncremented_eq_nextTries]

theorem judge_of_rejected_control {s : State} {c : Byte} (hflen : s.flen ≠ 0) (hc : s.fbuf.read 0 = some c)
    (hrej : ¬ acceptedControl c s) : judge s = .ok (notFrame c s) := by
  rw [judge_of_control hflen hc, if_neg (mt controlAccepted_iff_acceptedControl.mp hrej)]

theorem judge_of_accepted_control {s : State} {c : Byte} (hflen : s.flen ≠ 0) (hc : s.fbuf.read 0 = some c)
    (hacc : acceptedControl c s) : judge s = judgeHeader c (nextTries s) s := by
  rw [judge_of_control hflen hc, if_pos (controlAccepted_iff_acceptedControl.mpr hacc)]

/-- Settles O31: the two ways in which R82's first check fails. -/
theorem decodeAnswersNotFrame : Obligations.DecodeAnswersNotFrame := by
  unfold Obligations.DecodeAnswersNotFrame
  exact ⟨fun s hflen => execDecode_of_judge (judge_of_flen_zero hflen),
    fun s c hflen hc hrej => execDecode_of_judge (judge_of_rejected_control hflen hc hrej)⟩

/-! The header, the length and the sequence number -/

/-- The fields of DSTAT once the header was read (R87). -/
def headerDstat (c q r : Byte) : Dstat := { Dstat.zero with ctrl := c, seq := q, cseq := r }

theorem judgeHeader_of_short {s : State} {c : Byte} {tries : BitVec 16} (h : s.flen.toNat < 3) :
    judgeHeader c tries s = .ok (rejectFrame .integrity { Dstat.zero with ctrl := c } Dtrl.zero tries s) := if_pos h

/-- R83's order, for a frame whose header was read. -/
theorem HeaderHeld.judge_eq {s : State} {c q r : Byte} (h : HeaderHeld s c q r) :
    judge s =
      if q.toNat + r.toNat ≠ 0xFF then .ok (rejectFrame .integrity (headerDstat c q r) Dtrl.zero (nextTries s) s)
      else if s.flen.toNat ≠ frameLen s then .ok (rejectFrame .size (headerDstat c q r) Dtrl.zero (nextTries s) s)
      else if q ≠ s.expseq then .ok (syncVerdict (headerDstat c q r) (nextTries s) s)
      else judgeTrailer (headerDstat c q r) (nextTries s) s := by
  have hlong := h.longEnough
  rw [judge_of_accepted_control (flen_pos_iff.mp (by omega)) h.ctrlByte h.accepted, judgeHeader,
    if_neg (Nat.not_lt.mpr hlong), fbufRead_ok.mpr h.seqByte, fbufRead_ok.mpr h.cseqByte]
  rfl

/-- R82's complement check comes before the length and the sequence number (R83). -/
theorem HeaderHeld.judge_of_bad_complement {s : State} {c q r : Byte} (h : HeaderHeld s c q r)
    (hsum : q.toNat + r.toNat ≠ 0xFF) :
    judge s = .ok (rejectFrame .integrity (headerDstat c q r) Dtrl.zero (nextTries s) s) := by
  rw [h.judge_eq, if_pos hsum]

theorem HeaderHeld.judge_of_wrong_length {s : State} {c q r : Byte} (h : HeaderHeld s c q r)
    (hsum : q.toNat + r.toNat = 0xFF) (hlen : s.flen.toNat ≠ frameLen s) :
    judge s = .ok (rejectFrame .size (headerDstat c q r) Dtrl.zero (nextTries s) s) := by
  rw [h.judge_eq, if_neg (not_not.mpr hsum), if_pos hlen]

theorem HeaderHeld.judge_of_other_seq {s : State} {c q r : Byte} (h : HeaderHeld s c q r)
    (hsum : q.toNat + r.toNat = 0xFF) (hlen : s.flen.toNat = frameLen s) (hseq : q ≠ s.expseq) :
    judge s = .ok (syncVerdict (headerDstat c q r) (nextTries s) s) := by
  rw [h.judge_eq, if_neg (not_not.mpr hsum), if_neg (not_not.mpr hlen), if_pos hseq]

/-- A frame whose header, length and sequence number are right reaches the last stage. -/
theorem HeaderHeld.judge_eq_judgeTrailer {s : State} {c q r : Byte} (h : HeaderHeld s c q r)
    (hsum : q.toNat + r.toNat = 0xFF) (hlen : s.flen.toNat = frameLen s) (hseq : q = s.expseq) :
    judge s = judgeTrailer (headerDstat c q r) (nextTries s) s := by
  rw [h.judge_eq, if_neg (not_not.mpr hsum), if_neg (not_not.mpr hlen), if_neg (not_not.mpr hseq)]

/-- Settles O32: R83's second and third checks, the first that fails being answered. -/
theorem decodeRejectsHeaderAndLength : Obligations.DecodeRejectsHeaderAndLength := by
  unfold Obligations.DecodeRejectsHeaderAndLength
  refine ⟨fun s c hflen hshort hc hacc => ?_, fun s c q r h hsum => ?_, fun s c q r h hsum hlen => ?_⟩
  all_goals rw [← nakOrSilent_nextTries]
  · exact execDecode_of_judge ((judge_of_accepted_control hflen hc hacc).trans (judgeHeader_of_short hshort))
  · exact execDecode_of_judge (h.judge_of_bad_complement hsum)
  · exact execDecode_of_judge (h.judge_of_wrong_length hsum hlen)

/-- Settles O33: R83's fourth check, with the answer R85 chooses by SYNC_NAK. -/
theorem decodeAnswersSequenceMismatch : Obligations.DecodeAnswersSequenceMismatch := by
  unfold Obligations.DecodeAnswersSequenceMismatch
  intro s c q r h hsum hlen hseq
  rw [← nakOrSilent_nextTries]
  exact execDecode_of_judge (h.judge_of_other_seq hsum hlen hseq)

/-! The trailer -/

theorem judgeTrailer_of_held {s : State} {d : Dstat} {tries : BitVec 16} {p : List Byte} {recv : Half}
    (hlen : p.length = payloadLen s) (hp : holdsBytes s.fbuf 3 p) (hrecv : receivedTrailer s = .ok recv) :
    judgeTrailer d tries s =
      let comp := computedTrailer p (trailerLen s)
      .ok { dstat := { d with
              trailerOk := decide (comp = recv)
              result := if comp ≠ recv ∧ s.cfg0.trailerCheck = true then .trailer else .ok
              action := if comp ≠ recv ∧ s.cfg0.trailerCheck = true then nakOrSilent tries s else .ack }
            dtrl := { received := recv, computed := comp }
            tries := if comp ≠ recv ∧ s.cfg0.trailerCheck = true then tries else 0 } := by
  rw [judgeTrailer, ← hlen, holdsBytes_iff_fbufReadBytes.mp hp, hrecv]
  by_cases hbad : computedTrailer p (trailerLen s) ≠ recv ∧ s.cfg0.trailerCheck = true
  · simp only [if_pos hbad]
    rfl
  · simp only [if_neg hbad]
    rfl

/-- What DECODE takes for the trailer of a frame (R82): the high byte first in crc16 mode, the one byte otherwise. -/
theorem receivedTrailer_of_read {s : State} {hi lo : Byte} (hhi : s.fbuf.read (3 + payloadLen s) = some hi)
    (hlo : s.mode = .crc16 → s.fbuf.read (4 + payloadLen s) = some lo) :
    receivedTrailer s = .ok (if s.mode = .crc16 then hi ++ lo else hi.setWidth 16) := by
  rw [receivedTrailer, fbufRead_ok.mpr hhi]
  cases hm : s.mode with
  | crc16 => simp [trailerLen, hm, fbufRead_ok.mpr (hlo hm)]
  | checksum => simp [trailerLen, hm]

theorem computedTrailer_eq (s : State) (p : List Byte) :
    computedTrailer p (trailerLen s) = if s.mode = .crc16 then crc16 p else (sum8 p).setWidth 16 := by
  cases hm : s.mode <;> simp [computedTrailer, trailerLen, hm]

/-- Settles O34: R83's last check, on the trailer computed over the payload and the one received. -/
theorem decodeJudgesTheTrailer : Obligations.DecodeJudgesTheTrailer := by
  unfold Obligations.DecodeJudgesTheTrailer
  intro s c q r p hi lo h hsum hlen hseq hplen hp hhi hlo
  have hj := (h.judge_eq_judgeTrailer hsum hlen hseq).trans
    (judgeTrailer_of_held hplen hp (receivedTrailer_of_read hhi hlo))
  rw [computedTrailer_eq, nakOrSilent_nextTries] at hj
  rw [exec_decode, execDecode_of_judge hj]
  rfl

/-! The round trip (R88) -/

theorem highByte_append_lowByte (v : Half) : highByte v ++ lowByte v = v := by
  rw [highByte, lowByte, BitVec.extractLsb'_append_extractLsb'_eq_extractLsb' (by decide)]
  exact BitVec.extractLsb'_eq_self

/-- DECODE receives from a frame's trailer the number ENCODE computed for it (R82, R104). -/
theorem receivedTrailer_of_trailer {s : State} {p : List Byte}
    (h : holdsBytes s.fbuf (3 + payloadLen s) (trailer p (trailerLen s))) :
    receivedTrailer s = .ok (computedTrailer p (trailerLen s)) := by
  rw [trailer_eq] at h
  rw [computedTrailer_eq]
  cases hm : s.mode with
  | crc16 =>
    rw [if_pos hm, holdsBytes_cons, holdsBytes_cons] at h
    obtain ⟨hhi, hlo, -⟩ := h
    rw [show 3 + payloadLen s + 1 = 4 + payloadLen s by omega] at hlo
    rw [receivedTrailer_of_read hhi fun _ => hlo, if_pos hm, if_pos rfl, highByte_append_lowByte]
  | checksum =>
    have hcrc : ¬ s.mode = .crc16 := by simp [hm]
    rw [if_neg hcrc, holdsBytes_cons] at h
    rw [receivedTrailer_of_read h.1 (lo := 0) (absurd · hcrc), if_neg hcrc, if_neg nofun]

theorem add_complement (seq : Byte) : seq.toNat + (0xFF - seq).toNat = 0xFF := by bv_omega

/-- The control byte ENCODE writes is accepted under R88's condition. -/
theorem acceptedControl_controlByte {s : State} (h : s.cfg0.bsize = .b128 ∨ s.cfg0.acceptStx = true) :
    acceptedControl (controlByte s) s := by
  rw [controlByte_eq]
  cases hb : s.cfg0.bsize with
  | b128 => exact .inl rfl
  | b1024 => exact .inr ⟨rfl, h.resolve_left (by simp [hb])⟩

/-- The verdict of a frame ENCODE could have built, with the sequence number expected (R88). -/
theorem judge_of_frameOf {s : State} {seq : Byte} {p : List Byte} (hp : p.length = payloadLen s)
    (hflen : s.flen.toNat = frameLen s) (hframe : holdsBytes s.fbuf 0 (frameOf s seq p))
    (hctrl : acceptedControl (controlByte s) s) (hseq : seq = s.expseq) :
    judge s = .ok
      { dstat := { headerDstat (controlByte s) seq (0xFF - seq) with trailerOk := true, result := .ok, action := .ack }
        dtrl := { received := computedTrailer p (trailerLen s), computed := computedTrailer p (trailerLen s) }
        tries := 0 } := by
  obtain ⟨⟨h0, h1, h2⟩, hpayload, htrailer⟩ := (holdsBytes_frameOf hp).mp hframe
  have hheader : HeaderHeld s (controlByte s) seq (0xFF - seq) :=
    ⟨by rw [hflen, frameLen]; omega, h0, h1, h2, hctrl⟩
  rw [hheader.judge_eq_judgeTrailer (add_complement seq) hflen hseq,
    judgeTrailer_of_held hp hpayload (receivedTrailer_of_trailer htrailer)]
  simp

/-- Settles O39: ENCODE leaves the frame of the payload, and DECODE accepts such a frame. -/
theorem encodeThenDecodeRoundTrips : Obligations.EncodeThenDecodeRoundTrips := by
  unfold Obligations.EncodeThenDecodeRoundTrips
  intro s seq p hlen hp hctrl
  have hk : (BitVec.ofNat 11 (payloadLen s)).toNat = payloadLen s := by
    rcases payloadLen_cases s with h | h <;> rw [h] <;> rfl
  obtain ⟨m, hm, hbuilt⟩ := execEncode_of_loaded seq hk.le (hlen.trans hk.symm) hp
  have hframe := hbuilt.frame
  rw [paddedPayload_of_full hlen] at hframe
  have hj := judge_of_frameOf (s := { s with fbuf := m, flen := BitVec.ofNat 11 (frameLen s), expseq := seq }) hlen
    (flen_toNat_of_frameLen s) hframe (acceptedControl_controlByte hctrl) rfl
  exact ⟨_, _, hm, execDecode_of_judge hj, rfl, rfl, rfl, rfl, hbuilt.loaded_held hlen.le, rfl⟩

/-! Every verdict -/

/-- The verdicts of DECODE, each with what its path read (R82, R83). -/
inductive JudgedAs (s : State) : Verdict → Prop where
  | empty (hflen : s.flen = 0) : JudgedAs s (notFrame 0 s)
  | control {c : Byte} (hflen : s.flen ≠ 0) (hc : s.fbuf.read 0 = some c) (hrej : ¬ acceptedControl c s) :
    JudgedAs s (notFrame c s)
  | short {c : Byte} (hflen : s.flen ≠ 0) (hshort : s.flen.toNat < 3) (hc : s.fbuf.read 0 = some c) :
    JudgedAs s (rejectFrame .integrity { Dstat.zero with ctrl := c } Dtrl.zero (nextTries s) s)
  | rejected {c q r : Byte} (h : HeaderHeld s c q r) {result : DecodeResult}
      (hr : result = .integrity ∨ result = .size) :
    JudgedAs s (rejectFrame result (headerDstat c q r) Dtrl.zero (nextTries s) s)
  | sync {c q r : Byte} (h : HeaderHeld s c q r) : JudgedAs s (syncVerdict (headerDstat c q r) (nextTries s) s)
  | trailer {c q r : Byte} (h : HeaderHeld s c q r) {recv comp : Half} (hne : comp ≠ recv) :
    JudgedAs s (rejectFrame .trailer (headerDstat c q r) { received := recv, computed := comp } (nextTries s) s)
  | ok {c q r : Byte} (h : HeaderHeld s c q r) (recv comp : Half) :
    JudgedAs s { dstat := { headerDstat c q r with trailerOk := comp == recv, result := .ok, action := .ack }
                 dtrl := { received := recv, computed := comp }
                 tries := 0 }

theorem judgedAs_of_judge {s : State} {v : Verdict} (h : judge s = .ok v) : JudgedAs s v := by
  obtain ⟨hflen, rfl⟩ | ⟨c, hflen, hc, ⟨hrej, rfl⟩ | ⟨hacc, hh⟩⟩ := judge_cases h
  · exact .empty hflen
  · exact .control hflen hc fun hacc => by simp [controlAccepted_iff_acceptedControl.mpr hacc] at hrej
  · rw [triesIncremented_eq_nextTries] at hh
    obtain ⟨hshort, rfl⟩ | ⟨q, r, hlong, hq, hr, hcase⟩ := judgeHeader_cases hh
    · exact .short hflen hshort hc
    · have hheld : HeaderHeld s c q r :=
        ⟨Nat.not_lt.mp hlong, hc, hq, hr, controlAccepted_iff_acceptedControl.mp hacc⟩
      obtain ⟨-, rfl⟩ | ⟨-, -, rfl⟩ | ⟨-, -, -, rfl⟩ | ⟨-, -, -, ht⟩ := hcase
      · exact .rejected hheld (.inl rfl)
      · exact .rejected hheld (.inr rfl)
      · exact .sync hheld
      · obtain ⟨p, recv, -, -, ⟨hne, -, rfl⟩ | ⟨-, rfl⟩⟩ := judgeTrailer_cases ht
        · exact .trailer hheld hne
        · exact .ok hheld recv _

/-- TRIES after a verdict (R86). -/
theorem JudgedAs.tries_toNat {s : State} {v : Verdict} (h : JudgedAs s v) :
    v.tries.toNat =
      match v.dstat.result with
      | .notFrame => s.tries.toNat
      | .ok => 0
      | .none | .integrity | .size | .sync | .trailer => min (s.tries.toNat + 1) 0xFFFF := by
  cases h with
  | empty | control | ok => rfl
  | short | sync | trailer => exact nextTries_toNat s
  | rejected h hr => obtain rfl | rfl := hr <;> exact nextTries_toNat s

/-- A rejected frame is answered by the count made for it (R84, R85). -/
theorem JudgedAs.action_of_rejected {s : State} {v : Verdict} (h : JudgedAs s v)
    (hr : v.dstat.result ∈ [DecodeResult.integrity, .size, .trailer] ∨
      (v.dstat.result = .sync ∧ s.cfg0.syncNak = true)) : v.dstat.action = nakOrSilent v.tries s := by
  cases h with
  | empty | control | ok => simp [notFrame] at hr
  | short | rejected | trailer => rfl
  | sync =>
    have hnak : s.cfg0.syncNak = true := by simpa [syncVerdict] using hr
    exact if_pos hnak

/-- Settles O36: the count and the answer of every verdict. -/
theorem triesCountsFramesAndBoundsNaks : Obligations.TriesCountsFramesAndBoundsNaks := by
  unfold Obligations.TriesCountsFramesAndBoundsNaks
  intro s t ht
  obtain ⟨v, hv, rfl⟩ := execDecode_next ht
  have hj := judgedAs_of_judge hv
  refine ⟨hj.tries_toNat, fun hr => ⟨fun hle => ?_, fun hlt => ?_⟩⟩
  · exact (hj.action_of_rejected hr).trans (if_pos hle)
  · exact (hj.action_of_rejected hr).trans (if_neg (Nat.not_le.mpr hlt))

/-- The header's fields in DSTAT (R87). -/
structure HeaderFields (s : State) (d : Dstat) : Prop where
  ctrlEmpty : s.flen = 0 → d.ctrl = 0
  ctrlRead : s.flen ≠ 0 → s.fbuf.read 0 = some d.ctrl
  seqRead : 3 ≤ s.flen.toNat ∧ acceptedControl d.ctrl s → s.fbuf.read 1 = some d.seq ∧ s.fbuf.read 2 = some d.cseq
  seqUnread : ¬ (3 ≤ s.flen.toNat ∧ acceptedControl d.ctrl s) → d.seq = 0 ∧ d.cseq = 0

/-- A path that read the header sets all its fields. -/
theorem HeaderHeld.headerFields {s : State} {d : Dstat} (h : HeaderHeld s d.ctrl d.seq d.cseq) : HeaderFields s d where
  ctrlEmpty h0 := absurd h0 (flen_pos_iff.mp (Nat.zero_lt_of_lt h.longEnough))
  ctrlRead _ := h.ctrlByte
  seqRead _ := ⟨h.seqByte, h.cseqByte⟩
  seqUnread hn := absurd ⟨h.longEnough, h.accepted⟩ hn

theorem JudgedAs.headerFields {s : State} {v : Verdict} (h : JudgedAs s v) : HeaderFields s v.dstat := by
  cases h with
  | empty hflen =>
    exact ⟨fun _ => rfl, fun hn => absurd hflen hn, fun hr => absurd hflen (flen_pos_iff.mp (by omega)),
      fun _ => ⟨rfl, rfl⟩⟩
  | control hflen hc hrej =>
    exact ⟨fun h0 => absurd h0 hflen, fun _ => hc, fun hr => absurd hr.2 hrej, fun _ => ⟨rfl, rfl⟩⟩
  | short hflen hshort hc =>
    exact ⟨fun h0 => absurd h0 hflen, fun _ => hc, fun hr => absurd hr.1 (Nat.not_le.mpr hshort), fun _ => ⟨rfl, rfl⟩⟩
  | rejected h | sync h | trailer h | ok h => exact HeaderHeld.headerFields h

/-- TRAILER_OK compares the halves of DTRL where the trailer was judged (R87). -/
theorem JudgedAs.trailerOk_of_judged {s : State} {v : Verdict} (h : JudgedAs s v)
    (hr : v.dstat.result ∈ [DecodeResult.ok, .trailer]) :
    v.dstat.trailerOk = decide (v.dtrl.computed = v.dtrl.received) := by
  cases h with
  | empty | control | short | sync => simp [notFrame, rejectFrame, syncVerdict] at hr
  | rejected h hres => obtain rfl | rfl := hres <;> simp [rejectFrame] at hr
  | trailer h hne => exact (decide_eq_false hne).symm
  | ok => rfl

/-- DTRL and TRAILER_OK are 0 where the trailer was not judged (R87). -/
theorem JudgedAs.trailer_unread {s : State} {v : Verdict} (h : JudgedAs s v)
    (hr : v.dstat.result ∉ [DecodeResult.ok, .trailer]) : v.dtrl = Dtrl.zero ∧ v.dstat.trailerOk = false := by
  cases h with
  | empty | control | short | rejected | sync => exact ⟨rfl, rfl⟩
  | trailer | ok => simp [rejectFrame] at hr

/-- Settles O37: the fields of every verdict, by how far its path came. -/
theorem decodeSetsOnlyReachedFields : Obligations.DecodeSetsOnlyReachedFields := by
  unfold Obligations.DecodeSetsOnlyReachedFields
  intro s t ht
  obtain ⟨v, hv, rfl⟩ := execDecode_next ht
  have hreached := judge_reached hv
  have hj := judgedAs_of_judge hv
  obtain ⟨hempty, hctrl, hseq, hunread⟩ := hj.headerFields
  exact ⟨hreached.result, hreached.action, hempty, hctrl, hseq, hunread, hj.trailerOk_of_judged, hj.trailer_unread⟩

end Sys2Proof.Machine

/-! The trailer engine (R100 to R109): the byte sum, the CRC, its polynomial, and the commands that stream them. -/

namespace Sys2Proof.Machine

/-! The byte sum (R103) -/

@[simp] theorem sum8_nil : sum8 [] = 0 := rfl

@[simp] theorem sum8_cons (b : Byte) (p : List Byte) : sum8 (b :: p) = b + sum8 p := by
  simp [sum8, BitVec.ofNat_add]

/-- The wrapping accumulator, from any value it starts at, adds the sum of the bytes. -/
theorem foldl_add_eq_add_sum8 (p : List Byte) (a : Byte) : p.foldl (· + ·) a = a + sum8 p := by
  induction p generalizing a with
  | nil => simp
  | cons b p ih => rw [List.foldl_cons, ih, sum8_cons, BitVec.add_assoc]

/-- Settles O27: truncation keeps the sum mod 256, and the accumulator from 0 adds just that. -/
theorem sumIsTheByteSumModulo256 : Obligations.SumIsTheByteSumModulo256 := by
  unfold Obligations.SumIsTheByteSumModulo256
  refine ⟨sum8_nil, fun p => ⟨BitVec.toNat_ofNat _ _, ?_⟩⟩
  simp [foldl_add_eq_add_sum8]

/-! The CRC (R101, R102) -/

/-- R102, streaming: the CRC of a sequence goes on from the CRC of what came first. -/
theorem crc16_append (p q : List Byte) : crc16 (p ++ q) = q.foldl crcStep (crc16 p) := List.foldl_append

theorem crc16_zeros (n : Nat) : crc16 (List.replicate n 0) = 0 := by
  have hstep : crcStep 0 0 = 0 := by decide
  induction n with
  | zero => rfl
  | succ n ih => rw [List.replicate_succ', crc16_append, ih, List.foldl_cons, hstep, List.foldl_nil]

/-- A turn of R101's loop doubles a number whose top bit is 0. -/
theorem crcShift_toNat_of_lt {x : Half} (h : x.toNat < 2 ^ 15) : (crcShift x).toNat = x.toNat * 2 := by
  have htop : x.getLsbD 15 = false := (x.testBit_toNat).symm.trans (Nat.testBit_lt_two_pow h)
  rw [crcShift, htop, if_neg Bool.false_ne_true, BitVec.toNat_shiftLeft, Nat.shiftLeft_eq]
  omega

/-- Turns by which no bit that is 1 leaves the high end multiply by the power of 2. -/
theorem crcShifts_toNat_of_lt {n : Nat} {x : Half} (h : x.toNat * 2 ^ n < 2 ^ 16) :
    (crcShifts n x).toNat = x.toNat * 2 ^ n := by
  induction n generalizing x with
  | zero => simp [crcShifts]
  | succ n ih =>
    rw [pow_succ', ← Nat.mul_assoc] at h ⊢
    have hle : x.toNat * 2 ≤ x.toNat * 2 * 2 ^ n := Nat.le_mul_of_pos_right _ (Nat.two_pow_pos n)
    have hdouble := crcShift_toNat_of_lt (x := x) (by omega)
    rw [← hdouble] at h ⊢
    exact ih h

/-- The high byte of a CRC cancels its high half, and the low half comes up in its place. -/
theorem crcStep_highByte (c : Half) : crcStep c (highByte c) = lowByte c ++ (0 : Byte) := by
  have hcancel : c ^^^ (highByte c ++ (0 : Byte)) = (0 : Byte) ++ lowByte c := by
    nth_rw 1 [← highByte_append_lowByte c]
    rw [BitVec.xor_append, BitVec.xor_self]
    simp
  have hlow : ((0 : Byte) ++ lowByte c).toNat = (lowByte c).toNat := by
    rw [BitVec.toNat_append]
    simp
  have := (lowByte c).isLt
  apply BitVec.eq_of_toNat_eq
  rw [crcStep, hcancel, crcShifts_toNat_of_lt (by omega), hlow, BitVec.toNat_append, Nat.shiftLeft_eq]
  simp

theorem crcStep_cancel (b : Byte) : crcStep (b ++ (0 : Byte)) b = 0 := by
  rw [crcStep, BitVec.xor_self]
  decide

/-- R102, residue: a CRC that follows its payload high byte first brings the CRC back to 0. -/
theorem crc16_append_crc (p : List Byte) : crc16 (p ++ [highByte (crc16 p), lowByte (crc16 p)]) = 0 := by
  rw [crc16_append, List.foldl_cons, crcStep_highByte]
  exact crcStep_cancel _

/-- Settles O25: zeros, the residue and streaming by the lemmas above, the check value by evaluation. -/
theorem crcProperties : Obligations.CrcProperties := by
  unfold Obligations.CrcProperties
  refine ⟨rfl, fun n p => ⟨crc16_zeros n, ?_⟩, crc16_append_crc, crc16_append, by decide +kernel⟩
  rw [crc16_append, crc16_zeros n, crc16]

/-! The commands (R105 to R109) -/

theorem execAll_cons_of_next {i : Instr} {s t : State} (h : exec i s = .next t) (is : List Instr) :
    execAll (i :: is) s = execAll is t := by
  rw [execAll, h]

theorem execAll_crcBytes (p : List Byte) (s : State) :
    execAll (p.map .crcByte) s = .next { s with crc := p.foldl crcStep s.crc } := by
  induction p generalizing s with
  | nil => rfl
  | cons b p ih => rw [List.map_cons, execAll_cons_of_next (exec_crcByte b s), ih, List.foldl_cons]

theorem execAll_sumBytes (p : List Byte) (s : State) :
    execAll (p.map .sumByte) s = .next { s with sum := s.sum + sum8 p } := by
  induction p generalizing s with
  | nil => simp [execAll]
  | cons b p ih => rw [List.map_cons, execAll_cons_of_next (exec_sumByte b s), ih, sum8_cons, BitVec.add_assoc]

/-- Settles O23: the bytes after CRC_INIT fold R101's step from 0, and a word with a reserved bit does not decode. -/
theorem crcCommandsStreamTheCrc : Obligations.CrcCommandsStreamTheCrc := by
  unfold Obligations.CrcCommandsStreamTheCrc
  refine ⟨exec_crcInit, exec_crcByte, fun p s => ?_, fun w s hopc hbits => ?_, fun w s hopc hbits => ?_⟩
  · rw [execAll_cons_of_next (exec_crcInit s), execAll_crcBytes, crc16]
  · exact runCommand_of_decode_error (decode_of_reservedN (by rw [hopc]; decide) hbits) s
  · exact runCommand_of_decode_error (decode_of_reservedB (by rw [hopc]; decide) hbits) s

/-- Settles O24: byte addition is addition mod 256, and the bytes after SUM_INIT add up from 0. -/
theorem sumCommandsStreamTheSum : Obligations.SumCommandsStreamTheSum := by
  unfold Obligations.SumCommandsStreamTheSum
  refine ⟨exec_sumInit, fun b s => ?_, fun p s => ?_, fun w s hopc hbits => ?_, fun w s hopc hbits => ?_⟩
  · have hwrap : s.sum + b = BitVec.ofNat 8 ((s.sum.toNat + b.toNat) % 256) := by
      apply BitVec.eq_of_toNat_eq
      simp
    rw [exec_sumByte, hwrap]
  · rw [execAll_cons_of_next (exec_sumInit s), execAll_sumBytes]
    simp
  · exact runCommand_of_decode_error (decode_of_reservedN (by rw [hopc]; decide) hbits) s
  · exact runCommand_of_decode_error (decode_of_reservedB (by rw [hopc]; decide) hbits) s

theorem payloadLen_accumulators (s : State) (c : Half) (d : Byte) :
    payloadLen { s with crc := c, sum := d } = payloadLen s := rfl

/-- ENCODE's buffer is built without reading CRC or SUM (R109). -/
theorem encodedFbuf_accumulators (seq : Byte) (k : Nat) (s : State) (c : Half) (d : Byte) :
    encodedFbuf seq k { s with crc := c, sum := d } = encodedFbuf seq k s := rfl

/-- DECODE's verdict does not read CRC or SUM (R109). -/
theorem judge_accumulators (s : State) (c : Half) (d : Byte) : judge { s with crc := c, sum := d } = judge s := rfl

/-- Settles O28: the buffer, the verdict and the scan are computed without CRC and SUM, and each codec command writes
what it computed and neither of them. -/
theorem accumulatorsAndCodecAreIndependent : Obligations.AccumulatorsAndCodecAreIndependent := by
  unfold Obligations.AccumulatorsAndCodecAreIndependent
  refine ⟨fun i s c d hi => ?_, fun i s t hi ht => ?_, fun i hi => ?_⟩
  · obtain rfl | rfl | ⟨seq, k, rfl⟩ := hi
    · rw [exec_decode, exec_decode, execDecode, execDecode, judge_accumulators]
      cases judge s <;> rfl
    · rw [exec_strip, exec_strip, execStrip, execStrip, payloadLen_accumulators]
      cases stripScan s.fbuf (payloadLen s) <;> rfl
    · rw [exec_encode, exec_encode, execEncode, execEncode, payloadLen_accumulators,
        encodedFbuf_accumulators]
      by_cases hk : payloadLen s < k.toNat
      · rw [if_pos hk, if_pos hk]
        rfl
      · rw [if_neg hk, if_neg hk]
        cases encodedFbuf seq k.toNat s <;> rfl
  · obtain rfl | rfl | ⟨seq, k, rfl⟩ := hi
    · obtain ⟨v, -, rfl⟩ := execDecode_next ht
      exact ⟨rfl, rfl⟩
    · obtain ⟨l, -, rfl⟩ := execStrip_next ht
      exact ⟨rfl, rfl⟩
    · obtain ⟨-, rfl⟩ | ⟨-, m, -, rfl⟩ := execEncode_next ht
      · exact ⟨rfl, rfl⟩
      · exact ⟨rfl, rfl⟩
  · obtain rfl | rfl | ⟨b, rfl⟩ | ⟨b, rfl⟩ := hi
    · exact ⟨fun a => (0, a.2), exec_crcInit⟩
    · exact ⟨fun a => (a.1, 0), exec_sumInit⟩
    · exact ⟨fun a => (crcStep a.1 b, a.2), exec_crcByte b⟩
    · exact ⟨fun a => (a.1, a.2 + b), exec_sumByte b⟩

end Sys2Proof.Machine

/-! The CRC as the remainder of a polynomial over the two-element field (R100, R101): each turn of R101's loop
multiplies by x modulo the generator. -/

namespace Sys2Proof.Machine

section
open Polynomial

/-- The bits of a word as a polynomial over the two-element field, bit i the coefficient of x^i. -/
noncomputable def bitPoly {w : Nat} (x : BitVec w) : (ZMod 2)[X] :=
  ∑ i ∈ Finset.range w, if x.getLsbD i then X ^ i else 0

/-- R100's polynomial x^16 + x^12 + x^5 + 1. -/
noncomputable def crcGenerator : (ZMod 2)[X] := X ^ 16 + X ^ 12 + X ^ 5 + 1

/-- The bits of a message as a polynomial, most significant first, after those that `f` already holds. -/
noncomputable def messagePoly (f : (ZMod 2)[X]) (p : List Byte) : (ZMod 2)[X] :=
  p.foldl (fun acc b => acc * X ^ 8 + bitPoly b) f

theorem degree_bitPoly_lt {w : Nat} (x : BitVec w) : (bitPoly x).degree < w := by
  refine (degree_sum_le _ _).trans_lt ((Finset.sup_lt_iff (WithBot.bot_lt_coe w)).mpr fun i hi => ?_)
  split
  · exact (degree_X_pow_le i).trans_lt (Nat.cast_lt.mpr (Finset.mem_range.mp hi))
  · exact degree_zero.trans_lt (WithBot.bot_lt_coe w)

/-- Exclusive or is addition over the two-element field. -/
theorem bitPoly_xor {w : Nat} (x y : BitVec w) : bitPoly (x ^^^ y) = bitPoly x + bitPoly y := by
  rw [bitPoly, bitPoly, bitPoly, ← Finset.sum_add_distrib]
  refine Finset.sum_congr rfl fun i _ => ?_
  cases hx : x.getLsbD i <;> cases hy : y.getLsbD i <;> simp [hx, hy, CharTwo.add_self_eq_zero]

/-- Zeros at the low end raise every power. -/
theorem bitPoly_append_zero {w : Nat} (x : BitVec w) (n : Nat) :
    bitPoly (x ++ (0 : BitVec n)) = bitPoly x * X ^ n := by
  have hlow : ∀ i ∈ Finset.range n, (if (x ++ (0 : BitVec n)).getLsbD i then (X : (ZMod 2)[X]) ^ i else 0) = 0 :=
    fun i hi => by simp [BitVec.getLsbD_append, Finset.mem_range.mp hi]
  rw [bitPoly, show Finset.range (w + n) = Finset.range (n + w) by rw [Nat.add_comm], Finset.sum_range_add,
    Finset.sum_eq_zero hlow, zero_add, bitPoly, Finset.sum_mul]
  refine Finset.sum_congr rfl fun i _ => ?_
  simp [BitVec.getLsbD_append, pow_add, mul_comm]

/-- A left shift multiplies by x, apart from the bit that leaves. -/
theorem bitPoly_shiftLeft_one {w : Nat} (x : BitVec (w + 1)) :
    bitPoly (x <<< 1) + (if x.getLsbD w then X ^ (w + 1) else 0) = bitPoly x * X := by
  have hbit : ∀ i ∈ Finset.range w, (if (x <<< 1).getLsbD (i + 1) then (X : (ZMod 2)[X]) ^ (i + 1) else 0) =
      (if x.getLsbD i then X ^ i else 0) * X := fun i hi => by
    have hi' : i + 1 < w + 1 := Nat.succ_lt_succ (Finset.mem_range.mp hi)
    simp only [BitVec.getLsbD_shiftLeft, hi', pow_succ]
    simp
  rw [bitPoly, Finset.sum_range_succ', Finset.sum_congr rfl hbit, bitPoly, Finset.sum_range_succ, add_mul,
    Finset.sum_mul]
  simp [pow_succ]

theorem bitPoly_crcPoly : bitPoly crcPoly = 1 + X ^ 5 + X ^ 12 := by
  simp [bitPoly, crcPoly, Finset.sum_range_succ]

theorem crcGenerator_eq : crcGenerator = X ^ 16 + bitPoly crcPoly := by
  rw [bitPoly_crcPoly, crcGenerator]
  ring

theorem crcGenerator_monic : crcGenerator.Monic := by
  rw [crcGenerator_eq]
  exact monic_X_pow_add (degree_bitPoly_lt crcPoly)

theorem degree_crcGenerator : crcGenerator.degree = (16 : Nat) := by
  have hlt : (bitPoly crcPoly).degree < (X ^ 16 : (ZMod 2)[X]).degree := by
    rw [degree_X_pow]
    exact degree_bitPoly_lt crcPoly
  rw [crcGenerator_eq, degree_add_eq_left_of_degree_lt hlt, degree_X_pow]

/-- A turn of R101's loop multiplies by x, and takes the generator off where a bit leaves. -/
theorem bitPoly_crcShift (x : Half) :
    bitPoly (crcShift x) = bitPoly x * X + if x.getLsbD 15 then crcGenerator else 0 := by
  rw [← bitPoly_shiftLeft_one (w := 15) x, crcShift]
  split
  · rw [bitPoly_xor, crcGenerator_eq, add_assoc, ← add_assoc (X ^ 16), CharTwo.add_self_eq_zero, zero_add]
  · rw [add_zero, add_zero]

/-- A polynomial modulo the generator. -/
noncomputable abbrev modGenerator : (ZMod 2)[X] →+* AdjoinRoot crcGenerator := AdjoinRoot.mk crcGenerator

theorem modGenerator_crcShifts (n : Nat) (x : Half) :
    modGenerator (bitPoly (crcShifts n x)) = modGenerator (bitPoly x * X ^ n) := by
  induction n generalizing x with
  | zero => rw [crcShifts, pow_zero, mul_one]
  | succ n ih =>
    have hshift : modGenerator (bitPoly (crcShift x)) = modGenerator (bitPoly x * X) := by
      rw [bitPoly_crcShift, map_add]
      split <;> simp
    rw [crcShifts, ih, map_mul, hshift, ← map_mul, mul_assoc, ← pow_succ']

/-- R101's step: the byte joins x^8 above the low end, and eight turns raise all by x^8. -/
theorem modGenerator_crcStep (c : Half) (b : Byte) :
    modGenerator (bitPoly (crcStep c b)) = modGenerator ((bitPoly c + bitPoly b * X ^ 8) * X ^ 8) := by
  rw [crcStep, modGenerator_crcShifts, bitPoly_xor, bitPoly_append_zero]

/-- The CRC register stays congruent to the message so far times x^16. -/
theorem modGenerator_foldl_crcStep {c : Half} {f : (ZMod 2)[X]}
    (h : modGenerator (bitPoly c) = modGenerator (f * X ^ 16)) (p : List Byte) :
    modGenerator (bitPoly (p.foldl crcStep c)) = modGenerator (messagePoly f p * X ^ 16) := by
  induction p generalizing c f with
  | nil => exact h
  | cons b p ih =>
    refine ih ?_
    rw [modGenerator_crcStep, map_mul, map_add, h, ← map_add, ← map_mul]
    exact congrArg modGenerator (by ring)

theorem bitPoly_zero (w : Nat) : bitPoly (0 : BitVec w) = 0 := by simp [bitPoly]

/-- A word's polynomial is the remainder of whatever it is congruent to, its degree being below the generator's. -/
theorem bitPoly_eq_modByMonic {x : Half} {f : (ZMod 2)[X]} (h : modGenerator (bitPoly x) = modGenerator f) :
    bitPoly x = f %ₘ crcGenerator := by
  have hdegree : (bitPoly x).degree < crcGenerator.degree := by
    rw [degree_crcGenerator]
    exact degree_bitPoly_lt x
  rw [← modByMonic_eq_of_dvd_sub crcGenerator_monic (AdjoinRoot.mk_eq_mk.mp h)]
  exact ((modByMonic_eq_self_iff crcGenerator_monic).mpr hdegree).symm

end

/-- Settles O26: both sides are congruent modulo the generator, and the CRC's polynomial is of lower degree. -/
theorem crcIsThePolynomialRemainder : Obligations.CrcIsThePolynomialRemainder := by
  unfold Obligations.CrcIsThePolynomialRemainder
  intro p
  exact bitPoly_eq_modByMonic (modGenerator_foldl_crcStep (by rw [bitPoly_zero, zero_mul]) p)

end Sys2Proof.Machine

/-! The probe engine: what a tick does in each of its cases (R126, R127), and the timeline of a whole negotiation
(R131). -/

namespace Sys2Proof.Machine

/-! A tick -/

theorem tickEvent_of_not_probing {s : State} (h : probing s = false) : tickEvent s = s := by
  rw [tickEvent, if_neg (by simp [h])]

theorem tickEvent_between {s : State} (hp : probing s = true) (hne : s.ptick.toNat + 1 ≠ s.ilat.toNat) :
    tickEvent s = { s with ptick := s.ptick + 1 } := by
  rw [tickEvent, if_pos hp, if_neg hne]

theorem tickEvent_due {s : State} (h : intervalDue s) : tickEvent s = intervalEvent { s with ptick := 0 } := by
  rw [tickEvent, if_pos h.1, if_pos h.2]

/-- An interval event of the CRC phase with a 'C' probe left sends it (R127). -/
theorem tickEvent_sendC {s : State} (h : intervalDue s) (hc : s.pstate = .crc) (hlt : s.crcn.toNat < s.clat.toNat) :
    tickEvent s = { transmit charC { s with ptick := 0 } with crcn := s.crcn + 1 } := by
  rw [tickEvent_due h, intervalEvent, if_pos hc, if_pos hlt]

/-- With no 'C' probe left the interval event is the NAK branch, a CRC phase falling back to checksum first (R127). -/
theorem intervalEvent_of_no_charC {s : State} (hp : probing s = true)
    (h : ¬ (s.pstate = .crc ∧ s.crcn.toNat < s.clat.toNat)) :
    intervalEvent s = nakInterval { s with pstate := .nak, mode := if s.pstate = .crc then .checksum else s.mode } := by
  obtain hc | hn := (probing_iff s).mp hp
  · rw [intervalEvent, if_pos hc, if_neg fun hlt => h ⟨hc, hlt⟩, if_pos hc]
  · have hcrc : s.pstate ≠ .crc := by simp [hn]
    rw [intervalEvent, if_neg hcrc, if_neg hcrc, ← hn]

theorem tickEvent_sendNak {s : State} (h : intervalDue s) (hc : ¬ (s.pstate = .crc ∧ s.crcn.toNat < s.clat.toNat))
    (hn : s.nakn.toNat < s.nlat.toNat) :
    tickEvent s = { transmit s.params.nak { s with ptick := 0 } with
      pstate := .nak, mode := if s.pstate = .crc then .checksum else s.mode, nakn := s.nakn + 1 } := by
  rw [tickEvent_due h, intervalEvent_of_no_charC (s := { s with ptick := 0 }) h.1 hc, nakInterval, if_pos hn]
  rfl

theorem tickEvent_fail {s : State} (h : intervalDue s) (hc : ¬ (s.pstate = .crc ∧ s.crcn.toNat < s.clat.toNat))
    (hn : ¬ s.nakn.toNat < s.nlat.toNat) :
    tickEvent s = { setPending .negFail { s with ptick := 0 } with
      pstate := .failed, mode := if s.pstate = .crc then .checksum else s.mode } := by
  rw [tickEvent_due h, intervalEvent_of_no_charC (s := { s with ptick := 0 }) h.1 hc, nakInterval, if_neg hn]
  rfl

/-- Settles O45: the cases of a tick are those of the lemmas above. -/
theorem tickAndIntervalEvent : Obligations.TickAndIntervalEvent := by
  unfold Obligations.TickAndIntervalEvent
  exact ⟨fun s hc hn => tickEvent_of_not_probing ((probing_false_iff s).mpr ⟨hc, hn⟩),
    fun s hp hne => tickEvent_between hp hne,
    fun s hc hd hlt => tickEvent_sendC ⟨(probing_iff s).mpr (.inl hc), hd⟩ hc hlt,
    fun s hd hc hn => tickEvent_sendNak hd hc hn, fun s hd hc hn => tickEvent_fail hd hc hn⟩

/-! The timeline of a negotiation (R131) -/

/-- C of R131's timeline: the 'C' probes of a negotiation that starts in this state. -/
def charCBudget (s : State) : Nat := if s.pstate = .crc then s.clat.toNat else 0

theorem charCBudget_of_crc {s : State} (h : s.pstate = .crc) : charCBudget s = s.clat.toNat := if_pos h

theorem charCBudget_of_not_crc {s : State} (h : s.pstate ≠ .crc) : charCBudget s = 0 := if_neg h

/-- The j-th byte of the timeline of a negotiation that starts in this state, and the step that sends it. -/
def probeRecord (s : State) (j : Nat) : TxRecord :=
  { step := s.stepNo + (j + 1) * s.ilat.toNat - 1, byte := if j < charCBudget s then charC else s.params.nak }

/-- Where a negotiation that started in `s` stands after `q` interval events (R131). -/
structure AfterIntervals (s : State) (q : Nat) (t : State) : Prop where
  latches : SameLatches s t
  params : t.params = s.params
  pstate : t.pstate = if s.pstate = .crc ∧ q ≤ charCBudget s then .crc
    else if q ≤ charCBudget s + s.nlat.toNat then .nak else .failed
  mode : t.mode = if s.pstate = .crc ∧ q ≤ charCBudget s then .crc16 else .checksum
  crcn : t.crcn.toNat = min q (charCBudget s)
  nakn : t.nakn.toNat = min (q - charCBudget s) s.nlat.toNat
  sent : t.txHistory = s.txHistory ++ (List.range (min q (charCBudget s + s.nlat.toNat))).map (probeRecord s)
  negFail : isPending .negFail t = true ↔ isPending .negFail s = true ∨ charCBudget s + s.nlat.toNat < q

/-- A negotiation starts with nothing sent, in the mode of its phase (R124). -/
theorem Invariant.afterIntervals_zero {s : State} (h : Invariant s) (hp : probing s = true) (hc : s.crcn = 0)
    (hn : s.nakn = 0) : AfterIntervals s 0 s where
  latches := ⟨rfl, rfl, rfl⟩
  params := rfl
  pstate := by obtain hp | hp := (probing_iff s).mp hp <;> simp [hp]
  mode := by
    obtain hp | hp := (probing_iff s).mp hp
    · simp [hp, h.crcPhase hp]
    · simp [hp, h.nakPhase hp]
  crcn := by simp [hc]
  nakn := by simp [hn]
  sent := by simp
  negFail := by simp

theorem AfterIntervals.probing_iff {s t : State} {q : Nat} (h : AfterIntervals s q t) :
    probing t = true ↔ q ≤ charCBudget s + s.nlat.toNat := by
  rw [Machine.probing_iff, h.pstate]
  split
  · next hc => simp; omega
  · split
    · next hle => simp [hle]
    · next hgt => simp [hgt]

/-- A 'C' probe is left just before interval event C (R131). -/
theorem AfterIntervals.charC_iff {s t : State} {q : Nat} (h : AfterIntervals s q t) :
    (t.pstate = .crc ∧ t.crcn.toNat < t.clat.toNat) ↔ q < charCBudget s := by
  rw [h.pstate, h.crcn, h.latches.clat]
  by_cases hc : s.pstate = .crc
  · simp only [charCBudget_of_crc hc, hc, true_and]
    split
    · simp
    · split <;> simp <;> omega
  · simp only [charCBudget_of_not_crc hc, hc, false_and, if_false]
    split <;> simp

/-- A count below another of its width does not wrap when it goes up by one. -/
theorem toNat_add_one_of_lt {w : Nat} {x y : BitVec w} (h : x.toNat < y.toNat) : (x + 1).toNat = x.toNat + 1 := by
  have hlt : x.toNat + 1 < 2 ^ w := Nat.lt_of_le_of_lt h y.isLt
  have hw : 1 < 2 ^ w := by omega
  simp [BitVec.toNat_add, Nat.mod_eq_of_lt hw, Nat.mod_eq_of_lt hlt]

theorem isPending_negFail_transmit (b : Byte) (s : State) :
    isPending .negFail (transmit b s) = isPending .negFail s :=
  (isPending_setPending .negFail .probeTx s).trans (Bool.or_false _)

theorem SameLatches.trans {s t u : State} (h : SameLatches s t) (h' : SameLatches t u) : SameLatches s u :=
  ⟨h'.clat.trans h.clat, h'.nlat.trans h.nlat, h'.ilat.trans h.ilat⟩

@[simp] theorem tickEvent_params (s : State) : (tickEvent s).params = s.params := by
  obtain ⟨l, -, hadds⟩ := tickEvent_adds s
  exact hadds.params

@[simp] theorem tickEvent_inbox (s : State) : (tickEvent s).inbox = s.inbox := by
  obtain ⟨l, -, hadds⟩ := tickEvent_adds s
  exact hadds.inbox

/-- The probe of interval event q + 1 is the next byte of the timeline (R131). -/
theorem AfterIntervals.sent_succ {s t : State} {q : Nat} {b : Byte} (h : AfterIntervals s q t)
    (hq : q < charCBudget s + s.nlat.toNat) (hstep : t.stepNo + 1 = s.stepNo + (q + 1) * s.ilat.toNat)
    (hb : b = if q < charCBudget s then charC else s.params.nak) :
    t.txHistory ++ [{ step := t.stepNo, byte := b }] =
      s.txHistory ++ (List.range (min (q + 1) (charCBudget s + s.nlat.toNat))).map (probeRecord s) := by
  have hrecord : probeRecord s q = { step := t.stepNo, byte := b } := by
    rw [probeRecord, hb, ← hstep, Nat.add_sub_cancel]
  rw [h.sent, Nat.min_eq_left hq.le, Nat.min_eq_left hq, List.range_succ, List.map_append, List.append_assoc,
    List.map_singleton, hrecord]

/-- The interval events up to C send 'C' (R131). -/
theorem AfterIntervals.sendC {s t : State} {q : Nat} (h : AfterIntervals s q t) (hd : intervalDue t)
    (hstep : t.stepNo + 1 = s.stepNo + (q + 1) * s.ilat.toNat) (hq : q < charCBudget s) :
    AfterIntervals s (q + 1) (tickEvent t) := by
  obtain ⟨hc, hlt⟩ := h.charC_iff.mpr hq
  have hcrc : s.pstate = .crc := by
    by_contra hne
    simp [charCBudget_of_not_crc hne] at hq
  have hlatches := h.latches.trans (tickEvent_latches t)
  have hparams := (tickEvent_params t).trans h.params
  have hcrcn := h.crcn
  rw [tickEvent_sendC hd hc hlt] at hlatches hparams ⊢
  exact
    { latches := hlatches
      params := hparams
      pstate := hc.trans (if_pos ⟨hcrc, hq⟩).symm
      mode := (h.mode.trans (if_pos ⟨hcrc, hq.le⟩)).trans (if_pos ⟨hcrc, hq⟩).symm
      crcn := (toNat_add_one_of_lt hlt).trans (by omega)
      nakn := h.nakn.trans (by omega)
      sent := h.sent_succ (by omega) hstep (if_pos hq).symm
      negFail := (Bool.eq_iff_iff.mp (isPending_negFail_transmit charC t)).trans
        (h.negFail.trans (or_congr_right (by omega))) }

/-- Outside the CRC phase the mode is checksum already, and the fallback from it makes it so (R127). -/
theorem AfterIntervals.mode_fallen {s t : State} {q : Nat} (h : AfterIntervals s q t) :
    (if t.pstate = .crc then .checksum else t.mode) = Mode.checksum := by
  rw [h.mode, h.pstate]
  split
  · rfl
  · split
    · split <;> simp
    · rfl

/-- The interval events from C + 1 to C + N send NAK, in checksum mode (R131). -/
theorem AfterIntervals.sendNak {s t : State} {q : Nat} (h : AfterIntervals s q t) (hd : intervalDue t)
    (hstep : t.stepNo + 1 = s.stepNo + (q + 1) * s.ilat.toNat) (hC : charCBudget s ≤ q)
    (hN : q < charCBudget s + s.nlat.toNat) : AfterIntervals s (q + 1) (tickEvent t) := by
  have hnoC := mt h.charC_iff.mp (Nat.not_lt.mpr hC)
  have hnakn := h.nakn
  have hlt : t.nakn.toNat < t.nlat.toNat := by
    rw [h.latches.nlat]
    omega
  have hphase : ¬ (s.pstate = .crc ∧ q + 1 ≤ charCBudget s) := fun hc => by omega
  have hlatches := h.latches.trans (tickEvent_latches t)
  have hparams := (tickEvent_params t).trans h.params
  rw [tickEvent_sendNak hd hnoC hlt] at hlatches hparams ⊢
  exact
    { latches := hlatches
      params := hparams
      pstate := ((if_neg hphase).trans (if_pos (by omega))).symm
      mode := h.mode_fallen.trans (if_neg hphase).symm
      crcn := h.crcn.trans (by omega)
      nakn := (toNat_add_one_of_lt hlt).trans (by omega)
      sent := h.sent_succ hN hstep (by rw [if_neg (by omega), h.params])
      negFail := (Bool.eq_iff_iff.mp (isPending_negFail_transmit t.params.nak t)).trans
        (h.negFail.trans (or_congr_right (by omega))) }

/-- Interval event C + N + 1 gives up, with nothing sent (R131). -/
theorem AfterIntervals.fail {s t : State} {q : Nat} (h : AfterIntervals s q t) (hd : intervalDue t)
    (hq : q = charCBudget s + s.nlat.toNat) : AfterIntervals s (q + 1) (tickEvent t) := by
  have hnoC := mt h.charC_iff.mp (by omega)
  have hnakn := h.nakn
  have hall : ¬ t.nakn.toNat < t.nlat.toNat := by
    rw [h.latches.nlat]
    omega
  have hphase : ¬ (s.pstate = .crc ∧ q + 1 ≤ charCBudget s) := fun hc => by omega
  have hlatches := h.latches.trans (tickEvent_latches t)
  have hparams := (tickEvent_params t).trans h.params
  rw [tickEvent_fail hd hnoC hall] at hlatches hparams ⊢
  exact
    { latches := hlatches
      params := hparams
      pstate := ((if_neg hphase).trans (if_neg (by omega))).symm
      mode := h.mode_fallen.trans (if_neg hphase).symm
      crcn := h.crcn.trans (by omega)
      nakn := h.nakn.trans (by omega)
      sent := h.sent.trans (by rw [Nat.min_eq_right hq.ge, Nat.min_eq_right (by omega)])
      negFail := (Bool.eq_iff_iff.mp (isPending_setPending .negFail .negFail t)).trans
        (iff_of_true (by simp) (.inr (by omega))) }

/-- After the failure the timeline stands still (R131, R133). -/
theorem AfterIntervals.failed {s t : State} {q r : Nat} (h : AfterIntervals s q t)
    (hq : charCBudget s + s.nlat.toNat < q) (hr : q ≤ r) : AfterIntervals s r t where
  latches := h.latches
  params := h.params
  pstate := by rw [h.pstate, if_neg (by omega), if_neg (by omega), if_neg (by omega), if_neg (by omega)]
  mode := by rw [h.mode, if_neg (by omega), if_neg (by omega)]
  crcn := h.crcn.trans (by omega)
  nakn := h.nakn.trans (by omega)
  sent := h.sent.trans (by rw [Nat.min_eq_right hq.le, Nat.min_eq_right (by omega)])
  negFail := h.negFail.trans (or_congr_right (by omega))

/-- An interval event moves the timeline on by one interval (R127, R131). -/
theorem AfterIntervals.interval {s t : State} {q : Nat} (h : AfterIntervals s q t) (hd : intervalDue t)
    (hstep : t.stepNo + 1 = s.stepNo + (q + 1) * s.ilat.toNat) : AfterIntervals s (q + 1) (tickEvent t) := by
  have hle := h.probing_iff.mp hd.1
  by_cases hC : q < charCBudget s
  · exact h.sendC hd hstep hC
  · by_cases hN : q < charCBudget s + s.nlat.toNat
    · exact h.sendNak hd hstep (by omega) hN
    · exact h.fail hd (by omega)

/-- The timeline says nothing of PTICK, the line irq, the waiting events and the step number. -/
theorem AfterIntervals.congr {s t u : State} {q : Nat} (h : AfterIntervals s q t)
    (hu : u = { t with ptick := u.ptick, irq := u.irq, inbox := u.inbox, stepNo := u.stepNo }) :
    AfterIntervals s q u := by
  rw [hu]
  exact { h with latches := ⟨h.latches.clat, h.latches.nlat, h.latches.ilat⟩ }

/-- The timeline of R131: where a negotiation that started in `s` stands after `n` ticks. -/
structure Timeline (s : State) (n : Nat) (t : State) : Prop where
  intervals : AfterIntervals s (n / s.ilat.toNat) t
  ptick : t.ptick.toNat = if n / s.ilat.toNat ≤ charCBudget s + s.nlat.toNat then n % s.ilat.toNat else 0
  stepNo : t.stepNo = s.stepNo + n

theorem Invariant.timeline_zero {s : State} (h : Invariant s) (hp : probing s = true) (hc : s.crcn = 0)
    (hn : s.nakn = 0) (ht : s.ptick = 0) : Timeline s 0 s where
  intervals := by
    rw [Nat.zero_div]
    exact h.afterIntervals_zero hp hc hn
  ptick := by simp [ht]
  stepNo := rfl

theorem Timeline.withInbox {s t : State} {n : Nat} (h : Timeline s n t) (l : List Event) :
    Timeline s n { t with inbox := l } :=
  ⟨h.intervals.congr rfl, h.ptick, h.stepNo⟩

theorem intervalEvent_ptick (s : State) : (intervalEvent s).ptick = s.ptick := by
  have hnak (s : State) : (nakInterval s).ptick = s.ptick := by
    unfold nakInterval
    split <;> rfl
  unfold intervalEvent
  split
  · split
    · rfl
    · exact hnak _
  · exact hnak s

theorem Timeline.stepNo_tick {s t : State} {n : Nat} (h : Timeline s n t) :
    (settle (tickEvent t)).stepNo = s.stepNo + (n + 1) := by
  rw [settle_stepNo, tickEvent_stepNo, h.stepNo, Nat.add_assoc]

/-- The last tick of an interval is an interval event, which counts the interval and begins the next (R126). -/
theorem Timeline.tick_due {s t : State} {n : Nat} (h : Timeline s n t) (hI : 0 < s.ilat.toNat)
    (hle : n / s.ilat.toNat ≤ charCBudget s + s.nlat.toNat) (hdue : n % s.ilat.toNat + 1 = s.ilat.toNat) :
    Timeline s (n + 1) (settle (tickEvent t)) := by
  have hn : n % s.ilat.toNat + s.ilat.toNat * (n / s.ilat.toNat) = n := Nat.mod_add_div n _
  have hnext : n + 1 = (n / s.ilat.toNat + 1) * s.ilat.toNat := by
    rw [Nat.mul_comm, Nat.mul_add_one]
    omega
  have hd : intervalDue t :=
    ⟨h.intervals.probing_iff.mpr hle, by rw [h.ptick, if_pos hle, h.intervals.latches.ilat, hdue]⟩
  refine ⟨?_, ?_, h.stepNo_tick⟩
  · rw [hnext, Nat.mul_div_cancel _ hI]
    exact (h.intervals.interval hd (by rw [h.stepNo, Nat.add_assoc, hnext])).congr rfl
  · rw [hnext, Nat.mul_mod_left, ite_self, settle_ptick, tickEvent_due hd, intervalEvent_ptick]
    rfl

/-- Every other tick of an interval is counted in PTICK (R126). -/
theorem Timeline.tick_between {s t : State} {n : Nat} (h : Timeline s n t) (hI : 0 < s.ilat.toNat)
    (hle : n / s.ilat.toNat ≤ charCBudget s + s.nlat.toNat) (hne : n % s.ilat.toNat + 1 ≠ s.ilat.toNat) :
    Timeline s (n + 1) (settle (tickEvent t)) := by
  have hn : n % s.ilat.toNat + s.ilat.toNat * (n / s.ilat.toNat) = n := Nat.mod_add_div n _
  have hr : n % s.ilat.toNat < s.ilat.toNat := Nat.mod_lt n hI
  obtain ⟨hq, hz⟩ : (n + 1) / s.ilat.toNat = n / s.ilat.toNat ∧ (n + 1) % s.ilat.toNat = n % s.ilat.toNat + 1 :=
    (Nat.div_mod_unique hI).mpr ⟨by omega, by omega⟩
  have hptick : t.ptick.toNat = n % s.ilat.toNat := h.ptick.trans (if_pos hle)
  have hilat := h.intervals.latches.ilat
  have hlt : t.ptick.toNat < t.ilat.toNat := by rwa [hptick, hilat]
  have htick := tickEvent_between (h.intervals.probing_iff.mpr hle) (by rwa [hptick, hilat])
  refine ⟨?_, ?_, h.stepNo_tick⟩
  · rw [hq, htick]
    exact h.intervals.congr rfl
  · rw [hq, if_pos hle, hz, htick, ← hptick]
    exact toNat_add_one_of_lt hlt

/-- After the failure a tick has no effect (R126, R133). -/
theorem Timeline.tick_failed {s t : State} {n : Nat} (h : Timeline s n t)
    (hgt : charCBudget s + s.nlat.toNat < n / s.ilat.toNat) : Timeline s (n + 1) (settle (tickEvent t)) := by
  have hge : n / s.ilat.toNat ≤ (n + 1) / s.ilat.toNat := Nat.div_le_div_right (Nat.le_succ n)
  have hover : probing t = false :=
    eq_false_of_ne_true (mt h.intervals.probing_iff.mp (Nat.not_le.mpr hgt))
  refine ⟨?_, ?_, h.stepNo_tick⟩
  · rw [tickEvent_of_not_probing hover]
    exact (h.intervals.failed hgt hge).congr rfl
  · rw [tickEvent_of_not_probing hover, settle_ptick, h.ptick, if_neg (by omega), if_neg (by omega)]

/-- One tick moves the timeline on by one tick (R126, R131). -/
theorem Timeline.tick {s t : State} {n : Nat} (h : Timeline s n t) (hI : 0 < s.ilat.toNat) :
    Timeline s (n + 1) (settle (tickEvent t)) := by
  by_cases hle : n / s.ilat.toNat ≤ charCBudget s + s.nlat.toNat
  · by_cases hdue : n % s.ilat.toNat + 1 = s.ilat.toNat
    · exact h.tick_due hI hle hdue
    · exact h.tick_between hI hle hdue
  · exact h.tick_failed (Nat.not_le.mp hle)

/-- A run of waiting ticks goes along the timeline (R131). -/
theorem run_timeline {s : State} (h : Timeline s 0 s) (hI : 0 < s.ilat.toNat) {n : Nat} {rest : List Event}
    (hin : s.inbox = List.replicate n .tick ++ rest) :
    ∃ t, Sys2Proof.core.run n s = .next t ∧ t.inbox = rest ∧ Timeline s n t := by
  induction n generalizing rest with
  | zero => exact ⟨s, run_zero s, hin, h⟩
  | succ n ih =>
    rw [List.replicate_succ', List.append_assoc] at hin
    obtain ⟨t, hrun, hrest, htime⟩ := ih hin
    have hstep : step t = .next (settle (tickEvent { t with inbox := rest })) :=
      (step_cons (rest := rest) hrest).trans (eventStep_tick _)
    refine ⟨_, ?_, ?_, (htime.withInbox rest).tick hI⟩
    · rw [run_add hrun, run_succ_of_step hstep, run_zero]
    · rw [settle_inbox, tickEvent_inbox]

/-- Settles O50: the negotiation starts at tick 0 of its timeline, and a run of ticks goes along it. -/
theorem negotiationTimeline : Obligations.NegotiationTimeline := by
  unfold Obligations.NegotiationTimeline
  intro s n rest hinv hp hc hn ht hin
  obtain ⟨t, hrun, hrest, ⟨hint, hptick, hstepNo⟩⟩ :=
    run_timeline (hinv.timeline_zero hp hc hn ht) hinv.ilat_pos hin
  exact ⟨t, hrun, hrest, hstepNo, hint.pstate, hint.mode, hint.crcn, hint.nakn, hptick, hint.sent, hint.negFail⟩

end Sys2Proof.Machine

/-! What an event does to a negotiation (R120, R121, R132, R133), and the commands of a negotiation one by one. -/

namespace Sys2Proof.Machine

/-- The state of a negotiation and the sent bytes are the same in both states. -/
structure SameNegotiation (s t : State) : Prop where
  pstate : t.pstate = s.pstate
  mode : t.mode = s.mode
  mlock : t.mlock = s.mlock
  ptick : t.ptick = s.ptick
  crcn : t.crcn = s.crcn
  nakn : t.nakn = s.nakn
  sent : t.txHistory = s.txHistory

/-- The moves of a negotiation, each with what brings it (R120, R130). -/
inductive Negotiated (e : Event) (s : State) : State → Prop
  | same {t : State} (h : SameNegotiation s t) : Negotiated e s t
  | started (hc : commandOf e s = some .probeStart) (hp : s.pstate = .idle) : Negotiated e s (startProbe s)
  | selected (m : Mode) (c : ByteClass) (hp : s.pstate = .idle) : Negotiated e s (lockMode m { s with cls := c })
  | cancelled (hc : commandOf e s = some .probeCancel) (hp : probing s = true) :
      Negotiated e s { s with pstate := .idle, ptick := 0 }
  | newSession {t : State} (hc : commandOf e s = some .sessInit) (ht : t.pstate = .idle)
      (hx : t.txHistory = s.txHistory) : Negotiated e s t
  | ticked (he : e = .tick) (hp : probing s = true) : Negotiated e s (tickEvent s)
  | snooped (b : Byte) (he : e = .rx b) (hb : b = 0x01 ∨ b = 0x02) (hp : probing s = true) :
      Negotiated e s { setPending .negDone s with pstate := .done, mlock := true, ptick := 0 }
  | reset (he : e = .reset) : Negotiated e s (resetEvent s)

theorem exec_negotiated {e : Event} {i : Instr} {s t : State} (hc : commandOf e s = some i) (h : exec i s = .next t) :
    Negotiated e s t := by
  cases i with
  | nop | crcInit | crcByte | sumInit | sumByte | classify =>
    obtain rfl := Host.Outcome.next.inj h
    exact .same ⟨rfl, rfl, rfl, rfl, rfl, rfl, rfl⟩
  | encode q k =>
    obtain ⟨-, rfl⟩ | ⟨-, m, -, rfl⟩ := execEncode_next h
    all_goals exact .same ⟨rfl, rfl, rfl, rfl, rfl, rfl, rfl⟩
  | decode =>
    obtain ⟨v, -, rfl⟩ := execDecode_next h
    exact .same ⟨rfl, rfl, rfl, rfl, rfl, rfl, rfl⟩
  | strip =>
    obtain ⟨l, -, rfl⟩ := execStrip_next h
    exact .same ⟨rfl, rfl, rfl, rfl, rfl, rfl, rfl⟩
  | modesel b =>
    obtain ⟨-, rfl⟩ | ⟨hp, -, -, rfl⟩ | ⟨hp, -, -, -, rfl⟩ | ⟨-, -, rfl⟩ := execModesel_next h
    · exact .same ⟨rfl, rfl, rfl, rfl, rfl, rfl, rfl⟩
    · exact .selected _ _ hp
    · exact .selected _ _ hp
    · exact .same ⟨rfl, rfl, rfl, rfl, rfl, rfl, rfl⟩
  | probeStart =>
    obtain ⟨-, rfl⟩ | ⟨hp, -, rfl⟩ := execProbeStart_next h
    · exact .same ⟨rfl, rfl, rfl, rfl, rfl, rfl, rfl⟩
    · exact .started hc hp
  | probeCancel =>
    obtain ⟨hp, rfl⟩ | ⟨-, rfl⟩ := execProbeCancel_next h
    · exact .cancelled hc hp
    · exact .same ⟨rfl, rfl, rfl, rfl, rfl, rfl, rfl⟩
  | sessInit =>
    obtain rfl := Host.Outcome.next.inj h
    exact .newSession hc rfl rfl

theorem regWrite_sameNegotiation {r : Reg} {v : Word} {s t : State} (h : regWrite r v s = some t) :
    SameNegotiation s t := by
  obtain ⟨-, rfl⟩ | ⟨-, rfl⟩ | ⟨-, rfl⟩ | ⟨-, rfl⟩ | ⟨-, rfl⟩ | ⟨-, rfl⟩ | ⟨-, rfl⟩ := regWrite_some h
  all_goals exact ⟨rfl, rfl, rfl, rfl, rfl, rfl, rfl⟩

theorem rxEvent_ends {s : State} {b : Byte} (hp : probing s = true) (hb : b = 0x01 ∨ b = 0x02) :
    rxEvent b s = { setPending .negDone s with pstate := .done, mlock := true, ptick := 0 } :=
  if_pos (Bool.and_eq_true_iff.mpr ⟨hp, (endsProbing_iff b).mpr hb⟩)

theorem rxEvent_ignored {s : State} {b : Byte} (h : ¬ (probing s = true ∧ (b = 0x01 ∨ b = 0x02))) :
    rxEvent b s = s :=
  if_neg fun hends => h ((Bool.and_eq_true_iff.mp hends).imp_right (endsProbing_iff b).mp)

/-- Every event is one of the moves of a negotiation (R120). -/
theorem Delivered.negotiated {e : Event} {s t : State} (hd : Delivered e s t) : Negotiated e s t := by
  cases hd with
  | notSelected | read | fbuf | illegal => exact .same ⟨rfl, rfl, rfl, rfl, rfl, rfl, rfl⟩
  | register addr v r t he hs hr hw => exact .same (regWrite_sameNegotiation hw)
  | command v i t he hd hc hx => exact exec_negotiated hc hx
  | tick he =>
    cases hp : probing s with
    | true => exact .ticked he hp
    | false =>
      rw [tickEvent_of_not_probing hp]
      exact .same ⟨rfl, rfl, rfl, rfl, rfl, rfl, rfl⟩
  | rx b he =>
    by_cases hends : probing s = true ∧ (b = 0x01 ∨ b = 0x02)
    · rw [rxEvent_ends hends.1 hends.2]
      exact .snooped b he hends.2 hends.1
    · rw [rxEvent_ignored hends]
      exact .same ⟨rfl, rfl, rfl, rfl, rfl, rfl, rfl⟩
  | reset he => exact .reset he

theorem eventStep_negotiated {e : Event} {s t : State} (h : eventStep e s = .next t) :
    ∃ u, Negotiated e s u ∧ t = settle u := by
  obtain ⟨u, hu, ht⟩ := eventStep_next h
  exact ⟨u, (deliver_next hu).negotiated, ht⟩

/-! No probe after a cancellation (R132) -/

theorem startProbe_txHistory (s : State) : (startProbe s).txHistory = s.txHistory := by
  simpa using (startProbe_adds s).sent

/-- No probe runs, and `sent` is all that was sent so far. -/
structure Silent (sent : List TxRecord) (s : State) : Prop where
  notProbing : probing s = false
  sent : s.txHistory = sent

theorem probing_of_idle {s : State} (h : s.pstate = .idle) : probing s = false := by simp [probing, h]

theorem probing_congr {s t : State} (h : t.pstate = s.pstate) : probing t = probing s := by simp only [probing, h]

/-- Only a PROBE_START ends the quiet of a machine that is not probing (R120, R121). -/
theorem Silent.negotiated {l : List TxRecord} {e : Event} {s t : State} (h : Silent l s)
    (he : commandOf e s ≠ some .probeStart) (hn : Negotiated e s t) : Silent l t := by
  obtain ⟨hquiet, hsent⟩ := h
  cases hn with
  | same hs => exact ⟨(probing_congr hs.pstate).trans hquiet, hs.sent.trans hsent⟩
  | started hc => exact absurd hc he
  | selected m c hp => exact ⟨probing_of_idle hp, hsent⟩
  | cancelled => exact ⟨rfl, hsent⟩
  | newSession hc ht hx => exact ⟨probing_of_idle ht, hx.trans hsent⟩
  | ticked _ hp | snooped _ _ _ hp => simp [hp] at hquiet
  | reset => exact ⟨rfl, hsent⟩

theorem Silent.settled {l : List TxRecord} {s : State} (h : Silent l s) : Silent l (settle s) := ⟨h.notProbing, h.sent⟩

/-- Settles O51: `Silent` is kept along the run. -/
theorem noProbeAfterCancellation : Obligations.NoProbeAfterCancellation := by
  unfold Obligations.NoProbeAfterCancellation
  intro n s t hp hev hrun
  have hend : Silent s.txHistory t := by
    refine run_keeps (allowed := fun e s => commandOf e s ≠ some .probeStart)
      (fun e s u hpar he => commandOf_congr hpar e ▸ he) (fun s l h => ⟨h.notProbing, h.sent⟩)
      (fun e s t h he hs => ?_) ⟨hp, rfl⟩ hev hrun
    obtain ⟨u, hu, rfl⟩ := eventStep_negotiated hs
    exact (h.negotiated he hu).settled
  exact ⟨hend.sent, hend.notProbing⟩

/-! The final phases (R133) -/

theorem SameNegotiation.trans {s t u : State} (h : SameNegotiation s t) (h' : SameNegotiation t u) :
    SameNegotiation s u where
  pstate := h'.pstate.trans h.pstate
  mode := h'.mode.trans h.mode
  mlock := h'.mlock.trans h.mlock
  ptick := h'.ptick.trans h.ptick
  crcn := h'.crcn.trans h.crcn
  nakn := h'.nakn.trans h.nakn
  sent := h'.sent.trans h.sent

/-- In DONE and FAILED no event moves the negotiation but SESS_INIT and reset (R120, R133). -/
theorem Negotiated.same_of_final {e : Event} {s t : State} (hn : Negotiated e s t)
    (hs : s.pstate = .done ∨ s.pstate = .failed) (he : KeepsSession e s) : SameNegotiation s t := by
  have hidle : s.pstate ≠ .idle := by rcases hs with hs | hs <;> simp [hs]
  have hquiet : probing s ≠ true := by rcases hs with hs | hs <;> simp [probing, hs]
  cases hn with
  | same h => exact h
  | started _ hp | selected _ _ hp => exact absurd hp hidle
  | cancelled _ hp | ticked _ hp | snooped _ _ _ hp => exact absurd hp hquiet
  | newSession hc => exact absurd hc he.1
  | reset hr => exact absurd hr he.2

/-- Settles O53: along the run the negotiation is that of the first state, which is final. -/
theorem doneAndFailedAreFinal : Obligations.DoneAndFailedAreFinal := by
  unfold Obligations.DoneAndFailedAreFinal
  intro n s t hs hev hrun
  have hend : SameNegotiation s t := by
    refine run_keeps (P := SameNegotiation s) (allowed := KeepsSession) (fun e s u hpar he => he.congr hpar)
      (fun u l h => h.trans ⟨rfl, rfl, rfl, rfl, rfl, rfl, rfl⟩) (fun e u v h he hv => ?_)
      ⟨rfl, rfl, rfl, rfl, rfl, rfl, rfl⟩ hev hrun
    obtain ⟨w, hw, rfl⟩ := eventStep_negotiated hv
    exact (h.trans (hw.same_of_final (h.pstate ▸ hs) he)).trans ⟨rfl, rfl, rfl, rfl, rfl, rfl, rfl⟩
  exact ⟨hend.pstate, hend.mode, hend.mlock, hend.ptick, hend.crcn, hend.nakn, hend.sent⟩

/-! The transition table of PSTATE (R120) and the probe port (R121) -/

/-- PROBE_START begins with 'C' probes when CFG0 prefers crc16 and CRC_ATTEMPTS leaves one (R36, R124). -/
theorem startProbe_eq (s : State) : startProbe s = { s with
    clat := latchedClat s.cfg1, nlat := latchedNlat s.cfg1, ilat := s.intervalMs, crcn := 0, nakn := 0, ptick := 0
    pstate := if s.cfg0.modePref = .crc16 ∧ 2 ≤ s.cfg1.crcAttempts.toNat then .crc else .nak
    mode := if s.cfg0.modePref = .crc16 ∧ 2 ≤ s.cfg1.crcAttempts.toNat then .crc16 else .checksum } := by
  have hiff : (s.cfg0.modePref = .crc16 ∧ 1 ≤ (latchedClat s.cfg1).toNat) ↔
      (s.cfg0.modePref = .crc16 ∧ 2 ≤ s.cfg1.crcAttempts.toNat) :=
    and_congr_right fun _ => by
      rw [latchedClat_toNat]
      omega
  unfold startProbe
  extract_lets latched
  split
  · next h => simp only [if_pos (hiff.mp h), latched]
  · next h => simp only [if_neg (mt hiff.mpr h), latched]

/-- The rows of R120's table that a tick brings. -/
theorem tickEvent_transition {s : State} (hp : probing s = true) (h : (tickEvent s).pstate ≠ s.pstate) :
    s.ptick.toNat + 1 = s.ilat.toNat ∧
    ((s.pstate = .crc ∧ s.clat.toNat ≤ s.crcn.toNat ∧ (tickEvent s).mode = .checksum ∧
      ((s.nakn.toNat < s.nlat.toNat ∧ (tickEvent s).pstate = .nak ∧
          (tickEvent s).txHistory = s.txHistory ++ [{ step := s.stepNo, byte := s.params.nak }]) ∨
        (s.nlat.toNat ≤ s.nakn.toNat ∧ (tickEvent s).pstate = .failed ∧
          (tickEvent s).txHistory = s.txHistory))) ∨
    (s.pstate = .nak ∧ s.nlat.toNat ≤ s.nakn.toNat ∧ (tickEvent s).pstate = .failed ∧
      (tickEvent s).txHistory = s.txHistory)) := by
  by_cases hd : s.ptick.toNat + 1 = s.ilat.toNat
  case neg => exact absurd (by rw [tickEvent_between hp hd]) h
  have hdue : intervalDue s := ⟨hp, hd⟩
  by_cases hC : s.pstate = .crc ∧ s.crcn.toNat < s.clat.toNat
  case pos => exact absurd (by rw [tickEvent_sendC hdue hC.1 hC.2]; rfl) h
  refine ⟨hd, ?_⟩
  obtain hc | hn := (probing_iff s).mp hp
  · have hall : s.clat.toNat ≤ s.crcn.toNat := Nat.not_lt.mp fun hlt => hC ⟨hc, hlt⟩
    by_cases hN : s.nakn.toNat < s.nlat.toNat
    · rw [tickEvent_sendNak hdue hC hN]
      exact .inl ⟨hc, hall, if_pos hc, .inl ⟨hN, rfl, rfl⟩⟩
    · rw [tickEvent_fail hdue hC hN]
      exact .inl ⟨hc, hall, if_pos hc, .inr ⟨Nat.not_lt.mp hN, rfl, rfl⟩⟩
  · by_cases hN : s.nakn.toNat < s.nlat.toNat
    · exact absurd (by rw [tickEvent_sendNak hdue hC hN, hn]) h
    · rw [tickEvent_fail hdue hC hN]
      exact .inr ⟨hn, Nat.not_lt.mp hN, rfl, rfl⟩

/-- Settles O48: each move of a negotiation keeps PSTATE or is a row of the table. -/
theorem probeStateTransitions : Obligations.ProbeStateTransitions := by
  unfold Obligations.ProbeStateTransitions
  intro e s t hs hne
  obtain ⟨u, hu, rfl⟩ := eventStep_negotiated hs
  cases hu with
  | same h => exact absurd h.pstate hne
  | started hc hp =>
    refine .inl ⟨hp, hc, ?_⟩
    rw [startProbe_eq]
    by_cases hcrc : s.cfg0.modePref = .crc16 ∧ 2 ≤ s.cfg1.crcAttempts.toNat
    · exact .inl ⟨hcrc.1, hcrc.2, if_pos hcrc, if_pos hcrc⟩
    · exact .inr ⟨hcrc, if_neg hcrc, if_neg hcrc⟩
  | selected => exact absurd rfl hne
  | cancelled hc hp => exact .inr (.inr (.inr (.inr (.inl ⟨hp, hc, rfl⟩))))
  | newSession hc ht => exact .inr (.inr (.inr (.inr (.inr (.inl ⟨hc, ht⟩)))))
  | ticked he hp =>
    obtain ⟨hd, ⟨hc, hall, hm, hrow⟩ | ⟨hn, hrow⟩⟩ := tickEvent_transition hp hne
    · exact .inr (.inl ⟨hc, he, hd, hall, hm, hrow⟩)
    · exact .inr (.inr (.inl ⟨hn, he, hd, hrow⟩))
  | snooped b he hb hp =>
    subst he
    exact .inr (.inr (.inr (.inl ⟨hp, hb.imp (congrArg Event.rx) (congrArg Event.rx), rfl, rfl⟩)))
  | reset he => exact .inr (.inr (.inr (.inr (.inr (.inr ⟨he, rfl⟩)))))

theorem isPending_probeTx_transmit (b : Byte) (s : State) : isPending .probeTx (transmit b s) = true :=
  (isPending_setPending .probeTx .probeTx s).trans (by simp)

/-- A tick that sends is an interval event with a probe to send (R126, R127). -/
theorem tickEvent_sends {s : State} (hp : probing s = true) (h : (tickEvent s).txHistory ≠ s.txHistory) :
    intervalDue s ∧
    (∃ b, (b = 0x43 ∨ b = s.params.nak) ∧
      (tickEvent s).txHistory = s.txHistory ++ [{ step := s.stepNo, byte := b }]) ∧
    isPending .probeTx (tickEvent s) = true := by
  by_cases hd : s.ptick.toNat + 1 = s.ilat.toNat
  case neg => exact absurd (by rw [tickEvent_between hp hd]) h
  have hdue : intervalDue s := ⟨hp, hd⟩
  refine ⟨hdue, ?_⟩
  by_cases hC : s.pstate = .crc ∧ s.crcn.toNat < s.clat.toNat
  · rw [tickEvent_sendC hdue hC.1 hC.2]
    exact ⟨⟨charC, .inl rfl, rfl⟩, isPending_probeTx_transmit charC s⟩
  · by_cases hN : s.nakn.toNat < s.nlat.toNat
    · rw [tickEvent_sendNak hdue hC hN]
      exact ⟨⟨s.params.nak, .inr rfl, rfl⟩, isPending_probeTx_transmit s.params.nak s⟩
    · exact absurd (by rw [tickEvent_fail hdue hC hN]; rfl) h

/-- Settles O49: of the moves of a negotiation only a tick sends, and `tickEvent_sends` says what. -/
theorem onlyIntervalEventsTransmit : Obligations.OnlyIntervalEventsTransmit := by
  unfold Obligations.OnlyIntervalEventsTransmit
  intro e s t hs hne
  obtain ⟨u, hu, rfl⟩ := eventStep_negotiated hs
  cases hu with
  | same h => exact absurd h.sent hne
  | started => exact absurd (startProbe_txHistory s) hne
  | newSession _ _ hx => exact absurd hx hne
  | selected | cancelled | snooped | reset => exact absurd rfl hne
  | ticked he hp => exact ⟨he, tickEvent_sends hp hne⟩

/-! The commands of a negotiation and the snoop (R122, R124, R128 to R130) -/

/-- Settles O46: the two cases of the snoop. -/
theorem snoopEndsProbing : Obligations.SnoopEndsProbing := by
  unfold Obligations.SnoopEndsProbing
  refine ⟨fun s b hp hb => rxEvent_ends hp hb, fun s b h => rxEvent_ignored ?_⟩
  rintro ⟨hp, hb⟩
  obtain hnp | ⟨h1, h2⟩ := h
  · simp [hp] at hnp
  · exact hb.elim h1 h2

theorem execProbeCancel_of_probing {s : State} (h : probing s = true) :
    execProbeCancel s = .next { s with pstate := .idle, ptick := 0 } := if_pos h

theorem execProbeCancel_of_not_probing {s : State} (h : probing s = false) : execProbeCancel s = .next s :=
  if_neg (by simp [h])

/-- Settles O44: after a PROBE_CANCEL nothing probes, so a second one finds nothing to stop. -/
theorem probeCancelIsIdempotent : Obligations.ProbeCancelIsIdempotent := by
  unfold Obligations.ProbeCancelIsIdempotent
  refine ⟨fun s hs => execProbeCancel_of_probing ((probing_iff s).mpr hs),
    fun s hc hn => execProbeCancel_of_not_probing ((probing_false_iff s).mpr ⟨hc, hn⟩), fun s t ht => ?_,
    fun w s hopc hbits => runCommand_of_decode_error (decode_of_reservedN (by rw [hopc]; decide) hbits) s⟩
  obtain ⟨-, rfl⟩ | ⟨hp, rfl⟩ := execProbeCancel_next ht
  · exact execProbeCancel_of_not_probing rfl
  · exact execProbeCancel_of_not_probing hp

/-- Settles O43: the refusal, and `startProbe_eq` with the latches exact. -/
theorem probeStartLatchesAndStarts : Obligations.ProbeStartLatchesAndStarts := by
  unfold Obligations.ProbeStartLatchesAndStarts
  refine ⟨fun s hs => ?_, fun s hp hl => ⟨latchedClat s.cfg1, latchedNlat s.cfg1, ?_, latchedClat_toNat s.cfg1,
    latchedNlat_toNat s.cfg1⟩,
    fun w s hopc hbits => runCommand_of_decode_error (decode_of_reservedN (by rw [hopc]; decide) hbits) s⟩
  · rw [exec_probeStart, execProbeStart, if_pos hs, raiseCmdError_eq]
  · rw [exec_probeStart, execProbeStart, if_neg (by simp [hp, hl]), startProbe_eq]

/-- R70's constraint, for the bytes that `classify` tells apart. -/
theorem paramsWf_pairwise {p : Params} (h : paramsWf p = true) :
    [soh, stx, p.eot, p.ack, p.nak, charC].Pairwise (· ≠ ·) :=
  (of_decide_eq_true (Bool.and_eq_true_iff.mp h).1).sublist (by simp)

theorem paramsWf_nak_ne_charC {p : Params} (h : paramsWf p = true) : p.nak ≠ charC :=
  List.pairwise_iff_getElem.mp (paramsWf_pairwise h) 4 5 (by simp) (by simp) (by simp)

/-- With R70's bytes distinct, a class is given by its byte alone (R123). -/
theorem classifyByte_iff {p : Params} (h : paramsWf p = true) (b : Byte) :
    (classifyByte p b = .soh ↔ b = soh) ∧ (classifyByte p b = .stx ↔ b = stx) ∧
    (classifyByte p b = .eot ↔ b = p.eot) ∧ (classifyByte p b = .ack ↔ b = p.ack) ∧
    (classifyByte p b = .nak ↔ b = p.nak) ∧ (classifyByte p b = .charC ↔ b = charC) := by
  have hne := paramsWf_pairwise h
  simp only [List.pairwise_cons, List.mem_cons, forall_eq_or_imp] at hne
  unfold classifyByte
  split_ifs <;> simp_all

/-- R123's table of codes. -/
theorem byteClassCode_iff (c : ByteClass) :
    ((byteClassCode c).toNat = 1 ↔ c = .soh) ∧ ((byteClassCode c).toNat = 2 ↔ c = .stx) ∧
    ((byteClassCode c).toNat = 3 ↔ c = .eot) ∧ ((byteClassCode c).toNat = 4 ↔ c = .ack) ∧
    ((byteClassCode c).toNat = 5 ↔ c = .nak) ∧ ((byteClassCode c).toNat = 6 ↔ c = .charC) ∧
    (byteClassCode c).toNat ≤ 6 := by
  cases c <;> decide

/-- Settles O41: each code stands for its class, and each class for its byte. -/
theorem classifyStoresTheClass : Obligations.ClassifyStoresTheClass := by
  unfold Obligations.ClassifyStoresTheClass
  refine ⟨fun s b hwf => ⟨classifyByte s.params b, exec_classify b s, ?_⟩, fun s heot hack hnak => ?_,
    fun w s hopc hbits => runCommand_of_decode_error (decode_of_reservedB (by rw [hopc]; decide) hbits) s⟩
  · obtain ⟨h1, h2, h3, h4, h5, h6⟩ := classifyByte_iff hwf b
    obtain ⟨c1, c2, c3, c4, c5, c6, hle⟩ := byteClassCode_iff (classifyByte s.params b)
    exact ⟨c1.trans h1, c2.trans h2, c3.trans h3, c4.trans h4, c5.trans h5, c6.trans h6, hle⟩
  · simp only [exec_classify, classifyByte, heot, hack, hnak]
    exact ⟨rfl, rfl, rfl, rfl⟩

/-- Settles O42: MODESEL branch by branch; 'C' and NAK are kept apart by R70's constraint. -/
theorem modeselSelectsOnce : Obligations.ModeselSelectsOnce := by
  unfold Obligations.ModeselSelectsOnce
  refine ⟨fun s b hs => ?_, fun s hp hl => ?_, fun s hwf hp hl => ?_, fun s b hp hno => ?_,
    fun w s hopc hbits => runCommand_of_decode_error (decode_of_reservedB (by rw [hopc]; decide) hbits) s⟩
  · rw [exec_modesel, execModesel, if_pos hs, raiseCmdError_eq]
  · rw [exec_modesel, execModesel, if_neg (not_not.mpr hp), if_pos ⟨hl, rfl⟩]
    rfl
  · have hne := paramsWf_nak_ne_charC hwf
    rw [exec_modesel, execModesel, if_neg (not_not.mpr hp), if_neg fun h => hne h.2, if_pos ⟨hl, rfl⟩]
    rfl
  · have hmiss (x : Byte) (hx : x = charC ∨ x = s.params.nak) : ¬ (s.mlock = false ∧ b = x) := by
      rintro ⟨hl, rfl⟩
      obtain hl' | ⟨hC, hN⟩ := hno
      · simp [hl] at hl'
      · exact hx.elim hC hN
    rw [exec_modesel, execModesel, if_neg (not_not.mpr hp), if_neg (hmiss _ (.inl rfl)), if_neg (hmiss _ (.inr rfl))]

end Sys2Proof.Machine

/-! Control (R150 to R152): a CMD write runs its command in the step that takes it, a placed word is such a write, NOP
does nothing and SESS_INIT starts a session. -/

namespace Sys2Proof.Machine

/-! From a CMD write to its command (R150) -/

theorem runCommand_of_decode_ok {w : Word} {i : Instr} (h : decode w = .ok i) (s : State) :
    runCommand w s = exec i s := by
  simp only [runCommand, h]

theorem runCommand_encode (i : Instr) (s : State) : runCommand (encode i) s = exec i s :=
  runCommand_of_decode_ok (decode_encode i) s

/-- CMD is the register at the window's base (R41). -/
theorem deliver_cmdWrite (w : Word) (s : State) : deliver (.busWrite s.params.base 4 w) s = runCommand w s :=
  deliver_busWrite (off := cmdOffset) 4 w s (by decide)

/-- Settles O7: the event delivers what the word does, a decoded word what its command does, and the step is then
closed. -/
theorem stepRunsTheDecodedCommand : Obligations.StepRunsTheDecodedCommand := by
  unfold Obligations.StepRunsTheDecodedCommand
  refine ⟨fun s w i rest hs hd => ?_, fun s w x rest hs hd => ?_⟩
  · have hrun : deliver (.busWrite s.params.base 4 w) { s with inbox := rest } = exec i { s with inbox := rest } :=
      (deliver_cmdWrite w { s with inbox := rest }).trans (runCommand_of_decode_ok hd _)
    rw [step_cons hs, eventStep, hrun]
    cases exec i { s with inbox := rest } with
    | next t => rfl
    | fault f => rfl
    | refused r => rfl
  · have hrefused : deliver (.busWrite s.params.base 4 w) { s with inbox := rest } =
        .next (cmdErrorState .illegal { s with inbox := rest }) :=
      (deliver_cmdWrite w { s with inbox := rest }).trans (runCommand_of_decode_error hd _)
    rw [step_cons hs, eventStep_of_deliver_next hrefused]
    rfl

/-! A placed word (log 3) -/

theorem decodeTableWord_some {nbits w : Nat} {i : Instr} (h : decodeTableWord nbits w = some i) :
    ∃ word, tableWord nbits w = some word ∧ decode word = .ok i := by
  unfold decodeTableWord at h
  split at h
  · cases h
  · next word hword =>
    split at h
    · next j hj => exact ⟨word, hword, hj.trans (congrArg Except.ok (Option.some.inj h))⟩
    · cases h

theorem withFetchWord_of_tableWord {nbits w : Nat} {word : Word} (h : tableWord nbits w = some word) (s : State) :
    s.withFetchWord nbits w = { s with inbox := .busWrite s.params.base 4 word :: s.inbox } := by
  simp only [State.withFetchWord, placeWord, h, cmdEvent, cmdOffset, Nat.add_zero]

/-- Settles O8: the placed word waits as a CMD write before all other events, so the step is that of O7. -/
theorem placedWordRunsNext : Obligations.PlacedWordRunsNext := by
  unfold Obligations.PlacedWordRunsNext
  intro s w i _ hw
  obtain ⟨word, hword, hd⟩ := decodeTableWord_some hw
  obtain ⟨hrun, -⟩ := stepRunsTheDecodedCommand
  rw [withFetchWord_of_tableWord hword]
  exact hrun { s with inbox := .busWrite s.params.base 4 word :: s.inbox } word i s.inbox rfl hd

/-! NOP and SESS_INIT (R151, R152) -/

/-- Settles O54: the zero word is NOP's encoding, and any other word of opcode 0 has a reserved bit set. -/
theorem nopChangesNothing : Obligations.NopChangesNothing := by
  unfold Obligations.NopChangesNothing
  exact ⟨exec_nop, runCommand_encode .nop,
    fun w s hopc hbits => runCommand_of_decode_error (decode_of_reservedN (by rw [hopc]; decide) hbits) s⟩

theorem commandRefusal_probeStart_of_unlocked {s : State} (hp : s.pstate = .idle) (hl : s.mlock = false) :
    commandRefusal .probeStart s = none := by
  simp [commandRefusal, hp, hl]

theorem commandRefusal_modesel_of_idle {s : State} (hp : s.pstate = .idle) (b : Byte) :
    commandRefusal (.modesel b) s = none := by
  simp [commandRefusal, hp]

/-- Settles O55: SESS_INIT leaves PSTATE IDLE and the mode unlocked, which is all that PROBE_START and MODESEL ask. -/
theorem sessInitStartsASession : Obligations.SessInitStartsASession := by
  unfold Obligations.SessInitStartsASession
  refine ⟨exec_sessInit, fun s t ht => ?_,
    fun w s hopc hbits => runCommand_of_decode_error (decode_of_reservedN (by rw [hopc]; decide) hbits) s⟩
  obtain rfl := Host.Outcome.next.inj ht
  exact ⟨commandRefusal_probeStart_of_unlocked rfl rfl, commandRefusal_modesel_of_idle rfl⟩

end Sys2Proof.Machine

/-! The refusal of a command (R161 to R163): which commands are refused and with which code, and that a command which is
not refused leaves ERRCODE and, but for a MODESEL hit, IRQ_PEND. -/

namespace Sys2Proof.Machine

/-- The only refusals of commands that decode: RANGE of an ENCODE of too many bytes, STATE of a PROBE_START or a MODESEL
that comes too late (R162). -/
theorem commandRefusal_some {i : Instr} {s : State} {c : ErrCode} (h : commandRefusal i s = some c) :
    (c = .range ∧ ∃ q k, i = .encode q k ∧ payloadLen s < k.toNat) ∨
    (c = .state ∧ ((i = .probeStart ∧ (s.pstate ≠ .idle ∨ s.mlock = true)) ∨
      ∃ b, i = .modesel b ∧ s.pstate ≠ .idle)) := by
  cases i with
  | nop | crcInit | crcByte | sumInit | sumByte | decode | strip | classify | probeCancel | sessInit => cases h
  | encode q k =>
    obtain ⟨hlong, rfl⟩ := Option.ite_some_none_eq_some.mp h
    exact .inl ⟨rfl, q, k, rfl, hlong⟩
  | modesel b =>
    obtain ⟨hbusy, rfl⟩ := Option.ite_some_none_eq_some.mp h
    exact .inr ⟨rfl, .inr ⟨b, rfl, hbusy⟩⟩
  | probeStart =>
    obtain ⟨hlate, rfl⟩ := Option.ite_some_none_eq_some.mp h
    exact .inr ⟨rfl, .inl ⟨rfl, hlate⟩⟩

theorem exec_of_refused {i : Instr} {s : State} {c : ErrCode} (h : commandRefusal i s = some c) :
    exec i s = .next (cmdErrorState c s) := by
  obtain ⟨rfl, q, k, rfl, hlong⟩ | ⟨rfl, ⟨rfl, hlate⟩ | ⟨b, rfl, hbusy⟩⟩ := commandRefusal_some h
  · rw [exec_encode, execEncode, if_pos hlong, raiseCmdError_eq]
  · rw [exec_probeStart, execProbeStart, if_pos hlate, raiseCmdError_eq]
  · rw [exec_modesel, execModesel, if_pos hbusy, raiseCmdError_eq]

/-- ERRCODE and IRQ_PEND are the same in both states. -/
structure SameErrors (s t : State) : Prop where
  errcode : t.errcode = s.errcode
  irqPend : t.irqPend = s.irqPend

theorem startProbe_sameErrors (s : State) : SameErrors s (startProbe s) := by
  rw [startProbe_eq]
  exact ⟨rfl, rfl⟩

/-- A command that is not refused leaves ERRCODE and IRQ_PEND, unless it is a MODESEL hit (R130, R162). -/
theorem exec_of_not_refused {i : Instr} {s t : State} (hr : commandRefusal i s = none) (h : exec i s = .next t) :
    SameErrors s t ∨ ∃ b m, i = .modesel b ∧ s.pstate = .idle ∧ s.mlock = false ∧ (b = charC ∨ b = s.params.nak) ∧
      t = lockMode m { s with cls := classifyByte s.params b } := by
  cases i with
  | nop | crcInit | crcByte | sumInit | sumByte | classify | sessInit =>
    obtain rfl := Host.Outcome.next.inj h
    exact .inl ⟨rfl, rfl⟩
  | encode q k =>
    obtain ⟨hlong, -⟩ | ⟨-, m, -, rfl⟩ := execEncode_next h
    · simp [commandRefusal, hlong] at hr
    · exact .inl ⟨rfl, rfl⟩
  | decode =>
    obtain ⟨v, -, rfl⟩ := execDecode_next h
    exact .inl ⟨rfl, rfl⟩
  | strip =>
    obtain ⟨l, -, rfl⟩ := execStrip_next h
    exact .inl ⟨rfl, rfl⟩
  | modesel b =>
    obtain ⟨hbusy, -⟩ | ⟨hp, hl, hb, rfl⟩ | ⟨hp, hl, -, hb, rfl⟩ | ⟨-, -, rfl⟩ := execModesel_next h
    · simp [commandRefusal, hbusy] at hr
    · exact .inr ⟨b, _, rfl, hp, hl, .inl hb, rfl⟩
    · exact .inr ⟨b, _, rfl, hp, hl, .inr hb, rfl⟩
    · exact .inl ⟨rfl, rfl⟩
  | probeStart =>
    obtain ⟨hbusy, -⟩ | ⟨-, -, rfl⟩ := execProbeStart_next h
    · simp [commandRefusal, hbusy] at hr
    · exact .inl (startProbe_sameErrors s)
  | probeCancel =>
    obtain ⟨-, rfl⟩ | ⟨-, rfl⟩ := execProbeCancel_next h
    all_goals exact .inl ⟨rfl, rfl⟩

/-! Command words -/

theorem wordRefusal_of_decode_ok {w : Word} {i : Instr} (h : decode w = .ok i) (s : State) :
    wordRefusal w s = commandRefusal i s := by
  simp only [wordRefusal, h]

theorem wordRefusal_of_decode_error {w : Word} {x : IllegalWord} (h : decode w = .error x) (s : State) :
    wordRefusal w s = some .illegal := by
  simp only [wordRefusal, h]

theorem runCommand_of_refused {w : Word} {s : State} {c : ErrCode} (h : wordRefusal w s = some c) :
    runCommand w s = .next (cmdErrorState c s) := by
  cases hd : decode w with
  | ok i => exact (runCommand_of_decode_ok hd s).trans (exec_of_refused (wordRefusal_of_decode_ok hd s ▸ h))
  | error x =>
    obtain rfl : .illegal = c := Option.some.inj ((wordRefusal_of_decode_error hd s).symm.trans h)
    exact runCommand_of_decode_error hd s

/-- A word that is not refused decodes. -/
theorem decode_of_not_refused {w : Word} {s : State} (h : wordRefusal w s = none) :
    ∃ i, decode w = .ok i ∧ commandRefusal i s = none := by
  cases hd : decode w with
  | ok i => exact ⟨i, rfl, wordRefusal_of_decode_ok hd s ▸ h⟩
  | error x => cases (wordRefusal_of_decode_error hd s).symm.trans h

/-- Which words are refused with which code (R162). -/
theorem wordRefusal_some {w : Word} {s : State} {c : ErrCode} (h : wordRefusal w s = some c) :
    (c = .illegal ∧ ∃ x, decode w = .error x) ∨ (c = .range ∧ ∃ q k, decode w = .ok (.encode q k)) ∨
    (c = .state ∧ (decode w = .ok .probeStart ∨ ∃ b, decode w = .ok (.modesel b))) := by
  cases hd : decode w with
  | error x => exact .inl ⟨(Option.some.inj ((wordRefusal_of_decode_error hd s).symm.trans h)).symm, x, rfl⟩
  | ok i =>
    obtain ⟨rfl, q, k, rfl, -⟩ | ⟨rfl, ⟨rfl, -⟩ | ⟨b, rfl, -⟩⟩ :=
      commandRefusal_some (wordRefusal_of_decode_ok hd s ▸ h)
    · exact .inr (.inl ⟨rfl, q, k, rfl⟩)
    · exact .inr (.inr ⟨rfl, .inl rfl⟩)
    · exact .inr (.inr ⟨rfl, .inr ⟨b, rfl⟩⟩)

/-- A MODESEL hit sets NEG_DONE alone (R130). -/
theorem isPending_cmdErr_lockMode (m : Mode) (s : State) : isPending .cmdErr (lockMode m s) = isPending .cmdErr s :=
  (isPending_setPending .cmdErr .negDone s).trans (Bool.or_false _)

theorem isPending_congr {s t : State} (h : t.irqPend = s.irqPend) (b : IrqBit) : isPending b t = isPending b s :=
  congrArg (BitVec.getLsbD · (irqIndex b)) h

/-- Settles O56: the refused words with their codes, the effect of a refusal, and the two ways in which a command that
is not refused goes on. -/
theorem refusalsArePreciseAndExact : Obligations.RefusalsArePreciseAndExact := by
  unfold Obligations.RefusalsArePreciseAndExact
  refine ⟨fun w s c => runCommand_of_refused, fun w s t hr ht => ?_, fun w s => ⟨fun h => ?_, ⟨fun h => ?_, ?_⟩,
    fun h => ?_, fun h => ?_⟩⟩
  · obtain ⟨i, hd, hi⟩ := decode_of_not_refused hr
    rw [runCommand_of_decode_ok hd] at ht
    obtain hsame | ⟨b, m, -, -, -, -, rfl⟩ := exec_of_not_refused hi ht
    · exact ⟨hsame.errcode, isPending_congr hsame.irqPend .cmdErr⟩
    · exact ⟨rfl, isPending_cmdErr_lockMode m _⟩
  · obtain ⟨hc, -⟩ | ⟨hc, -⟩ | ⟨hc, -⟩ := wordRefusal_some h
    all_goals cases hc
  · obtain ⟨-, hx⟩ | ⟨hc, -⟩ | ⟨hc, -⟩ := wordRefusal_some h
    · exact hx
    all_goals cases hc
  · rintro ⟨x, hx⟩
    exact wordRefusal_of_decode_error hx s
  · obtain ⟨hc, -⟩ | ⟨-, hencode⟩ | ⟨hc, -⟩ := wordRefusal_some h
    · cases hc
    · exact hencode
    · cases hc
  · obtain ⟨hc, -⟩ | ⟨hc, -⟩ | ⟨-, hprobe⟩ := wordRefusal_some h
    · cases hc
    · cases hc
    · exact hprobe

end Sys2Proof.Machine

/-! The bus errors of the window (R165): which accesses reach nothing, and which registers refuse a read or a write. -/

namespace Sys2Proof.Machine

/-- R165's conditions that hold for reads and writes alike. -/
def Misplaced (off width : Nat) : Prop :=
  (off ≤ 0x043 ∧ (width ≠ 4 ∨ off % 4 ≠ 0)) ∨ (0x400 ≤ off ∧ off ≤ 0x804 ∧ width ≠ 1) ∨
    (0x044 ≤ off ∧ off ≤ 0x3FF) ∨ 0x805 ≤ off

/-- The number of a register in the order of R41. -/
def regNumber (r : Reg) : Nat := regFile.idxOf r

theorem regFile_getElem?_iff {q : Nat} {r : Reg} : regFile[q]? = some r ↔ q = regNumber r := by
  have hmem : r ∈ regFile := by cases r <;> decide
  constructor
  · intro h
    obtain ⟨hq, rfl⟩ := List.getElem?_eq_some_iff.mp h
    exact ((show regFile.Nodup by decide).idxOf_getElem q hq).symm
  · rintro rfl
    exact List.getElem?_idxOf hmem

theorem regNumber_lt (r : Reg) : regNumber r < 17 := by
  obtain ⟨h, -⟩ := List.getElem?_eq_some_iff.mp (regFile_getElem?_iff.mpr rfl : regFile[regNumber r]? = some r)
  exact h

/-- A register is reached by the 4-byte access at its offset alone (R41, R42). -/
theorem busTarget_reg_iff {off width : Nat} {r : Reg} :
    busTarget off width = .ok (.reg r) ↔ width = 4 ∧ off = 4 * regNumber r := by
  constructor
  · intro h
    obtain ⟨hw, -, hal, hr⟩ := busTarget_reg h
    have := regFile_getElem?_iff.mp hr
    exact ⟨hw, by omega⟩
  · rintro ⟨rfl, rfl⟩
    have := regNumber_lt r
    rw [busTarget, if_pos (by omega), if_pos ⟨rfl, by omega⟩, Nat.mul_div_cancel_left _ (by decide),
      regFile_getElem?_iff.mpr rfl]

/-- An access reaches nothing exactly where it is misplaced (R42, R45, R47). -/
theorem busTarget_busError_iff {off width : Nat} :
    (∃ c, busTarget off width = .error (.busError c off width)) ↔ Misplaced off width := by
  have reached (x : BusTarget) (h : ¬ Misplaced off width) :
      (∃ c, (.ok x : Except Fault BusTarget) = .error (.busError c off width)) ↔ Misplaced off width :=
    iff_of_false nofun h
  unfold busTarget
  split
  · next hreg =>
    split
    · next hshape =>
      have hnum : off / 4 < regFile.length := by
        rw [show regFile.length = 17 from rfl]
        omega
      rw [List.getElem?_eq_getElem hnum]
      exact reached _ (by unfold Misplaced; omega)
    · exact iff_of_true ⟨.registerShape, rfl⟩ (by unfold Misplaced; omega)
  · split
    · next hbuf =>
      simp only [fbufOffset, fbufSize] at hbuf
      split
      · exact reached _ (by unfold Misplaced; omega)
      · exact iff_of_true ⟨.fbufWidth, rfl⟩ (by unfold Misplaced; omega)
    · next hbuf =>
      simp only [fbufOffset, fbufSize] at hbuf
      exact iff_of_true ⟨.reservedOffset, rfl⟩ (by unfold Misplaced; omega)

/-! Reads -/

theorem regRead_eq_none_iff {r : Reg} {s : State} : regRead r s = none ↔ r = .CMD := by
  cases r <;> simp [regRead]

/-- A read is a bus error where it reaches nothing and at CMD (R43); an unwritten FBUF byte is a fault of its own. -/
theorem readData_busError_iff {off width : Nat} {s : State} :
    (∃ c, readData off width s = .error (.busError c off width)) ↔
      (∃ c, busTarget off width = .error (.busError c off width)) ∨ busTarget off width = .ok (.reg .CMD) := by
  unfold readData
  cases busTarget off width with
  | error f => simp
  | ok target =>
    cases target with
    | reg r =>
      have := regRead_eq_none_iff (r := r) (s := s)
      cases hr : regRead r s <;> simp_all
    | fbuf i =>
      cases hb : fbufRead s.fbuf i with
      | ok b => simp [hb]
      | error f =>
        obtain ⟨-, rfl⟩ := fbufRead_error.mp hb
        simp [hb]

/-! Writes -/

/-- The registers that the host cannot write (R43). -/
def readOnlyRegs : List Reg := [.STATUS, .CRC, .SUM, .DSTAT, .DTRL, .PLEN, .TRIES, .PCNT, .PTICK]

theorem regWrite_eq_none_iff {r : Reg} (v : Word) (s : State) (hr : r ≠ .CMD) :
    regWrite r v s = none ↔ r ∈ readOnlyRegs := by
  cases r <;> simp [regWrite, readOnlyRegs] at hr ⊢

theorem stripScan_error {m : Memory} {n : Nat} {f : Fault} (h : stripScan m n = .error f) :
    ∃ i, f = .unwrittenRead i := by
  induction n with
  | zero => cases h
  | succ n ih =>
    unfold stripScan at h
    split at h
    · next g hg =>
      obtain ⟨-, rfl⟩ := fbufRead_error.mp hg
      exact ⟨3 + n, (Except.error.inj h).symm⟩
    · split at h
      · exact ih h
      · cases h

theorem execEncode_fault {q : Byte} {k : BitVec 11} {s : State} {f : Fault} (h : execEncode q k s = .fault f) :
    ∃ i, f = .unwrittenRead i := by
  unfold execEncode at h
  split at h
  · cases h
  · next hk =>
    split at h
    · next g hg =>
      obtain ⟨j, -, -, -, rfl⟩ := (encodedFbuf_error (Nat.not_lt.mp hk)).mp hg
      exact ⟨3 + j, (Host.Outcome.fault.inj h).symm⟩
    · cases h

theorem execStrip_fault {s : State} {f : Fault} (h : execStrip s = .fault f) : ∃ i, f = .unwrittenRead i := by
  unfold execStrip at h
  split at h
  · next g hg => exact Host.Outcome.fault.inj h ▸ stripScan_error hg
  · cases h

/-- A command faults only on an FBUF byte that nothing wrote (R46). -/
theorem exec_fault {i : Instr} {s : State} {f : Fault} (h : exec i s = .fault f) : ∃ j, f = .unwrittenRead j := by
  cases i with
  | nop | crcInit | crcByte | sumInit | sumByte | classify | sessInit => cases h
  | encode q k => exact execEncode_fault h
  | decode =>
    obtain ⟨j, rfl, -, -⟩ := execDecode_fault h
    exact ⟨j, rfl⟩
  | strip => exact execStrip_fault h
  | modesel b =>
    rw [exec_modesel, execModesel] at h
    split_ifs at h
  | probeStart =>
    rw [exec_probeStart, execProbeStart] at h
    split_ifs at h
  | probeCancel =>
    rw [exec_probeCancel, execProbeCancel] at h
    split_ifs at h

theorem runCommand_ne_busError (w : Word) (s : State) (c : BusErrorCause) (off width : Nat) :
    runCommand w s ≠ .fault (.busError c off width) := by
  intro h
  unfold runCommand at h
  split at h
  · obtain ⟨j, hj⟩ := exec_fault h
    cases hj
  · cases h

/-- A write is a bus error where it reaches nothing and at a read-only register (R43). -/
theorem writeOffset_busError_iff {off width : Nat} {v : Word} {s : State} :
    (∃ c, writeOffset off width v s = .fault (.busError c off width)) ↔
      (∃ c, busTarget off width = .error (.busError c off width)) ∨
      ∃ r ∈ readOnlyRegs, busTarget off width = .ok (.reg r) := by
  unfold writeOffset
  cases busTarget off width with
  | error f => simp
  | ok target =>
    cases target with
    | fbuf i => simp
    | reg r =>
      by_cases hcmd : r = .CMD
      · subst hcmd
        simp [runCommand_ne_busError, readOnlyRegs]
      · have := regWrite_eq_none_iff v s hcmd
        cases hr : regWrite r v s <;> simp_all

/-- The offsets of the read-only registers (R41, R43). -/
theorem busTarget_readOnly_iff {off width : Nat} :
    (∃ r ∈ readOnlyRegs, busTarget off width = .ok (.reg r)) ↔
      width = 4 ∧ off ∈ [0x004, 0x014, 0x018, 0x024, 0x028, 0x02C, 0x030, 0x034, 0x038] := by
  have hoffsets : readOnlyRegs.map (4 * regNumber ·) =
      [0x004, 0x014, 0x018, 0x024, 0x028, 0x02C, 0x030, 0x034, 0x038] := by decide
  rw [← hoffsets, List.mem_map]
  constructor
  · rintro ⟨r, hr, ht⟩
    obtain ⟨hw, hoff⟩ := busTarget_reg_iff.mp ht
    exact ⟨hw, r, hr, hoff.symm⟩
  · rintro ⟨hw, r, hr, hoff⟩
    exact ⟨r, hr, busTarget_reg_iff.mpr ⟨hw, hoff.symm⟩⟩

/-- Settles O20: an access is a bus error where it is misplaced, and beyond that a read at CMD and a write at the offset
of a read-only register. -/
theorem busErrorsExactlyWhere : Obligations.BusErrorsExactlyWhere := by
  unfold Obligations.BusErrorsExactlyWhere
  intro off width v s _
  constructor
  · rw [readData_busError_iff, busTarget_busError_iff, busTarget_reg_iff, show regNumber .CMD = 0 from rfl]
    unfold Misplaced
    omega
  · rw [writeOffset_busError_iff, busTarget_busError_iff, busTarget_readOnly_iff]
    simp only [List.mem_cons, List.not_mem_nil, or_false]
    unfold Misplaced
    omega

end Sys2Proof.Machine

/-! The interrupt bits (R166, R167): each cause sets its bit, what else an event does to IRQ_PEND, and the line. -/

namespace Sys2Proof.Machine

theorem isPending_of_irqPend_or {b c : IrqBit} {s t : State} (h : t.irqPend = s.irqPend ||| irqMask c) :
    isPending b t = (isPending b s || decide (b = c)) :=
  (isPending_congr (s := setPending c s) h b).trans (isPending_setPending b c s)

/-- A written 1 clears its bit and a written 0 leaves it (R34). -/
theorem isPending_clearPending (b : IrqBit) (v : Word) (s : State) :
    isPending b (clearPending v s) = (isPending b s && !v.getLsbD (irqIndex b)) := by
  cases b <;> simp [isPending, clearPending, irqIndex]

/-! Each cause sets its bit -/

theorem execModesel_hit {b : Byte} {s t : State} (hp : s.pstate = .idle) (hl : s.mlock = false)
    (hb : b = charC ∨ b = s.params.nak) (h : execModesel b s = .next t) :
    t.irqPend = s.irqPend ||| irqMask .negDone := by
  obtain ⟨hbusy, -⟩ | ⟨-, -, -, rfl⟩ | ⟨-, -, -, -, rfl⟩ | ⟨-, hno, -⟩ := execModesel_next h
  · exact absurd hp hbusy
  · rfl
  · rfl
  · obtain hl' | ⟨hC, hN⟩ := hno
    · simp [hl] at hl'
    · exact absurd hb (not_or.mpr ⟨hC, hN⟩)

/-- The bit of a cause is set by the event, whatever it was before (R166). -/
theorem irqPend_of_irqCause {b : IrqBit} {e : Event} {s t : State} (hc : irqCause b e s) (h : deliver e s = .next t) :
    t.irqPend = s.irqPend ||| irqMask b := by
  cases b with
  | negDone =>
    obtain ⟨hp, he⟩ | ⟨c, hcmd, hp, hl, hb⟩ := hc
    · obtain ⟨x, rfl, hx⟩ : ∃ x, e = .rx x ∧ (x = 0x01 ∨ x = 0x02) :=
        he.elim (fun h1 => ⟨_, h1, .inl rfl⟩) fun h2 => ⟨_, h2, .inr rfl⟩
      obtain rfl := Host.Outcome.next.inj h
      rw [rxEvent_ends hp hx]
      rfl
    · rw [deliver_of_commandOf hcmd] at h
      exact execModesel_hit hp hl hb h
  | negFail =>
    obtain ⟨rfl, hdue, hno⟩ := hc
    obtain rfl := Host.Outcome.next.inj h
    obtain ⟨hC, hN⟩ := not_or.mp hno
    rw [tickEvent_fail hdue hC hN]
    rfl
  | cmdErr =>
    obtain ⟨w, rfl, hw⟩ := hc
    obtain ⟨c, hcode⟩ := Option.ne_none_iff_exists'.mp hw
    rw [deliver_cmdWrite, runCommand_of_refused hcode] at h
    obtain rfl := Host.Outcome.next.inj h
    rfl
  | probeTx =>
    obtain ⟨rfl, hdue, hprobe⟩ := hc
    obtain rfl := Host.Outcome.next.inj h
    by_cases hC : s.pstate = .crc ∧ s.crcn.toNat < s.clat.toNat
    · rw [tickEvent_sendC hdue hC.1 hC.2]
      rfl
    · rw [tickEvent_sendNak hdue hC (hprobe.resolve_left hC)]
      rfl

/-! What an event does to IRQ_PEND -/

/-- What an event can do to IRQ_PEND, each with what brings it (R34, R166, R180); `irqPend_of_irqCause` says what
a cause of R166 does. -/
inductive PendingMove (e : Event) (s : State) : State → Prop
  | kept {t : State} (h : t.irqPend = s.irqPend) : PendingMove e s t
  | caused {t : State} (c : IrqBit) (hc : irqCause c e s) : PendingMove e s t
  | cleared (v : Word) (he : e = .busWrite (s.params.base + 0x03C) 4 v) : PendingMove e s (clearPending v s)
  | reset (he : e = .reset) : PendingMove e s (resetEvent s)

theorem regWrite_pendingMove {e : Event} {addr : Nat} {v : Word} {r : Reg} {s t : State} (he : e = .busWrite addr 4 v)
    (hs : s.params.base ≤ addr) (hr : busTarget (addr - s.params.base) 4 = .ok (.reg r))
    (hw : regWrite r v s = some t) : PendingMove e s t := by
  obtain ⟨-, rfl⟩ | ⟨-, rfl⟩ | ⟨-, rfl⟩ | ⟨-, rfl⟩ | ⟨-, rfl⟩ | ⟨rfl, rfl⟩ | ⟨-, rfl⟩ := regWrite_some hw
  pick_goal 6
  · obtain ⟨-, hoff⟩ := busTarget_reg_iff.mp hr
    rw [show regNumber .IRQ_PEND = 15 from rfl] at hoff
    obtain rfl : addr = s.params.base + 0x03C := by omega
    exact .cleared v he
  all_goals exact .kept rfl

/-- A command sets CMDERR when it is refused and NEG_DONE when it is a MODESEL hit (R166). -/
theorem command_pendingMove {e : Event} {v : Word} {i : Instr} {s t : State} (he : e = .busWrite s.params.base 4 v)
    (hd : decode v = .ok i) (hc : commandOf e s = some i) (hx : exec i s = .next t) : PendingMove e s t := by
  cases hr : commandRefusal i s with
  | some c => exact .caused .cmdErr ⟨v, he, by simp [wordRefusal_of_decode_ok hd, hr]⟩
  | none =>
    obtain hsame | ⟨b, m, rfl, hp, hl, hb, -⟩ := exec_of_not_refused hr hx
    · exact .kept hsame.irqPend
    · exact .caused .negDone (.inr ⟨b, hc, hp, hl, hb⟩)

/-- An interval event sets PROBE_TX when it has a probe to send and NEG_FAIL otherwise (R127). -/
theorem tick_pendingMove (s : State) : PendingMove .tick s (tickEvent s) := by
  by_cases hp : probing s = true
  case neg => exact .kept (by rw [tickEvent_of_not_probing (eq_false_of_ne_true hp)])
  by_cases hd : s.ptick.toNat + 1 = s.ilat.toNat
  case neg => exact .kept (by rw [tickEvent_between hp hd])
  have hdue : intervalDue s := ⟨hp, hd⟩
  by_cases hprobe : probeDue s
  · exact .caused .probeTx ⟨rfl, hdue, hprobe⟩
  · exact .caused .negFail ⟨rfl, hdue, hprobe⟩

theorem rx_pendingMove (b : Byte) (s : State) : PendingMove (.rx b) s (rxEvent b s) := by
  by_cases hends : probing s = true ∧ (b = 0x01 ∨ b = 0x02)
  · obtain ⟨hp, hb⟩ := hends
    exact .caused .negDone (.inl ⟨hp, hb.imp (congrArg Event.rx) (congrArg Event.rx)⟩)
  · exact .kept (by rw [rxEvent_ignored hends])

theorem Delivered.pendingMove {e : Event} {s t : State} (h : Delivered e s t) : PendingMove e s t := by
  cases h with
  | notSelected | read | fbuf => exact .kept rfl
  | register addr v r t he hs hr hw => exact regWrite_pendingMove he hs hr hw
  | illegal v x he hd => exact .caused .cmdErr ⟨v, he, by simp [wordRefusal_of_decode_error hd]⟩
  | command v i t he hd hc hx => exact command_pendingMove he hd hc hx
  | tick he => exact he ▸ tick_pendingMove s
  | rx b he => exact he ▸ rx_pendingMove b s
  | reset he => exact .reset he

/-- Settles O57: a cause sets its bit, and of the moves of IRQ_PEND only a cause adds a bit. -/
theorem pendingBitsSetByTheirCauses : Obligations.PendingBitsSetByTheirCauses := by
  unfold Obligations.PendingBitsSetByTheirCauses
  intro b e s t ht
  obtain ⟨u, hu, rfl⟩ := eventStep_next ht
  rw [isPending_congr (settle_irqPend u)]
  refine ⟨fun hc => ?_, fun hset => ?_⟩
  · simp [isPending_of_irqPend_or (irqPend_of_irqCause hc hu)]
  · cases (deliver_next hu).pendingMove with
    | kept h => exact .inl (isPending_congr h b ▸ hset)
    | caused c hc =>
      rw [isPending_of_irqPend_or (irqPend_of_irqCause hc hu), Bool.or_eq_true, decide_eq_true_eq] at hset
      exact hset.imp_right fun (hbc : b = c) => hbc ▸ hc
    | cleared v he =>
      rw [isPending_clearPending, Bool.and_eq_true] at hset
      exact .inl hset.1
    | reset he => simp [isPending, State.reset] at hset

/-! The line -/

theorem irqLevel_eq_decide (s : State) : irqLevel s = decide (s.irqPend &&& s.irqEn ≠ 0) := by
  simp [irqLevel, bne, beq_eq_decide]

/-- Settles O58: the line is evaluated when the step is closed, and of the moves of IRQ_PEND only a written 1 and reset
take a bit away. -/
theorem irqLineIsALevel : Obligations.IrqLineIsALevel := by
  unfold Obligations.IrqLineIsALevel
  refine ⟨fun e s t ht => ?_, fun b e s t ht hset hclear => ?_, fun s t ht => ?_, fun v s t ht => ?_⟩
  · obtain ⟨u, -, rfl⟩ := eventStep_next ht
    exact irqLevel_eq_decide u
  · obtain ⟨u, hu, rfl⟩ := eventStep_next ht
    rw [isPending_congr (settle_irqPend u)] at hclear
    cases (deliver_next hu).pendingMove with
    | kept h => simp [isPending_congr h, hset] at hclear
    | caused c hc => simp [isPending_of_irqPend_or (irqPend_of_irqCause hc hu), hset] at hclear
    | cleared v he =>
      rw [isPending_clearPending, hset] at hclear
      exact .inr ⟨v, he, by simpa using hclear⟩
    | reset he => exact .inl he
  · obtain rfl := Host.Outcome.next.inj ht
    rfl
  · obtain rfl := Host.Outcome.next.inj ht
    rfl

end Sys2Proof.Machine

/-! Reset as a step (R180): IRQ_PEND and IRQ_EN are at their reset values when the step is closed, so the line is too. -/

namespace Sys2Proof.Machine

theorem eventStep_reset (s : State) : eventStep .reset s = .next (settle (resetEvent s)) := rfl

/-- The line follows IRQ_PEND and IRQ_EN alone, and it follows them in the state after reset (R167). -/
theorem irqLevel_resetEvent (s : State) : irqLevel (resetEvent s) = State.reset.irq :=
  invariantHoldsAtReset.irqFollows.symm

/-- Settles O12: closing the step evaluates the line, which is as after reset, and counts the step. -/
theorem resetEventRestoresEverything : Obligations.ResetEventRestoresEverything := by
  unfold Obligations.ResetEventRestoresEverything
  intro s
  rw [eventStep_reset, settle, irqLevel_resetEvent]
  rfl

end Sys2Proof.Machine
